-- ==== Sys2Proof/Word.lean ====
section
/-! DEFINITION. The machine's words: bytes of the sample buffer and 32-bit words (20_memory.md R71, R72). -/

namespace Sys2Proof

/-- A byte of the sample buffer (R71). -/
abbrev Byte := BitVec 8

/-- A 32-bit word: every register, operand and sample.  A sample, parameter or coefficient is the bit
pattern of an IEEE 754 binary32 value (R10); `Machine/Binary32.lean` holds the arithmetic. -/
abbrev Word := BitVec 32

end Sys2Proof
end

