-- ==== Sys2Proof/Config.lean ====
section
/-! DEFINITION. What is fixed for the machine: the parameters of 00_scope.md R5, and the OPEN parameters and free
values as constants WITHOUT A BODY, so that no proof can see a value of one. -/

namespace Sys2Proof.Config

/-- Number of instrument slots (R5). -/
abbrev maxInstruments : Nat := 16

/-- Largest voice pool of a Synth (R5). -/
abbrev maxPolyphony : Nat := 8

/-- Most frames one RENDER command renders (R5, D17). -/
abbrev maxFrames : Nat := 4096

/-- What the ID register reads: "NXO" and command-set revision 1 (R31). -/
abbrev idValue : Word := 0x4E584F01#32

/-- SR_MIN, binary32 8000.0 (R5). -/
abbrev srMin : Word := 0x45FA0000#32

/-- SR_MAX, binary32 192000.0 (R5). -/
abbrev srMax : Word := 0x483B8000#32

/-- SR_NAN_DEFAULT, binary32 44100.0 (R5). -/
abbrev srNanDefault : Word := 0x472C4400#32

/-- SAFETY_CEILING, binary32(0.99) (R5). -/
abbrev safetyCeiling : Word := 0x3F7D70A4#32

/-- PRNG_SEED (R5). -/
abbrev prngSeed : BitVec 31 := 12345#31

/-- The binary32 operations whose NaN results have a payload no rule gives (93 U17). -/
inductive NanSource
  | add | sub | mul | div | rnd | frac
  | sin | tanh | exp | log10 | pow10 | exp2
  deriving DecidableEq, Repr

/-- FREE VALUE (assumption 3): the bits of a NaN result, as a function of the operation and its operands.
`Machine.F32.nanResult` makes a NaN of whatever pattern this is. -/
opaque nanBits : NanSource → Word → Word → Word

/-- OPEN parameter NUM of R16, before the named properties P1 to P5 are imposed on it: sine. `Machine/Numerics.lean`
imposes them, and every profile with P1 to P5 is reached (assumption 2). -/
opaque rawSin : Word → Word

/-- OPEN parameter NUM of R16: hyperbolic tangent of a positive finite argument, before P4 is imposed. -/
opaque rawTanh : Word → Word

/-- OPEN parameter NUM of R16: e to the x, before P3 and P5 are imposed. -/
opaque rawExp : Word → Word

/-- OPEN parameter NUM of R16: base-10 logarithm, before P5 is imposed. -/
opaque rawLog10 : Word → Word

/-- OPEN parameter NUM of R16: 10 to the x, before P2 and P5 are imposed. -/
opaque rawPow10 : Word → Word

/-- OPEN parameter NUM of R16: 2 to the x, before P1 and P5 are imposed. -/
opaque rawExp2 : Word → Word

/-- FREE VALUE (assumption 4): the fractional part of a finite negative number, which R21 does not give. `Machine.F32.frac`
keeps it in [0, 1), the range R45 gives the phase. -/
opaque fracOpen : Word → Word

/-- OPEN parameter DRUM_MODEL (R157): one frame's contribution (left, right) and the new hidden state, from the
hidden state DS, the parameters DP and the sample rate. DS is coded as a number (assumption 6). -/
opaque drumRender : Nat → Vector Word 7 → Word → Word × Word × Nat

/-- OPEN parameter DRUM_MODEL (R159): the hidden state after a note-on of a note and a velocity. -/
opaque drumNoteOn : Nat → Nat → Word → Nat

/-- OPEN parameter DRUM_MODEL (R159): the hidden state after a note-off of a note. -/
opaque drumNoteOff : Nat → Nat → Nat

/-- OPEN parameter DRUM_MODEL (R160): the hidden state after the instance RESET. -/
opaque drumReset : Nat → Nat

/-- FREE VALUE (93 U4, assumption 7): the parameters of a new DrumMachine, a fresh draw for each number. -/
opaque drumInitParams : Nat → Vector Word 7

/-- FREE VALUE (93 U4, assumption 7): the hidden state of a new DrumMachine, a fresh draw for each number. -/
opaque drumInitState : Nat → Nat

/-- FREE VALUE (93 U2, assumption 5): the byte of BUF at a window offset that nothing has written since power-on. -/
opaque bufPowerOn : Nat → Byte

/-- OPEN parameter BASE (R5, R70): byte address of the window on the platform bus. -/
opaque base : Nat

end Sys2Proof.Config
end

