-- ==== Sys2Proof/Machine/Binary32.lean ====
section
/-! DEFINITION. IEEE 754 binary32 on 32-bit patterns (00_scope.md R10 to R22).

Every finite binary32 value is a whole number of UNITS of 2^-149, the least positive one. An operation computes its exact
result in units, as a fraction of natural numbers, and `roundMag` rounds that once, to nearest with ties to even. -/

namespace Sys2Proof.Machine.F32

/-- The sign bit, bit 31 (R10). -/
def sign (x : Word) : Bool := x.msb

/-- The magnitude: exponent and fraction, bits [30:0], as one number. Magnitudes are in the order of the values. -/
def mag (x : Word) : Nat := x.toNat % 2 ^ 31

/-- The magnitude of infinity; larger magnitudes are NaNs. -/
def infMag : Nat := 0x7F800000

def isNaN (x : Word) : Bool := decide (infMag < mag x)

def isInf (x : Word) : Bool := decide (mag x = infMag)

def isZero (x : Word) : Bool := decide (mag x = 0)

def isFinite (x : Word) : Bool := decide (mag x < infMag)

/-- How many units one in the fraction's last place is, as a power of 2 (exponent field less 1; 0 for subnormals). -/
def unitExp (m : Nat) : Nat := m / 2 ^ 23 - 1

/-- The 24-bit significand of a magnitude: the fraction, with the hidden bit of a normal number. -/
def significand (m : Nat) : Nat := if m / 2 ^ 23 = 0 then m % 2 ^ 23 else 2 ^ 23 + m % 2 ^ 23

/-- The value of a finite magnitude in units of 2^-149. -/
def unitsOfMag (m : Nat) : Nat := significand m * 2 ^ unitExp m

/-- How many units 1.0 is. -/
def unitsPerOne : Nat := 2 ^ 149

/-- The absolute value of a finite pattern, in units. -/
def absUnits (x : Word) : Nat := unitsOfMag (mag x)

/-- The value of a finite pattern, in units. -/
def units (x : Word) : Int := if sign x then -(absUnits x : Int) else absUnits x

/-- The whole number nearest to n / d, ties to even. -/
def roundHalfEven (n d : Nat) : Nat :=
  let q := n / d
  let twice := 2 * (n % d)
  if twice < d then q else if d < twice then q + 1 else if q % 2 = 0 then q else q + 1

/-- The magnitude nearest to n / d units, ties to even (R12): `k` is the place of the last of 24 significant bits. A result
past the largest finite magnitude is infinity. -/
def roundMag (n d : Nat) : Nat :=
  let k := Nat.log2 (n / d) - 23
  min infMag (k * 2 ^ 23 + roundHalfEven n (d * 2 ^ k))

/-- The pattern with a sign and a magnitude. -/
def pack (neg : Bool) (m : Nat) : Word := BitVec.ofNat 32 (m + if neg then 2 ^ 31 else 0)

/-- The binary32 value nearest to the fraction n / d (R11). -/
def literal (n d : Nat) : Word := pack false (roundMag (n * unitsPerOne) d)

/-- 2^k for k in [-126, 127], exact. -/
def pow2 (k : Int) : Word := BitVec.ofNat 32 ((k + 127).toNat * 2 ^ 23)

abbrev zero : Word := 0x00000000#32
abbrev one : Word := 0x3F800000#32
abbrev half : Word := 0x3F000000#32
abbrev quarter : Word := 0x3E800000#32
abbrev threeQuarters : Word := 0x3F400000#32
abbrev oneAndHalf : Word := 0x3FC00000#32
abbrev two : Word := 0x40000000#32
abbrev twoAndHalf : Word := 0x40200000#32
abbrev three : Word := 0x40400000#32
abbrev four : Word := 0x40800000#32
abbrev infinity : Word := 0x7F800000#32

/-- The NaN an operation gives. No rule gives its payload (93 U17), so it is a free value of the operation and its operands
(assumption 3), made a NaN where the free pattern is none. -/
def nanResult (op : Config.NanSource) (a b : Word) : Word :=
  let r := Config.nanBits op a b
  if isNaN r then r else pack (sign r) (infMag + 1 + mag r / 2 ^ 9)

/-- `-a` flips the sign bit (R12). -/
def neg (x : Word) : Word := pack (!sign x) (mag x)

/-- `fabs(a)` clears the sign bit (R12). -/
def abs (x : Word) : Word := pack false (mag x)

/-- The sum of `⊕` and `⊖` (R12), with the NaN of the operation `op`. An exact zero sum is +0.0 unless both operands are negative
(IEEE 754, assumption 18). -/
def sumOf (op : Config.NanSource) (a b : Word) : Word :=
  if isNaN a || isNaN b then nanResult op a b
  else if isInf a then (if isInf b && sign a != sign b then nanResult op a b else a)
  else if isInf b then b
  else
    let s := units a + units b
    if s = 0 then pack (sign a && sign b) 0 else pack (decide (s < 0)) (roundMag s.natAbs 1)

/-- `a ⊕ b` (R12). -/
def add (a b : Word) : Word := sumOf .add a b

/-- `a ⊖ b` (R12): the value of `a ⊕ −b`. A NaN difference is a free value of its own, apart from that of any sum (93 U17,
assumption 3). -/
def sub (a b : Word) : Word := sumOf .sub a (neg b)

/-- `a ⊗ b` (R12). -/
def mul (a b : Word) : Word :=
  let s := sign a != sign b
  if isNaN a || isNaN b then nanResult .mul a b
  else if isInf a || isInf b then (if isZero a || isZero b then nanResult .mul a b else pack s infMag)
  else pack s (roundMag (absUnits a * absUnits b) unitsPerOne)

/-- `a ⊘ b` (R12): a nonzero dividend over zero gives an infinity, 0/0 a NaN. -/
def div (a b : Word) : Word :=
  let s := sign a != sign b
  if isNaN a || isNaN b then nanResult .div a b
  else if isInf a then (if isInf b then nanResult .div a b else pack s infMag)
  else if isInf b then pack s 0
  else if isZero b then (if isZero a then nanResult .div a b else pack s infMag)
  else pack s (roundMag (absUnits a * unitsPerOne) (absUnits b))

/-- A number in the order of the non-NaN values, the same for +0 and -0 (R13). -/
def key (x : Word) : Int := if sign x then -(mag x : Int) else mag x

/-- `a < b`, false for a NaN operand (R13). -/
def lt (a b : Word) : Bool := !isNaN a && !isNaN b && decide (key a < key b)

/-- `a ≤ b`, false for a NaN operand (R13). -/
def le (a b : Word) : Bool := !isNaN a && !isNaN b && decide (key a ≤ key b)

/-- `a == b`, false for a NaN operand, true for +0 and -0 (R13). -/
def eq (a b : Word) : Bool := !isNaN a && !isNaN b && decide (key a = key b)

/-- The parameter clamp of R14. -/
def pclamp (v lo hi dflt : Word) : Word :=
  if isNaN v then dflt else if lt v lo then lo else if lt hi v then hi else v

/-- The signal clamp of R15. -/
def sclamp (x c : Word) : Word :=
  if isNaN x then zero else if lt x (neg c) then neg c else if lt c x then c else x

/-- `f32(n)` (R17). -/
def ofInt (n : Int) : Word := pack (decide (n < 0)) (roundMag (n.natAbs * unitsPerOne) 1)

/-- The whole part of a finite pattern's absolute value. -/
def wholePart (x : Word) : Nat := absUnits x / unitsPerOne

/-- A finite pattern's value is a whole number. -/
def isWhole (x : Word) : Bool := isFinite x && decide (absUnits x % unitsPerOne = 0)

/-- `trunc(v)` (R18), applied to finite values; the sign of a zero result is the operand's (assumption 12). -/
def trunc (x : Word) : Word := pack (sign x) (roundMag (wholePart x * unitsPerOne) 1)

/-- `sgn(x)` (R22). -/
def sgn (x : Word) : Word :=
  if isNaN x || isZero x then zero else if sign x then neg one else one

/-- `rnd(x)` (R19): the nearest whole number, halves away from zero, with the sign of x; rnd of a zero is +0.0, because
sgn of a zero is. -/
def rnd (x : Word) : Word :=
  if isNaN x then nanResult .rnd x x
  else if isInf x then x
  else if isZero x then zero
  else pack (sign x) (roundMag ((absUnits x + unitsPerOne / 2) / unitsPerOne * unitsPerOne) 1)

/-- `quant(x, b)` (R20). -/
def quant (x : Word) (b : Nat) : Word := mul (rnd (mul x (pow2 b))) (pow2 (-b))

/-- In [0, 1). -/
def inUnit (x : Word) : Bool := le zero x && lt x one

/-- `frac(x)` for finite x ≥ 0, computed exactly (R21). An infinite or NaN x propagates by the binary32 rules of `x − floor(x)`
to a NaN (93 U17, 60_exceptions.md R285, assumption 4). For finite x < 0 the spec gives no value: a free value of x in [0, 1)
(assumption 4). -/
def frac (x : Word) : Word :=
  if !isFinite x then nanResult .frac x x
  else if !sign x || isZero x then pack false (roundMag (absUnits x % unitsPerOne) 1)
  else if inUnit (Config.fracOpen x) then Config.fracOpen x else zero

end Sys2Proof.Machine.F32
end

