-- ==== Sys2Proof/Machine/Numerics.lean ====
section
/-! DEFINITION. The numerics profile NUM (00_scope.md R16): the OPEN functions of Config with the named properties P1 to
P5 imposed, so that each holds whatever the OPEN functions are, and every profile that has them is reached (assumption 2). -/

namespace Sys2Proof.Machine.Num

open Sys2Proof.Machine.F32

/-- P5: the NaN a NUM function gives for a NaN argument, with the payload of the OPEN function's answer where that is a NaN. -/
def nanOr (op : Config.NanSource) (raw x : Word) : Word := if isNaN raw then raw else nanResult op x x

/-- NUM_SIN. P3: the sine of a zero is zero, +0.0 for +0.0 (assumption 13). -/
def sin (x : Word) : Word :=
  if isNaN x then nanOr .sin (Config.rawSin x) x
  else if isZero x then pack (sign x && sign (Config.rawSin x)) 0
  else Config.rawSin x

/-- NUM_TANH of a non-negative, non-NaN argument. P3 and P4: 0 at 0, 1 at infinity, magnitude at most 1 elsewhere. -/
def tanhMag (x : Word) : Word :=
  if isZero x then zero
  else if isInf x then one
  else if isNaN (Config.rawTanh x) || lt one (abs (Config.rawTanh x)) then one
  else Config.rawTanh x

/-- NUM_TANH. P4: an odd function. -/
def tanh (x : Word) : Word :=
  if isNaN x then nanOr .tanh (Config.rawTanh x) x
  else if sign x then neg (tanhMag (abs x)) else tanhMag x

/-- NUM_EXP. P3: 1 at a zero of either sign (assumption 13). -/
def exp (x : Word) : Word :=
  if isNaN x then nanOr .exp (Config.rawExp x) x
  else if isZero x then one
  else Config.rawExp x

/-- NUM_LOG10. -/
def log10 (x : Word) : Word :=
  if isNaN x then nanOr .log10 (Config.rawLog10 x) x else Config.rawLog10 x

/-- NUM_POW10. P2: 1 at a zero of either sign (assumption 13). -/
def pow10 (x : Word) : Word :=
  if isNaN x then nanOr .pow10 (Config.rawPow10 x) x
  else if isZero x then one
  else Config.rawPow10 x

/-- The whole number a pattern holds, if it is one in [-126, 127]. A zero of either sign holds 0: that P1's k = 0 covers -0.0 is
the model's reading (DEDUCED, assumption 13). -/
def exponentOf (x : Word) : Option Int :=
  let k : Int := if sign x then -(wholePart x : Int) else wholePart x
  if isWhole x && decide (-126 ≤ k) && decide (k ≤ 127) then some k else none

/-- NUM_EXP2. P1: exactly 2^k at every whole k in [-126, 127], and so 1 at a zero of either sign (assumption 13). -/
def exp2 (x : Word) : Word :=
  if isNaN x then nanOr .exp2 (Config.rawExp2 x) x
  else match exponentOf x with
    | some k => pow2 k
    | none => Config.rawExp2 x

end Sys2Proof.Machine.Num
end

