-- ==== Sys2Proof/Syntax.lean ====
section
/-! DEFINITION. The commands of 30_encoding.md R93, one constructor per row of the opcode table, the command triple
of R90 that spells one, and the error codes of 60_exceptions.md R283. -/

namespace Sys2Proof

/-- A command triple (R90): the word written to CMD and the values of ARG_I and ARG_F at that write. -/
structure Command where
  word : Word
  argI : Word
  argF : Word
  deriving DecidableEq, Repr

/-- The commands with their operands as R94 assembles them. `slot` is the SLOT field, an unsigned number 0..255
(R91); integers are s32 of ARG_I; a `Word` operand is ARG_F's binary32 pattern. The clamps of R94 belong to the meanings,
because R90 latches the operands unclamped. -/
inductive Instr
  /-- PARAM_SET (R114): store a parameter of the instrument in a slot. -/
  | paramSet (slot : Nat) (id : Int) (value : Word)
  /-- NOTE_ON (R115). -/
  | noteOn (slot : Nat) (note : Int) (velocity : Word)
  /-- NOTE_OFF (R116). -/
  | noteOff (slot : Nat) (note : Int)
  /-- RESET (R117): zero an instrument's history, keep its parameters. -/
  | reset (slot : Nat)
  /-- REGISTER (R118): `kind` is ARG_I[7:0] and `poly` is ARG_I[15:8], both as written. -/
  | register (slot : Nat) (kind : Nat) (poly : Nat)
  /-- REMOVE (R119). -/
  | remove (slot : Nat)
  /-- PARAM_GET (R120). -/
  | paramGet (slot : Nat) (id : Int)
  /-- SET_ENABLE (R121): `en` is ARG_I[0]. -/
  | setEnable (slot : Nat) (en : Bool)
  /-- INIT (R122). -/
  | init (rate : Word)
  /-- RENDER (R123). -/
  | render (frames : Int)
  /-- TEARDOWN (R124). -/
  | teardown
  /-- SET_MASTER_VOL (R125). -/
  | setMasterVol (volume : Word)
  deriving DecidableEq, Repr

/-- The causes an error is raised with (R283). Codes 6 to 15 are never written, so they have no name. -/
inductive ErrCode
  /-- Code 1: OP is not a defined opcode. -/
  | undefOp
  /-- Code 2: CMD[31:16] is not zero. -/
  | rsvdBits
  /-- Code 3: an engine opcode with a SLOT other than 0. -/
  | engineSlot
  /-- Code 4: the byte offset of an access is not a multiple of 4. -/
  | busAlign
  /-- Code 5: an access of a width other than 32 bits, or with only some byte lanes. -/
  | busSize
  deriving DecidableEq, Repr

end Sys2Proof
end

