-- ==== Sys2Proof/Machine/State.lean ====
section
/-! DEFINITION. The machine's state, all of it plain data (10_state.md), its value after power-on reset (R60, R300), and
the reasons a step can stop. -/

namespace Sys2Proof.Machine

/-- The envelope states of R45. -/
inductive EnvState
  | idle | attack | decay | sustain | release
  deriving DecidableEq, Repr

/-- A voice record (R45). -/
structure Voice where
  /-- current MIDI note, 0..127 -/
  note : Nat
  /-- velocity, binary32 in [0, 1] -/
  vel : Word
  /-- the explicit active flag -/
  act : Bool
  /-- oscillator phase accumulator, binary32 in [0, 1) -/
  phase : Word
  /-- one-pole filter output state -/
  fy : Word
  /-- envelope state -/
  es : EnvState
  /-- envelope level -/
  level : Word
  deriving DecidableEq, Repr

/-- A Synth instance (R44). POLY is the length of `voices`: voices at index POLY or above do not exist. -/
structure Synth where
  /-- P[0..7] -/
  p : Vector Word 8
  /-- voice[0..POLY-1] -/
  voices : List Voice
  deriving DecidableEq, Repr

/-- A DrumMachine instance (R46): DP for the ids 0, 1, 2, 3, 10, 11, 12 in this order, and the hidden state DS, whose
form is OPEN, coded as a number (assumption 6). -/
structure Drum where
  dp : Vector Word 7
  ds : Nat
  deriving DecidableEq, Repr

/-- The elements of R47 that each channel has its own of. -/
structure FxChannel where
  dcX1 : Word
  dcY1 : Word
  crPhase : Word
  crHeld : Word
  /-- decimator counter, 0..63 -/
  dmCnt : Nat
  dmHeld : Word
  compEnv : Word
  /-- true-peak history, oldest (index 0) to newest (index 3) -/
  tpH0 : Word
  tpH1 : Word
  tpH2 : Word
  tpH3 : Word
  nsErr : Word
  deriving DecidableEq, Repr

/-- The history and generator state of an FxProcessor (R47). -/
structure FxHistory where
  left : FxChannel
  right : FxChannel
  /-- true-peak envelope, shared by both channels -/
  tpEnv : Word
  /-- true-peak smoothed gain, shared by both channels -/
  tpG : Word
  /-- dither generator state -/
  prng : BitVec 31
  deriving DecidableEq, Repr

/-- An FxProcessor instance (R47). -/
structure Fx where
  /-- FP[0..28] -/
  fp : Vector Word 29
  hist : FxHistory
  deriving DecidableEq, Repr

/-- An instance record with its type: codes 0, 1 and 2 of R40. -/
inductive Instrument
  | synth (x : Synth)
  | drum (x : Drum)
  | fx (x : Fx)
  deriving DecidableEq, Repr

/-- An entry of the slot table (R40). An empty slot has present, enabled and type 0 and holds no instance; an occupied
one has present 1, and its type is its instance's. -/
inductive Slot
  | empty
  | occupied (enabled : Bool) (inst : Instrument)
  deriving DecidableEq, Repr

/-- The render counters of R43: the next frame RF and the frames to render RN. They are meaningful during RENDER only, so
the state holds them only then (assumption 10). -/
structure RenderCount where
  rf : Nat
  rn : Nat
  deriving DecidableEq, Repr

/-- The sample buffer's bytes by window offset, listed in strictly rising order. An offset that is not listed has not been
written since power-on (R42). -/
abbrev Memory := List Host.Cell

/-- What an access does at its offset (20_memory.md). -/
inductive AccessKind
  | read
  | write (value : Word)
  deriving DecidableEq, Repr

/-- One host access at a byte offset of the 64 KiB window (R70), with its width in bits and its byte lanes (R72). -/
structure Access where
  kind : AccessKind
  offset : BitVec 16
  width : Nat
  lanes : BitVec 4
  deriving DecidableEq, Repr

/-- One turn of the environment (assumption 1): the host makes an access, or lets the core take a step, or waits until
BUSY = 0 (`waitidle`, R103). -/
inductive Turn
  | access (a : Access)
  | core
  | waitIdle
  deriving DecidableEq, Repr

/-- The whole machine (10_state.md sections 2 to 5). -/
structure State where
  /-- STATUS.READY (R32) -/
  ready : Bool
  /-- STATUS.ERR (R32) -/
  err : Bool
  /-- STATUS.CAUSE (R32, R283) -/
  cause : BitVec 4
  /-- SAMPLE_RATE, the engine sample rate SR (R34) -/
  sr : Word
  /-- MASTER_VOL, the master volume MV (R38) -/
  mv : Word
  /-- ARG_I (R36) -/
  argI : Word
  /-- ARG_F (R36) -/
  argF : Word
  /-- RESULT_I (R37) -/
  resultI : Word
  /-- RESULT_F (R37) -/
  resultF : Word
  /-- LCMD, the latched command, held while STATUS.BUSY = 1 (R43): BUSY is 1 exactly when one is held. -/
  lcmd : Option Command
  /-- RF and RN (R43), during a RENDER. -/
  rend : Option RenderCount
  /-- the slot table (R40) -/
  slots : Vector Slot Config.maxInstruments
  /-- BUF (R42) -/
  mem : Memory
  /-- the environment's turns still to come; the model's own field (assumption 1) -/
  turns : List Turn
  /-- the value the last host read returned; the model's own field (assumption 11) -/
  readData : Word
  /-- how many fresh draws have been taken; the model's own field (assumption 7) -/
  draws : Nat
  deriving DecidableEq, Repr

/-- Why the machine stops. -/
inductive Fault
  /-- Raised by `Machine.hostAccess`: while BUSY = 1 the host made an access other than a read of ID or STATUS (R84, R287).
  SAFE: the spec leaves the hardware's behaviour open there, and the model proves nothing after it. -/
  | hostOverlap
  deriving DecidableEq, Repr

/-- Why the model gives an instruction no meaning. -/
inductive Refusal
  /-- Raised by `exec` for an instruction whose meaning is not written yet. SAFE: the model stops. -/
  | notModelled (mnemonic : String)
  deriving DecidableEq, Repr

/-- The state right after power-on reset (R60, R300): engine not initialised, no command, no error, every register 0, every slot
empty, no byte of BUF written. -/
def State.reset : State where
  ready := false
  err := false
  cause := 0#4
  sr := 0#32
  mv := 0#32
  argI := 0#32
  argF := 0#32
  resultI := 0#32
  resultF := 0#32
  lcmd := none
  rend := none
  slots := Vector.replicate Config.maxInstruments Slot.empty
  mem := []
  turns := []
  readData := 0#32
  draws := 0

end Sys2Proof.Machine
end

