-- ==== Sys2Proof/Machine/Flags.lean ====
section
/-! DEFINITION. The status and summary words software reads: STATUS (10_state.md R32), INSTR_COUNT (R33), SLOT_PRESENT and
SLOT_ENABLE (R39), SLOT_INFO (R41). binary32 operations set no flag (60_exceptions.md R285). -/

namespace Sys2Proof.Machine

/-- The code of an error cause (R283). -/
def errCode : ErrCode → BitVec 4
  | .undefOp => 1#4
  | .rsvdBits => 2#4
  | .engineSlot => 3#4
  | .busAlign => 4#4
  | .busSize => 5#4

/-- STATUS.BUSY: a command is latched and not yet finished (R32, R43). -/
def isBusy (s : State) : Bool := s.lcmd.isSome

/-- A flag as a number. -/
def bit (b : Bool) : Nat := if b then 1 else 0

/-- STATUS (R32): READY bit 0, BUSY bit 1, ERR bit 2, CAUSE bits [11:8], every other bit 0. -/
def statusWord (s : State) : Word :=
  BitVec.ofNat 32 (bit s.ready + 2 * bit (isBusy s) + 4 * bit s.err + 256 * s.cause.toNat)

/-- slot[k].present (R40). -/
def isPresent : Slot → Bool
  | .empty => false
  | .occupied _ _ => true

/-- slot[k].enabled (R40); 0 for an empty slot. -/
def isEnabled : Slot → Bool
  | .empty => false
  | .occupied en _ => en

/-- Active predicate (42_voice_engine.md R186). -/
def isActive (v : Voice) : Bool := v.act && v.es != .idle

/-- How many voices are active. -/
def activeCount (vs : List Voice) : Nat := (vs.filter isActive).length

/-- The type code of an instance (R40, 30_encoding.md R100). -/
def typeCode : Instrument → Nat
  | .synth _ => 0
  | .drum _ => 1
  | .fx _ => 2

/-- POLY of a Synth, 0 of the other types (R41, R44). -/
def polyOf : Instrument → Nat
  | .synth x => x.voices.length
  | .drum _ => 0
  | .fx _ => 0

/-- ACTIVE of a Synth, 0 of the other types (R41). -/
def activeOf : Instrument → Nat
  | .synth x => activeCount x.voices
  | .drum _ => 0
  | .fx _ => 0

/-- SLOT_INFO[k] (R41): TYPE [1:0], PRESENT [2], ENABLED [3], POLY [7:4], ACTIVE [11:8]. -/
def slotInfo : Slot → Word
  | .empty => 0#32
  | .occupied en inst =>
    BitVec.ofNat 32 (typeCode inst + 4 + 8 * bit en + 16 * polyOf inst + 256 * activeOf inst)

/-- INSTR_COUNT (R33). -/
def instrCount (s : State) : Word := BitVec.ofNat 32 (s.slots.toList.filter isPresent).length

/-- A word with bit k set where slot k satisfies a predicate (R39). -/
def slotBits (f : Slot → Bool) : List Slot → Nat
  | [] => 0
  | sl :: rest => bit (f sl) + 2 * slotBits f rest

/-- SLOT_PRESENT (R39). -/
def slotPresentWord (s : State) : Word := BitVec.ofNat 32 (slotBits isPresent s.slots.toList)

/-- SLOT_ENABLE (R39). -/
def slotEnableWord (s : State) : Word := BitVec.ofNat 32 (slotBits isEnabled s.slots.toList)

end Sys2Proof.Machine
end

