-- ==== Sys2Proof/Machine/Operands.lean ====
section
/-! DEFINITION. Operand assembly and clamps (30_encoding.md R94), and the parameter files with their clamps
(00_scope.md R14, R18; 10_state.md R48). -/

namespace Sys2Proof.Machine

open Sys2Proof.Machine.F32

/-- `note = min(127, max(0, s32(ai)))` (R94). -/
def noteOperand (n : Int) : Nat := min 127 n.toNat

/-- `vel = pclamp(af, 0.0, 1.0, 0.0)` (R94). -/
def velOperand (v : Word) : Word := pclamp v zero one zero

/-- `poly = min(8, max(1, ai[15:8]))` (R94). -/
def polyOperand (p : Nat) : Nat := min Config.maxPolyphony (max 1 p)

/-- `sr = pclamp(af, 8000.0, 192000.0, 44100.0)` (R94). -/
def rateOperand (v : Word) : Word := pclamp v Config.srMin Config.srMax Config.srNanDefault

/-- The frames a RENDER of a positive `n` renders, `min(n, MAX_FRAMES)` (R94, R123). -/
def framesOperand (n : Int) : Nat := min n.toNat Config.maxFrames

/-- `mv = pclamp(af, 0.0, 2.0, 1.0)` (R94). -/
def volumeOperand (v : Word) : Word := pclamp v zero two one

/-- The slot a SLOT field addresses; none for 16..255 (R91, R112). -/
def slotIndex (slot : Nat) : Option (Fin Config.maxInstruments) :=
  if h : slot < Config.maxInstruments then some ⟨slot, h⟩ else none

/-- The kinds of a parameter (43_mastering_fx.md R210). -/
inductive ParamKind
  | boolean | integer | real
  deriving DecidableEq, Repr

/-- A row of a parameter table: kind, range and default. -/
structure ParamSpec where
  kind : ParamKind
  lo : Word
  hi : Word
  dflt : Word
  deriving DecidableEq, Repr

/-- The value a parameter stores when `v` is written to it (00_scope.md R14, R18). -/
def paramStore (spec : ParamSpec) (v : Word) : Word :=
  match spec.kind with
  | .boolean => if le half v then one else zero
  | .integer => trunc (pclamp v spec.lo spec.hi spec.dflt)
  | .real => pclamp v spec.lo spec.hi spec.dflt

/-- The index of a parameter id in a file of `n` parameters with ids 0..n-1. -/
def paramIndex (n : Nat) (id : Int) : Option (Fin n) :=
  if h : 0 ≤ id ∧ id.toNat < n then some ⟨id.toNat, h.2⟩ else none

/-- The Synth parameter table (42_voice_engine.md R170): WAVEFORM, DETUNE, CUTOFF, RESONANCE, ATTACK, DECAY, SUSTAIN,
RELEASE. -/
def synthTable : List ParamSpec :=
  [ ⟨.integer, 0x00000000#32, 0x40400000#32, 0x3F800000#32⟩,  -- 0 WAVEFORM 0..3, 1
    ⟨.real, 0xC2C80000#32, 0x42C80000#32, 0x00000000#32⟩,     -- 1 DETUNE -100..100, 0
    ⟨.real, 0x41A00000#32, 0x469C4000#32, 0x469C4000#32⟩,     -- 2 CUTOFF 20..20000, 20000
    ⟨.real, 0x00000000#32, 0x3F800000#32, 0x00000000#32⟩,     -- 3 RESONANCE 0..1, 0
    ⟨.real, 0x38D1B717#32, 0x41F00000#32, 0x3C23D70A#32⟩,     -- 4 ATTACK 0.0001..30, 0.01
    ⟨.real, 0x38D1B717#32, 0x41F00000#32, 0x3DCCCCCD#32⟩,     -- 5 DECAY 0.0001..30, 0.1
    ⟨.real, 0x00000000#32, 0x3F800000#32, 0x3F333333#32⟩,     -- 6 SUSTAIN 0..1, 0.7
    ⟨.real, 0x38D1B717#32, 0x41F00000#32, 0x3E99999A#32⟩ ]    -- 7 RELEASE 0.0001..30, 0.3

/-- A row of the Synth table. -/
def synthSpec (i : Fin 8) : ParamSpec := synthTable.get ⟨i.val, i.isLt⟩

/-- The Synth's default parameters (R170). -/
def synthDefaults : Vector Word 8 := ⟨⟨synthTable.map ParamSpec.dflt⟩, rfl⟩

/-- The FxProcessor parameter table (43_mastering_fx.md R210). -/
def fxTable : List ParamSpec :=
  [ ⟨.boolean, 0x00000000#32, 0x3F800000#32, 0x3F800000#32⟩,  -- 0 DC_EN, 1
    ⟨.real, 0x3F800000#32, 0x43FA0000#32, 0x41A00000#32⟩,     -- 1 DC_CUTOFF 1..500, 20
    ⟨.boolean, 0x00000000#32, 0x3F800000#32, 0x00000000#32⟩,  -- 2 CRUSH_EN, 0
    ⟨.integer, 0x00000000#32, 0x3F800000#32, 0x00000000#32⟩,  -- 3 CRUSH_MODE 0..1, 0
    ⟨.integer, 0x3F800000#32, 0x41800000#32, 0x41800000#32⟩,  -- 4 CRUSH_BITS 1..16, 16
    ⟨.real, 0x00000000#32, 0x3F800000#32, 0x3F800000#32⟩,     -- 5 CRUSH_RATE 0..1, 1
    ⟨.integer, 0x3F800000#32, 0x42800000#32, 0x3F800000#32⟩,  -- 6 DECIM_N 1..64, 1
    ⟨.boolean, 0x00000000#32, 0x3F800000#32, 0x3F800000#32⟩,  -- 7 SC_EN, 1
    ⟨.real, 0x3F800000#32, 0x41000000#32, 0x3F800000#32⟩,     -- 8 SC_DRIVE 1..8, 1
    ⟨.boolean, 0x00000000#32, 0x3F800000#32, 0x3F800000#32⟩,  -- 9 TAPE_EN, 1
    ⟨.real, 0x00000000#32, 0x3F800000#32, 0x00000000#32⟩,     -- 10 TAPE_WARMTH 0..1, 0
    ⟨.real, 0x00000000#32, 0x3F800000#32, 0x00000000#32⟩,     -- 11 TAPE_DRIVE 0..1, 0
    ⟨.boolean, 0x00000000#32, 0x3F800000#32, 0x3F800000#32⟩,  -- 12 COMP_EN, 1
    ⟨.real, 0xC2700000#32, 0x00000000#32, 0x00000000#32⟩,     -- 13 COMP_THRESH -60..0, 0
    ⟨.real, 0x3F800000#32, 0x41A00000#32, 0x3F800000#32⟩,     -- 14 COMP_RATIO 1..20, 1
    ⟨.real, 0x38D1B717#32, 0x3F800000#32, 0x3C23D70A#32⟩,     -- 15 COMP_ATTACK 0.0001..1, 0.01
    ⟨.real, 0x3A83126F#32, 0x40A00000#32, 0x3DCCCCCD#32⟩,     -- 16 COMP_RELEASE 0.001..5, 0.1
    ⟨.real, 0x00000000#32, 0x41C00000#32, 0x00000000#32⟩,     -- 17 COMP_MAKEUP 0..24, 0
    ⟨.real, 0x00000000#32, 0x40000000#32, 0x3F800000#32⟩,     -- 18 WIDTH 0..2, 1
    ⟨.real, 0x00000000#32, 0x40000000#32, 0x3F800000#32⟩,     -- 19 FX_GAIN 0..2, 1
    ⟨.real, 0x3DCCCCCD#32, 0x3F800000#32, 0x3F7D70A4#32⟩,     -- 20 HL_CEIL 0.1..1, 0.99
    ⟨.boolean, 0x00000000#32, 0x3F800000#32, 0x00000000#32⟩,  -- 21 TP_EN, 0
    ⟨.real, 0x3DCCCCCD#32, 0x3F800000#32, 0x3F733333#32⟩,     -- 22 TP_CEIL 0.1..1, 0.95
    ⟨.real, 0x38D1B717#32, 0x3DCCCCCD#32, 0x3A83126F#32⟩,     -- 23 TP_ATTACK 0.0001..0.1, 0.001
    ⟨.real, 0x3A83126F#32, 0x3F800000#32, 0x3D4CCCCD#32⟩,     -- 24 TP_RELEASE 0.001..1, 0.05
    ⟨.boolean, 0x00000000#32, 0x3F800000#32, 0x00000000#32⟩,  -- 25 DITHER_EN, 0
    ⟨.integer, 0x00000000#32, 0x40000000#32, 0x00000000#32⟩,  -- 26 DITHER_TYPE 0..2, 0
    ⟨.integer, 0x41000000#32, 0x41C00000#32, 0x41800000#32⟩,  -- 27 DITHER_BITS 8..24, 16
    ⟨.boolean, 0x00000000#32, 0x3F800000#32, 0x00000000#32⟩ ] -- 28 DITHER_QUANT, 0

/-- A row of the FxProcessor table. -/
def fxSpec (i : Fin 29) : ParamSpec := fxTable.get ⟨i.val, i.isLt⟩

/-- The FxProcessor's default parameters (R210). -/
def fxDefaults : Vector Word 29 := ⟨⟨fxTable.map ParamSpec.dflt⟩, rfl⟩

/-- The place of a DrumMachine parameter id in DP; none for an id outside {0, 1, 2, 3, 10, 11, 12}
(41_render_mix.md R158). -/
def drumIndex (id : Int) : Option (Fin 7) :=
  if h : 0 ≤ id ∧ id.toNat < 4 then some ⟨id.toNat, by omega⟩
  else if h : 10 ≤ id ∧ id.toNat < 13 then some ⟨id.toNat - 6, by omega⟩
  else none

end Sys2Proof.Machine
end

