-- ==== Sys2Proof/Machine/Ops.lean ====
section
/-! DEFINITION. The named operations the meanings share: the sample buffer, raising and clearing an error, finishing a
command, and the common execution path of the commands (40_engine_commands.md R110 to R113). -/

namespace Sys2Proof.Machine

/-! ### The sample buffer -/

/-- The window offset of BUF[0] (20_memory.md R70). -/
def bufBase : Nat := 0x8000

/-- A window offset of BUF (R70). -/
def inBuf (off : Nat) : Bool := decide (bufBase ≤ off) && decide (off < bufBase + 8 * Config.maxFrames)

/-- The canonical form of the buffer's bytes: addresses strictly rising. An address nothing has written is not listed. -/
def Memory.wf : Memory → Bool
  | [] => true
  | [_] => true
  | a :: b :: rest => decide (a.1 < b.1) && Memory.wf (b :: rest)

/-- The byte last written at an offset; none if nothing has written there since power-on. -/
def lookupByte : Memory → Nat → Option Byte
  | [], _ => none
  | (a, b) :: rest, off => if a = off then some b else lookupByte rest off

/-- The byte a read of an offset finds: an offset nothing has written holds a free value (10_state.md R42, assumption 5). -/
def readByte (m : Memory) (off : Nat) : Byte := (lookupByte m off).getD (Config.bufPowerOn off)

/-- Store a byte, keeping the list in rising order. -/
def writeByte : Memory → Nat → Byte → Memory
  | [], off, v => [(off, v)]
  | (a, b) :: rest, off, v =>
    if off < a then (off, v) :: (a, b) :: rest
    else if off = a then (off, v) :: rest
    else (a, b) :: writeByte rest off v

/-- The 32-bit word at an offset, little-endian (R71). -/
def readWord (m : Memory) (off : Nat) : Word :=
  readByte m (off + 3) ++ readByte m (off + 2) ++ readByte m (off + 1) ++ readByte m off

/-- Store a 32-bit word, little-endian (R71). -/
def writeWord (m : Memory) (off : Nat) (v : Word) : Memory :=
  writeByte (writeByte (writeByte (writeByte m off (v.extractLsb' 0 8)) (off + 1) (v.extractLsb' 8 8))
    (off + 2) (v.extractLsb' 16 8)) (off + 3) (v.extractLsb' 24 8)

/-- The window offset of frame f: its left sample, its right sample 4 bytes above (R42). -/
def frameOffset (f : Nat) : Nat := bufBase + 8 * f

/-! ### Errors -/

/-- `raise Err(c)` (60_exceptions.md R282), the machine's one way to take an exception: ERR is set and CAUSE names the most
recent error. Nothing is saved, no mode changes and nothing is vectored (R280, R289). -/
def raiseErr (c : ErrCode) (s : State) : State := { s with err := true, cause := errCode c }

/-- What stands in for a return from an exception: a STATUS write with bit 2 = 1 clears ERR and CAUSE together
(10_state.md R32); any other STATUS write changes nothing. -/
def clearErr (v : Word) (s : State) : State :=
  if v.getLsbD 2 then { s with err := false, cause := 0#4 } else s

/-! ### The common path of commands -/

/-- The end of a command: RESULT_I is written and BUSY falls to 0 (R110, R113). -/
def finish (result : Word) (s : State) : State := { s with resultI := result, lcmd := none, rend := none }

/-- A command that finds nothing to act on (R98, R111, R112). -/
def noOp (s : State) : State := finish 0#32 s

/-- A command that acted on its target (R113). -/
def acted (s : State) : State := finish 1#32 s

/-- R111: a command other than INIT does nothing but write RESULT_I = 0 while READY = 0. -/
def whenReady (s : State) (run : State → State) : State := if s.ready then run s else noOp s

/-- R112, first line: the slot a slot command addresses; a SLOT of 16 or more is a no-op. -/
def withSlot (slot : Nat) (s : State) (run : Fin Config.maxInstruments → State → State) : State :=
  whenReady s fun s =>
    match slotIndex slot with
    | none => noOp s
    | some k => run k s

/-- R112: a slot command acts on the instrument of a present slot, given with its `enabled` flag; an empty slot is a no-op. -/
def withInstrument (slot : Nat) (s : State)
    (run : Fin Config.maxInstruments → Bool → Instrument → State → State) : State :=
  withSlot slot s fun k s =>
    match s.slots[k] with
    | .empty => noOp s
    | .occupied en inst => run k en inst s

/-- Store a slot's entry. -/
def putSlot (k : Fin Config.maxInstruments) (sl : Slot) (s : State) : State :=
  { s with slots := s.slots.set k sl }

/-- Every slot empty (R122, R124). -/
def noSlots : Vector Slot Config.maxInstruments := Vector.replicate Config.maxInstruments Slot.empty

/-! ### The platform -/

/-- The window offset a platform bus address reaches (R70); none outside the window, which belongs to the platform. -/
def offsetOfBus (address : Nat) : Option (BitVec 16) :=
  if Config.base ≤ address ∧ address < Config.base + 65536 then some (BitVec.ofNat 16 (address - Config.base)) else none

end Sys2Proof.Machine
end

