-- ==== Sys2Proof/Machine/SynthEngine.lean ====
section
/-! DEFINITION. The polyphonic voice engine (42_voice_engine.md R170 to R196): oscillator, filter, envelope, voice, allocation,
mixer, and the Synth's parameters and life cycle. -/

namespace Sys2Proof.Machine

open Sys2Proof.Machine.F32

/-! ### Oscillator -/

/-- `freq(i)` (R173), from the voice's note and DETUNE = P[1]. -/
def voiceFreq (p : Vector Word 8) (note : Nat) : Word :=
  mul (mul 0x43DC0000#32 (Num.exp2 (div (sub (ofInt note) 0x428A0000#32) 0x41400000#32)))
    (Num.exp2 (div p[1] 0x44960000#32))

/-- `inc(i)` (R173). -/
def voiceInc (sr : Word) (p : Vector Word 8) (note : Nat) : Word := div (voiceFreq p note) sr

/-- TWO_PI (00_scope.md R11). -/
abbrev twoPi : Word := 0x40C90FDB#32

/-- Waveform output at a phase (R174): 0 sine, 1 sawtooth, 2 square, 3 triangle. WAVEFORM is never above 3 (R170). -/
def wave (w : Nat) (phase : Word) : Word :=
  match w with
  | 0 => Num.sin (mul twoPi phase)
  | 1 => sub (mul two phase) one
  | 2 => if lt phase half then one else neg one
  | _ => sub (mul four (abs (sub phase half))) one

/-- Phase advance (R175). A sum that an admitted NUM makes infinite or NaN leaves a NaN (93 U17, assumption 4). -/
def advancePhase (sr : Word) (p : Vector Word 8) (note : Nat) (phase : Word) : Word :=
  frac (add phase (voiceInc sr p note))

/-! ### Filter -/

/-- `alpha` (R176), from SR and CUTOFF = P[2]. -/
def filterAlpha (sr : Word) (p : Vector Word 8) : Word :=
  let dt := div one sr
  let rc := div one (mul twoPi p[2])
  div dt (add rc dt)

/-- The filter state after an input x (R177, first line). -/
def filterState (alpha fy x : Word) : Word := add fy (mul alpha (sub x fy))

/-- The filter output from the updated state (R177, second line), with RESONANCE = P[3]; 0.3 is 0x3E99999A. R177's
example prints 0x3F266667 where this line, rounded once to even as R12 has it, and 95 V67 give 0x3F266666 (assumption 25). -/
def filterOut (p : Vector Word 8) (fy x : Word) : Word :=
  add fy (mul (mul p[3] 0x3E99999A#32) (sub x fy))

/-! ### Envelope -/

/-- Attack arm (R179): the new state and level. R197's bound on the number of its frames does not follow from this arm in binary32
for every A and SR, and the arm is what the model follows (assumption 23). -/
def attackStep (coeff a level : Word) : EnvState × Word :=
  let l := add level (div coeff a)
  if le one l then (.decay, one) else (.attack, l)

/-- Decay arm (R180). Where its decrement rounds away at the current level, Decay does not end, and R197's settling at S does not
come: the arm is what the model follows (assumption 23). The level it leaves is not clamped and may be below 0 for a small S, where
10_state.md R45 quotes [0, 1] (assumption 29). -/
def decayStep (coeff d s level : Word) : EnvState × Word :=
  let l := sub level (div (mul (sub one s) coeff) d)
  if le l s then (.sustain, l) else (.decay, l)

/-- Release arm (R182). Where its decrement rounds away at the current level, Release does not end for some S > 0 too, beside the
S = 0 that R182 and 93 U16 name: the arm, and not R198's count, is what the model follows (assumption 24). A voice released
from Sustain is at level 0 with S = 0 only if a Sustain step has run since S became 0 (assumption 29). -/
def releaseStep (coeff s r level : Word) : EnvState × Word :=
  let l := sub level (div (mul s coeff) r)
  if le l zero then (.idle, zero) else (.release, l)

/-- One envelope step (R178): the arm of the current state, with A, D, S, R = P[4..7]. -/
def envStep (sr : Word) (p : Vector Word 8) (es : EnvState) (level : Word) : EnvState × Word :=
  let coeff := div one sr
  match es with
  | .idle => (.idle, level)
  | .attack => attackStep coeff p[4] level
  | .decay => decayStep coeff p[5] p[6] level
  | .sustain => (.sustain, p[6])
  | .release => releaseStep coeff p[6] p[7] level

/-! ### Voice -/

/-- One frame of an active voice (R187): oscillator, phase advance, filter, envelope, in this order; the output uses the
phase before the advance and the level after the envelope step. R187's remarks on an output at level 0 and on a first sample
hold for a finite filter output and a velocity above 0 (assumption 29). -/
def activeVoiceStep (sr : Word) (p : Vector Word 8) (v : Voice) : Voice × Word :=
  let x := wave (wholePart p[0]) v.phase
  let fy := filterState (filterAlpha sr p) v.fy x
  let env := envStep sr p v.es v.level
  let v' : Voice :=
    { v with phase := advancePhase sr p v.note v.phase, fy := fy, es := env.1, level := env.2,
             act := v.act && env.1 != .idle }
  (v', mul (mul (filterOut p fy x) env.2) v.vel)

/-- VoiceStep(i) (R187, R188): an inactive voice outputs +0.0 and does not advance. -/
def voiceStep (sr : Word) (p : Vector Word 8) (v : Voice) : Voice × Word :=
  if isActive v then activeVoiceStep sr p v else (v, zero)

/-- VoiceNoteOn (R184, R189): the phase and the filter state are kept. -/
def voiceNoteOn (note : Nat) (vel : Word) (v : Voice) : Voice :=
  { v with note := note, vel := vel, act := true, level := zero, es := .attack }

/-- Envelope note-off (R185). -/
def voiceNoteOff (v : Voice) : Voice := if v.es = .idle then v else { v with es := .release }

/-- A voice's reset state (R194). -/
def freshVoice : Voice :=
  { note := 0, vel := zero, act := false, phase := zero, fy := zero, es := .idle, level := zero }

/-! ### Allocation and the Synth -/

/-- Alloc() (R190): the first inactive voice in pool order, voice 0 if there is none. -/
def allocVoice (vs : List Voice) : Nat :=
  match vs.findIdx? (fun v => !isActive v) with
  | some i => i
  | none => 0

/-- SynthNoteOn (R191). With every voice active a sounding note on voice 0 is restarted: Alloc() is what the model follows
(assumption 29). -/
def synthNoteOn (note : Nat) (vel : Word) (x : Synth) : Synth :=
  { x with voices := x.voices.modify (allocVoice x.voices) (voiceNoteOn note vel) }

/-- SynthNoteOff (R192): every active voice that holds the note. -/
def synthNoteOff (note : Nat) (x : Synth) : Synth :=
  { x with voices := x.voices.map fun v => if isActive v && v.note == note then voiceNoteOff v else v }

/-- The voices of a pool after one frame, and their sum added in pool order to what came before (R193). -/
def mixVoices (sr : Word) (p : Vector Word 8) : List Voice → Word → List Voice × Word
  | [], sum => ([], sum)
  | v :: vs, sum =>
    let r := voiceStep sr p v
    let rest := mixVoices sr p vs (add sum r.2)
    (r.1 :: rest.1, rest.2)

/-- A stereo frame (20_memory.md R78). -/
structure Frame where
  l : Word
  r : Word
  deriving DecidableEq, Repr

/-- A Synth or DrumMachine adds its contribution to the frame (41_render_mix.md R152). -/
def addToFrame (fr : Frame) (yl yr : Word) : Frame := ⟨add fr.l yl, add fr.r yr⟩

/-- SynthRenderFrame (R193): the mono sum from +0.0 is added to both channels. -/
def synthFrame (sr : Word) (x : Synth) (fr : Frame) : Synth × Frame :=
  let m := mixVoices sr x.p x.voices zero
  ({ x with voices := m.1 }, addToFrame fr m.2 m.2)

/-- SynthReset (R194): parameters and POLY are kept. -/
def synthReset (x : Synth) : Synth := { x with voices := x.voices.map fun _ => freshVoice }

/-- NewSynth (R195). -/
def newSynth (poly : Nat) : Synth := { p := synthDefaults, voices := List.replicate poly freshVoice }

/-- SynthParamSet (R171); none where the id is none of 0..7. -/
def synthParamSet (id : Int) (v : Word) (x : Synth) : Option Synth :=
  (paramIndex 8 id).map fun (i : Fin 8) => { x with p := x.p.set i (paramStore (synthSpec i) v) }

/-- SynthParamGet (R172). -/
def synthParamGet (id : Int) (x : Synth) : Option Word := (paramIndex 8 id).map fun (i : Fin 8) => x.p[i]

end Sys2Proof.Machine
end

