-- ==== Sys2Proof/Machine/DrumMachine.lean ====
section
/-! DEFINITION. The DrumMachine (41_render_mix.md R157 to R160), whose synthesis is the OPEN parameter DRUM_MODEL. -/

namespace Sys2Proof.Machine

/-- NewDrum (R157): DP and DS are unspecified, the free values of draw number `draw` (93 U4, assumption 7). -/
def newDrum (draw : Nat) : Drum := { dp := Config.drumInitParams draw, ds := Config.drumInitState draw }

/-- DrumRenderFrame (R157). -/
def drumFrame (sr : Word) (x : Drum) (fr : Frame) : Drum × Frame :=
  let y := Config.drumRender x.ds x.dp sr
  ({ x with ds := y.2.2 }, addToFrame fr y.1 y.2.1)

/-- DrumParamSet (R158): stored unclamped; none for an id outside {0, 1, 2, 3, 10, 11, 12}. -/
def drumParamSet (id : Int) (v : Word) (x : Drum) : Option Drum :=
  (drumIndex id).map fun (i : Fin 7) => { x with dp := x.dp.set i v }

/-- DrumParamGet (R158). -/
def drumParamGet (id : Int) (x : Drum) : Option Word := (drumIndex id).map fun (i : Fin 7) => x.dp[i]

/-- NOTE_ON to a DrumMachine (R159). -/
def drumNoteOn (note : Nat) (vel : Word) (x : Drum) : Drum := { x with ds := Config.drumNoteOn x.ds note vel }

/-- NOTE_OFF to a DrumMachine (R159). -/
def drumNoteOff (note : Nat) (x : Drum) : Drum := { x with ds := Config.drumNoteOff x.ds note }

/-- RESET of a DrumMachine (R160): DP is kept. -/
def drumReset (x : Drum) : Drum := { x with ds := Config.drumReset x.ds }

end Sys2Proof.Machine
end

