-- ==== Sys2Proof/Machine/FxStages.lean ====
section
/-! DEFINITION. The per-sample stages of the FxProcessor: 43_mastering_fx.md R214 to R224 and 44_truepeak_lofi_dither.md R250 to
R266. `p` is FP[0..28] and `sr` the engine sample rate; every coefficient is computed when used (R211). -/

namespace Sys2Proof.Machine

open Sys2Proof.Machine.F32

/-- A parameter file of the FxProcessor (R210). -/
abbrev FxParams := Vector Word 29

/-- A boolean parameter is on (R14, R212: `FP[X_EN] = 1`). -/
def isOn (w : Word) : Bool := w == one

/-- The two channels (43_mastering_fx.md, head): c = 0 left, c = 1 right. -/
inductive Channel
  | left | right
  deriving DecidableEq, Repr

/-- The per-channel elements of a channel. -/
def channelOf (h : FxHistory) : Channel → FxChannel
  | .left => h.left
  | .right => h.right

/-- Store the per-channel elements of a channel. -/
def putChannel (h : FxHistory) : Channel → FxChannel → FxHistory
  | .left, ch => { h with left := ch }
  | .right, ch => { h with right := ch }

/-! ### DC blocker -/

/-- DcCoeff() (R215): DC_CUTOFF = FP[1]; 0.9 is 0x3F666666 and 0.9999 is 0x3F7FF972. -/
def dcCoeff (sr : Word) (p : FxParams) : Word :=
  pclamp (sub one (div (mul twoPi p[1]) sr)) 0x3F666666#32 0x3F7FF972#32 0x3F7FF972#32

/-- DcStep(c, x) (R214). That a NaN from here ends as +0.0 holds where no later stage answers a number for it (assumption 29). -/
def dcStep (sr : Word) (p : FxParams) (ch : FxChannel) (x : Word) : FxChannel × Word :=
  let y := add (sub x ch.dcX1) (mul (dcCoeff sr p) ch.dcY1)
  ({ ch with dcX1 := x, dcY1 := y }, y)

/-! ### Bitcrusher and decimator -/

/-- BitCrush(c, x) (44 R257): CRUSH_BITS = FP[4], CRUSH_RATE = FP[5]. The sum may round to 2.0 and leave a phase of 1.0, so that a
rate of 0.0 set next captures once, where R257 says it never captures (assumption 28). R269's levels hold from the first
capture at a depth on, for inputs that the depth's scaling does not overflow (assumption 29). -/
def bitCrush (p : FxParams) (ch : FxChannel) (x : Word) : FxChannel × Word :=
  let b := wholePart p[4]
  let ph := add ch.crPhase p[5]
  if le one ph then
    let held := if b = 16 then x else quant x b
    ({ ch with crPhase := sub ph one, crHeld := held }, held)
  else ({ ch with crPhase := ph }, ch.crHeld)

/-- Decimate(c, x) (44 R259): DECIM_N = FP[6]. After a change to N = 1 the first sample may still be held (assumption 29). -/
def decimate (p : FxParams) (ch : FxChannel) (x : Word) : FxChannel × Word :=
  let held := if ch.dmCnt = 0 then x else ch.dmHeld
  ({ ch with dmHeld := held, dmCnt := (ch.dmCnt + 1) % wholePart p[6] }, held)

/-- Crush(c, x) (44 R258): CRUSH_MODE = FP[3], 0 the bitcrusher and 1 the decimator. -/
def crush (p : FxParams) (ch : FxChannel) (x : Word) : FxChannel × Word :=
  if wholePart p[3] = 0 then bitCrush p ch x else decimate p ch x

/-! ### Soft clipper and tape -/

/-- SoftClip(x) (R216): SC_DRIVE = FP[8]; 0.001 is 0x3A83126F. R216's bound is 1 ⊘ d, rounded (assumption 29). -/
def softClip (p : FxParams) (x : Word) : Word :=
  if lt (sub p[8] one) 0x3A83126F#32 then x else div (Num.tanh (mul x p[8])) p[8]

/-- Tape(x) (R217): TAPE_WARMTH = FP[10], TAPE_DRIVE = FP[11]. At w = 0 and dr = 0 it returns x only where NUM_EXP gives a finite value:
`wet ⊗ 0` is a NaN otherwise (assumption 26). -/
def tape (p : FxParams) (x : Word) : Word :=
  let amount := add two (mul three p[10])
  let wet := mul (sgn x) (sub one (Num.exp (neg (mul (abs x) amount))))
  let m := add (mul x (sub one p[10])) (mul wet p[10])
  if lt zero p[11] then Num.tanh (mul m (add one p[11])) else m

/-! ### Compressor -/

/-- `1 ⊘ ((time ⊗ rate) ⊕ 1)` (R218, 44 R252). -/
def smoothCoeff (time rate : Word) : Word := div one (add (mul time rate) one)

/-- A follower moves toward its input by the attack coefficient when the input is above it, by the release coefficient
otherwise (R219, 44 R253). -/
def follow (ca cr env a : Word) : Word :=
  if lt env a then add env (mul ca (sub a env)) else add env (mul cr (sub a env))

/-- The compressor's detector (R218, R219): COMP_ATTACK = FP[15], COMP_RELEASE = FP[16]. -/
def compEnvStep (sr : Word) (p : FxParams) (env x : Word) : Word :=
  follow (smoothCoeff p[15] sr) (smoothCoeff p[16] sr) env (abs x)

/-- The compressor's gain from its envelope (R220): COMP_THRESH = FP[13], COMP_RATIO = FP[14], COMP_MAKEUP = FP[17]; 20 is
0x41A00000 and EPS is 0x2EDBE6FF. At ratio 1 the gain is that of the makeup alone for a finite db only: NUM may make db infinite, and
`red` is then a NaN (assumption 27). -/
def compGain (p : FxParams) (env : Word) : Word :=
  let db := mul 0x41A00000#32 (Num.log10 (add (abs env) 0x2EDBE6FF#32))
  let red := if lt p[13] db then mul (sub db p[13]) (sub one (div one p[14])) else zero
  Num.pow10 (div (sub p[17] red) 0x41A00000#32)

/-- Comp(c, x) (R220): the gain of the envelope after this sample's update. -/
def comp (sr : Word) (p : FxParams) (ch : FxChannel) (x : Word) : FxChannel × Word :=
  let env := compEnvStep sr p ch.compEnv x
  ({ ch with compEnv := env }, mul x (compGain p env))

/-! ### Width, gain and limiters -/

/-- Width(L, R) (R221): WIDTH = FP[18], an exact bypass at 1.0. -/
def width (p : FxParams) (fr : Frame) : Frame :=
  if eq p[18] one then fr
  else
    let mid := mul (add fr.l fr.r) half
    let side := mul (mul (sub fr.l fr.r) half) p[18]
    ⟨add mid side, sub mid side⟩

/-- FX gain (R222): FX_GAIN = FP[19]. -/
def fxGain (p : FxParams) (fr : Frame) : Frame := ⟨mul fr.l p[19], mul fr.r p[19]⟩

/-- The simple limit and the hard limiter (R223, R224): HL_CEIL = FP[20]. -/
def limit (p : FxParams) (fr : Frame) : Frame := ⟨sclamp fr.l p[20], sclamp fr.r p[20]⟩

/-! ### True-peak limiter -/

/-- The history shift of R250. -/
def tpShift (ch : FxChannel) (x : Word) : FxChannel :=
  { ch with tpH0 := ch.tpH1, tpH1 := ch.tpH2, tpH2 := ch.tpH3, tpH3 := x }

/-- Herm(t) over a history (R251), each operation in the order written. Herm(0) = y1 where no operation overflows, which holds in
every run (assumption 29). -/
def herm (y0 y1 y2 y3 t : Word) : Word :=
  let c0 := y1
  let c1 := mul half (sub y2 y0)
  let c2 := sub (add (sub y0 (mul twoAndHalf y1)) (mul two y2)) (mul half y3)
  let c3 := add (mul half (sub y3 y0)) (mul oneAndHalf (sub y1 y2))
  add (mul (add (mul (add (mul c3 t) c2) t) c1) t) c0

/-- TP_ATTACK's coefficient at the oversampled rate (R252): FP[23]. -/
def tpAttack (sr : Word) (p : FxParams) : Word := smoothCoeff p[23] (mul four sr)

/-- TP_RELEASE's coefficient at the oversampled rate (R252): FP[24]. -/
def tpRelease (sr : Word) (p : FxParams) : Word := smoothCoeff p[24] (mul four sr)

/-- The instantaneous gain of an envelope (R253): TP_CEIL = FP[22]. -/
def tpTarget (p : FxParams) (env : Word) : Word := if lt p[22] env then div p[22] env else one

/-- Gain smoothing (R254): a falling gain moves by the attack coefficient. -/
def tpSmooth (tca tcr g target : Word) : Word :=
  if lt target g then add g (mul tca (sub target g)) else add g (mul tcr (sub target g))

/-- One sub-sample (R253, R254): the new shared envelope and gain, and the sub-sample times the smoothed gain. -/
def tpSub (sr : Word) (p : FxParams) (env g s : Word) : Word × Word × Word :=
  let tca := tpAttack sr p
  let tcr := tpRelease sr p
  let env' := follow tca tcr env (abs s)
  let g' := tpSmooth tca tcr g (tpTarget p env')
  (env', g', mul s g')

/-- The sub-samples of one input at the offsets `ts`, in order, added to `acc` (R255). -/
def tpSubs (sr : Word) (p : FxParams) (ch : FxChannel) : List Word → Word → Word → Word → Word × Word × Word
  | [], env, g, acc => (env, g, acc)
  | t :: ts, env, g, acc =>
    let r := tpSub sr p env g (herm ch.tpH0 ch.tpH1 ch.tpH2 ch.tpH3 t)
    tpSubs sr p ch ts r.1 r.2.1 (add acc r.2.2)

/-- The fractional offsets of R251, in increasing order. -/
def tpOffsets : List Word := [zero, quarter, half, threeQuarters]

/-- TpStep(c, x) (R255), over the envelope and gain both channels share (R256). -/
def tpStep (sr : Word) (p : FxParams) (c : Channel) (h : FxHistory) (x : Word) : FxHistory × Word :=
  let ch := tpShift (channelOf h c) x
  let r := tpSubs sr p ch tpOffsets h.tpEnv h.tpG zero
  ({ putChannel h c ch with tpEnv := r.1, tpG := r.2.1 }, mul r.2.2 quarter)

/-! ### Random generator and dither -/

/-- The generator's next state (44 R260): exact arithmetic modulo 2^31. -/
def prngNext (s : BitVec 31) : BitVec 31 := s * 1103515245#31 + 12345#31

/-- The value of a generator state (R260, R261): `f32(prng >> 7) ⊗ 2^-24`. -/
def prngValue (s : BitVec 31) : Word := mul (ofInt (s.toNat / 2 ^ 7 : Nat)) (pow2 (-24))

/-- The offset of one TPDF pair (44 R263), for a quantization step. -/
def tpdfOffset (step r1 r2 : Word) : Word := mul (sub r1 r2) (mul step half)

/-- What the TPDF and rectangular ditherers return of the dithered sample (R263, R264): DITHER_QUANT = FP[28]. -/
def maybeQuant (p : FxParams) (b : Nat) (v : Word) : Word := if isOn p[28] then quant v b else v

/-- TPDF dither (R263): two draws. -/
def tpdf (p : FxParams) (b : Nat) (h : FxHistory) (x : Word) : FxHistory × Word :=
  let s1 := prngNext h.prng
  let s2 := prngNext s1
  ({ h with prng := s2 }, maybeQuant p b (add x (tpdfOffset (pow2 (-b)) (prngValue s1) (prngValue s2))))

/-- Rectangular dither (R264): one draw. -/
def rectangular (p : FxParams) (b : Nat) (h : FxHistory) (x : Word) : FxHistory × Word :=
  let s1 := prngNext h.prng
  ({ h with prng := s1 }, maybeQuant p b (add x (mul (sub (prngValue s1) half) (pow2 (-b)))))

/-- Noise-shaped dither (R265): two draws and the channel's error feedback; it always quantizes. R265's range of the error holds where no
operation overflows, which holds in every run (assumption 29). -/
def noiseShaped (b : Nat) (c : Channel) (h : FxHistory) (x : Word) : FxHistory × Word :=
  let s1 := prngNext h.prng
  let s2 := prngNext s1
  let d := tpdfOffset (pow2 (-b)) (prngValue s1) (prngValue s2)
  let v := sub (add x d) (mul half (channelOf h c).nsErr)
  let q := quant v b
  ({ putChannel h c { channelOf h c with nsErr := sub q v } with prng := s2 }, q)

/-- Dither(c, x) (R262): DITHER_TYPE = FP[26], DITHER_BITS = FP[27]. DITHER_TYPE is never above 2 (R210). -/
def dither (p : FxParams) (c : Channel) (h : FxHistory) (x : Word) : FxHistory × Word :=
  let b := wholePart p[27]
  match wholePart p[26] with
  | 0 => tpdf p b h x
  | 1 => rectangular p b h x
  | _ => noiseShaped b c h x

end Sys2Proof.Machine
end

