-- ==== Sys2Proof/Machine/FxProcessor.lean ====
section
/-! DEFINITION. The FxProcessor: its pipeline (43_mastering_fx.md R212), parameters (R211) and life cycle (R225, R226). -/

namespace Sys2Proof.Machine

open Sys2Proof.Machine.F32

/-- A stage with per-channel state, left then right, if it is enabled; a disabled stage's state does not advance (R212). -/
def channelStage (enabled : Bool) (stage : FxChannel → Word → FxChannel × Word) (r : FxHistory × Frame) :
    FxHistory × Frame :=
  if enabled then
    let a := stage r.1.left r.2.l
    let b := stage r.1.right r.2.r
    ({ r.1 with left := a.1, right := b.1 }, ⟨a.2, b.2⟩)
  else r

/-- A stage with state the channels share, the left sample first, if it is enabled (R212, 44 R256, R266). -/
def sharedStage (enabled : Bool) (stage : Channel → FxHistory → Word → FxHistory × Word) (r : FxHistory × Frame) :
    FxHistory × Frame :=
  if enabled then
    let a := stage .left r.1 r.2.l
    let b := stage .right a.1 r.2.r
    (b.1, ⟨a.2, b.2⟩)
  else r

/-- A stateless stage, the same on each channel, if it is enabled (R212). -/
def plainStage (enabled : Bool) (stage : Word → Word) (r : FxHistory × Frame) : FxHistory × Frame :=
  if enabled then (r.1, ⟨stage r.2.l, stage r.2.r⟩) else r

/-- A stage over both channels with no enable of its own (R212). -/
def frameStage (stage : Frame → Frame) (r : FxHistory × Frame) : FxHistory × Frame := (r.1, stage r.2)

/-- The pipeline of R212 on one frame, with the enables DC_EN = FP[0], CRUSH_EN = FP[2], SC_EN = FP[7], TAPE_EN = FP[9],
COMP_EN = FP[12], TP_EN = FP[21], DITHER_EN = FP[25]. -/
def fxPipeline (sr : Word) (p : FxParams) (h : FxHistory) (fr : Frame) : FxHistory × Frame :=
  let r := (h, fr)
  let r := channelStage (isOn p[0]) (dcStep sr p) r
  let r := channelStage (isOn p[2]) (crush p) r
  let r := plainStage (isOn p[7]) (softClip p) r
  let r := plainStage (isOn p[9]) (tape p) r
  let r := channelStage (isOn p[12]) (comp sr p) r
  let r := frameStage (width p) r
  let r := frameStage (fxGain p) r
  let r := frameStage (limit p) r
  let r := sharedStage (isOn p[21]) (tpStep sr p) r
  let r := sharedStage (isOn p[25]) (dither p) r
  frameStage (limit p) r

/-- FxRenderFrame (R212): the frame is processed in place. -/
def fxFrame (sr : Word) (x : Fx) (fr : Frame) : Fx × Frame :=
  let r := fxPipeline sr x.fp x.hist fr
  ({ x with hist := r.1 }, r.2)

/-- The reset values of a channel's elements (10_state.md R60). -/
def freshChannel : FxChannel :=
  { dcX1 := zero, dcY1 := zero, crPhase := zero, crHeld := zero, dmCnt := 0, dmHeld := zero, compEnv := zero,
    tpH0 := zero, tpH1 := zero, tpH2 := zero, tpH3 := zero, nsErr := zero }

/-- The reset values of an FxProcessor's history (10_state.md R60, R225). -/
def freshHistory : FxHistory :=
  { left := freshChannel, right := freshChannel, tpEnv := zero, tpG := one, prng := Config.prngSeed }

/-- FxReset (R225): FP is kept. -/
def fxReset (x : Fx) : Fx := { x with hist := freshHistory }

/-- NewFx (R226). -/
def newFx : Fx := { fp := fxDefaults, hist := freshHistory }

/-- FxParamSet (R211); none where the id is none of 0..28. -/
def fxParamSet (id : Int) (v : Word) (x : Fx) : Option Fx :=
  (paramIndex 29 id).map fun (i : Fin 29) => { x with fp := x.fp.set i (paramStore (fxSpec i) v) }

/-- FxParamGet (R211). -/
def fxParamGet (id : Int) (x : Fx) : Option Word := (paramIndex 29 id).map fun (i : Fin 29) => x.fp[i]

end Sys2Proof.Machine
end

