-- ==== Sys2Proof/Machine/Render.lean ====
section
/-! DEFINITION. The frame step of RENDER (41_render_mix.md R150 to R153). -/

namespace Sys2Proof.Machine

open Sys2Proof.Machine.F32

/-- One instrument's frame (R151, R152). -/
def instrumentFrame (sr : Word) (inst : Instrument) (fr : Frame) : Instrument × Frame :=
  match inst with
  | .synth x => let r := synthFrame sr x fr; (.synth r.1, r.2)
  | .drum x => let r := drumFrame sr x fr; (.drum r.1, r.2)
  | .fx x => let r := fxFrame sr x fr; (.fx r.1, r.2)

/-- One slot's frame (R151): an empty or disabled slot is skipped and does not change. -/
def slotFrame (sr : Word) (sl : Slot) (fr : Frame) : Slot × Frame :=
  match sl with
  | .empty => (.empty, fr)
  | .occupied false inst => (.occupied false inst, fr)
  | .occupied true inst => let r := instrumentFrame sr inst fr; (.occupied true r.1, r.2)

/-- Slot order: ascending index 0..15 (R151). -/
def slotOrder : List (Fin Config.maxInstruments) := [0, 1, 2, 3, 4, 5, 6, 7, 8, 9, 10, 11, 12, 13, 14, 15]

/-- The slots of a list visited in order, each on the frame the ones before it left (R151, R152). -/
def renderSlots (sr : Word) : List (Fin Config.maxInstruments) → Vector Slot Config.maxInstruments → Frame →
    Vector Slot Config.maxInstruments × Frame
  | [], slots, fr => (slots, fr)
  | k :: ks, slots, fr =>
    let r := slotFrame sr slots[k] fr
    renderSlots sr ks (slots.set k r.1) r.2

/-- `buf ⊗ MV` of R153. R154 states +0.0 ⊗ MV = +0.0 for every MV in [0, 2]: a stored MV of -0.0 is one, and for it R154's words
are followed, where IEEE 754's sign of a product would give -0.0 (assumption 22). -/
def masterProduct (mv x : Word) : Word := if x = zero ∧ isZero mv then zero else mul x mv

/-- MasterFrame (R153): master volume, then the safety clamp. -/
def masterFrame (mv : Word) (fr : Frame) : Frame :=
  ⟨sclamp (masterProduct mv fr.l) Config.safetyCeiling, sclamp (masterProduct mv fr.r) Config.safetyCeiling⟩

/-- A frame's slots and samples (R151): from a cleared frame through every slot and the master stage. -/
def frameStep (sr mv : Word) (slots : Vector Slot Config.maxInstruments) : Vector Slot Config.maxInstruments × Frame :=
  let r := renderSlots sr slotOrder slots ⟨zero, zero⟩
  (r.1, masterFrame mv r.2)

/-- The two words of frame f in BUF (R42). -/
def writeFrame (m : Memory) (f : Nat) (fr : Frame) : Memory :=
  writeWord (writeWord m (frameOffset f) fr.l) (frameOffset f + 4) fr.r

/-- The two words of frame f as they stand in BUF (R42). -/
def readFrame (m : Memory) (f : Nat) : Frame := ⟨readWord m (frameOffset f), readWord m (frameOffset f + 4)⟩

/-- The slots and samples a frame leaves, stored. -/
def storeFrame (f : Nat) (r : Vector Slot Config.maxInstruments × Frame) (s : State) : State :=
  { s with slots := r.1, mem := writeFrame s.mem f r.2 }

/-- RenderFrame(f) (R151), atomic: the values BUF holds between its first write and its last are seen by no one
(10_state.md R51, assumption 16). -/
def renderFrame (f : Nat) (s : State) : State := storeFrame f (frameStep s.sr s.mv s.slots) s

end Sys2Proof.Machine
end

