-- ==== Sys2Proof/Machine/SlotCommands.lean ====
section
/-! DEFINITION. The meanings of the slot commands (40_engine_commands.md R114 to R121). -/

namespace Sys2Proof.Machine

/-- The outcome of every command: it never fails (60_exceptions.md R281, R288). -/
abbrev CommandOutcome := Host.Outcome State Fault Refusal

/-- PARAM_SET on an instance, by its type (R114). -/
def instParamSet (id : Int) (v : Word) : Instrument → Option Instrument
  | .synth x => (synthParamSet id v x).map .synth
  | .drum x => (drumParamSet id v x).map .drum
  | .fx x => (fxParamSet id v x).map .fx

/-- PARAM_SET (R114): an unknown id changes nothing and writes RESULT_I = 0. -/
def execParamSet (slot : Nat) (id : Int) (value : Word) (s : State) : CommandOutcome :=
  .next <| withInstrument slot s fun k en inst s =>
    match instParamSet id value inst with
    | none => noOp s
    | some inst' => acted (putSlot k (.occupied en inst') s)

/-- NOTE_ON on an instance, by its type (R115); none for an FxProcessor, which has no note support (R227). -/
def instNoteOn (note : Nat) (vel : Word) : Instrument → Option Instrument
  | .synth x => some (.synth (synthNoteOn note vel x))
  | .drum x => some (.drum (drumNoteOn note vel x))
  | .fx _ => none

/-- NOTE_ON (R115). -/
def execNoteOn (slot : Nat) (note : Int) (velocity : Word) (s : State) : CommandOutcome :=
  .next <| withInstrument slot s fun k en inst s =>
    match instNoteOn (noteOperand note) (velOperand velocity) inst with
    | none => noOp s
    | some inst' => acted (putSlot k (.occupied en inst') s)

/-- NOTE_OFF on an instance, by its type (R116); none for an FxProcessor (R227). -/
def instNoteOff (note : Nat) : Instrument → Option Instrument
  | .synth x => some (.synth (synthNoteOff note x))
  | .drum x => some (.drum (drumNoteOff note x))
  | .fx _ => none

/-- NOTE_OFF (R116): RESULT_I is 1 even when no voice plays the note. -/
def execNoteOff (slot : Nat) (note : Int) (s : State) : CommandOutcome :=
  .next <| withInstrument slot s fun k en inst s =>
    match instNoteOff (noteOperand note) inst with
    | none => noOp s
    | some inst' => acted (putSlot k (.occupied en inst') s)

/-- RESET of an instance, by its type (R117). -/
def instReset : Instrument → Instrument
  | .synth x => .synth (synthReset x)
  | .drum x => .drum (drumReset x)
  | .fx x => .fx (fxReset x)

/-- RESET (R117): parameters, POLY, type and enabled are kept. -/
def execReset (slot : Nat) (s : State) : CommandOutcome :=
  .next <| withInstrument slot s fun k en inst s => acted (putSlot k (.occupied en (instReset inst)) s)

/-- Put a new, enabled instrument into a slot (R118). -/
def install (k : Fin Config.maxInstruments) (inst : Instrument) (s : State) : State :=
  acted (putSlot k (.occupied true inst) s)

/-- REGISTER (R118): types 0, 1 and 2 replace what the slot holds; any other type fails and changes nothing. A new
DrumMachine takes a fresh draw (assumption 7). -/
def execRegister (slot kind poly : Nat) (s : State) : CommandOutcome :=
  .next <| withSlot slot s fun k s =>
    match kind with
    | 0 => install k (.synth (newSynth (polyOperand poly))) s
    | 1 => install k (.drum (newDrum s.draws)) { s with draws := s.draws + 1 }
    | 2 => install k (.fx newFx) s
    | _ => noOp s

/-- REMOVE (R119). -/
def execRemove (slot : Nat) (s : State) : CommandOutcome :=
  .next <| withInstrument slot s fun k _ _ s => acted (putSlot k .empty s)

/-- PARAM_GET on an instance, by its type (R120). -/
def instParamGet (id : Int) : Instrument → Option Word
  | .synth x => synthParamGet id x
  | .drum x => drumParamGet id x
  | .fx x => fxParamGet id x

/-- PARAM_GET (R120): an unknown id leaves RESULT_F unchanged. -/
def execParamGet (slot : Nat) (id : Int) (s : State) : CommandOutcome :=
  .next <| withInstrument slot s fun _ _ inst s =>
    match instParamGet id inst with
    | none => noOp s
    | some v => acted { s with resultF := v }

/-- SET_ENABLE (R121). -/
def execSetEnable (slot : Nat) (en : Bool) (s : State) : CommandOutcome :=
  .next <| withInstrument slot s fun k _ inst s => acted (putSlot k (.occupied en inst) s)

end Sys2Proof.Machine
end

