-- ==== Sys2Proof/Machine/EngineCommands.lean ====
section
/-! DEFINITION. The meanings of the engine commands (40_engine_commands.md R122 to R125). -/

namespace Sys2Proof.Machine

open Sys2Proof.Machine.F32

/-- INIT (R122): runs whatever READY is. -/
def execInit (rate : Word) (s : State) : CommandOutcome :=
  .next <| acted { s with ready := true, sr := rateOperand rate, mv := one, slots := noSlots }

/-- The step of RENDER for frame `c.rf` of `c.rn` (R150): the last one writes RESULT_I = RN and ends the command. -/
def renderStep (c : RenderCount) (s : State) : State :=
  let s := renderFrame c.rf s
  if c.rf + 1 < c.rn then { s with rend := some ⟨c.rf + 1, c.rn⟩ } else finish (BitVec.ofNat 32 c.rn) s

/-- One core step of RENDER (R123): the first sets RN = min(n, MAX_FRAMES) and RF = 0. -/
def execRender (frames : Int) (s : State) : CommandOutcome :=
  .next <| whenReady s fun s =>
    if frames ≤ 0 then noOp s
    else renderStep (s.rend.getD ⟨0, framesOperand frames⟩) s

/-- TEARDOWN (R124). -/
def execTeardown (s : State) : CommandOutcome :=
  .next <| whenReady s fun s => acted { s with ready := false, sr := zero, mv := zero, slots := noSlots }

/-- SET_MASTER_VOL (R125). -/
def execSetMasterVol (volume : Word) (s : State) : CommandOutcome :=
  .next <| whenReady s fun s => acted { s with mv := volumeOperand volume }

end Sys2Proof.Machine
end

