-- ==== Sys2Proof/Machine/Dispatch.lean ====
section
/-! DEFINITION. The meaning of every command, one arm per constructor (30_encoding.md R93). -/

namespace Sys2Proof.Machine

def exec (i : Instr) (s : State) : Host.Outcome State Fault Refusal :=
  match i with
  | .paramSet slot id value => Sys2Proof.Machine.execParamSet slot id value s
  | .noteOn slot note velocity => Sys2Proof.Machine.execNoteOn slot note velocity s
  | .noteOff slot note => Sys2Proof.Machine.execNoteOff slot note s
  | .reset slot => Sys2Proof.Machine.execReset slot s
  | .register slot kind poly => Sys2Proof.Machine.execRegister slot kind poly s
  | .remove slot => Sys2Proof.Machine.execRemove slot s
  | .paramGet slot id => Sys2Proof.Machine.execParamGet slot id s
  | .setEnable slot en => Sys2Proof.Machine.execSetEnable slot en s
  | .init rate => Sys2Proof.Machine.execInit rate s
  | .render frames => Sys2Proof.Machine.execRender frames s
  | .teardown => Sys2Proof.Machine.execTeardown s
  | .setMasterVol volume => Sys2Proof.Machine.execSetMasterVol volume s

end Sys2Proof.Machine
end

