-- ==== Sys2Proof/WellFormed.lean ====
section
/-! DEFINITION. The operand ranges a command triple can spell (30_encoding.md R91, R92, R94). -/

namespace Sys2Proof

/-- A value of the 8-bit fields SLOT (R91), type and polyphony (R94). -/
def isByteField (n : Nat) : Bool := decide (n < 256)

/-- A value of s32(ARG_I) (R7, R92). -/
def isS32 (n : Int) : Bool := decide (-2147483648 ≤ n) && decide (n < 2147483648)

/-- The instruction is one that some command triple spells: every field lies in its range. -/
def Instr.wellFormed : Instr → Bool
  | .paramSet slot id _ => isByteField slot && isS32 id
  | .noteOn slot note _ => isByteField slot && isS32 note
  | .noteOff slot note => isByteField slot && isS32 note
  | .reset slot => isByteField slot
  | .register slot kind poly => isByteField slot && isByteField kind && isByteField poly
  | .remove slot => isByteField slot
  | .paramGet slot id => isByteField slot && isS32 id
  | .setEnable slot _ => isByteField slot
  | .init _ => true
  | .render frames => isS32 frames
  | .teardown => true
  | .setMasterVol _ => true

end Sys2Proof
end

