-- ==== Sys2Proof/Decode.lean ====
section
/-! DEFINITION. Decoding a command triple (30_encoding.md R91 to R97), the encoder written from the same tables, and
`decodeTableWord`, the decoder over an opcode-table word. -/

namespace Sys2Proof

/-- The OP field, bits [7:0] of the CMD word (R91). -/
def opField (w : Word) : Nat := w.toNat % 256

/-- The SLOT field, bits [15:8] of the CMD word (R91). -/
def slotField (w : Word) : Nat := w.toNat / 256 % 256

/-- The RSVD field, bits [31:16] of the CMD word (R91). -/
def rsvdField (w : Word) : Nat := w.toNat / 65536

/-- An engine opcode's command, which must have SLOT = 0 (R96, third check). -/
def engineCommand (w : Word) (i : Instr) : Except ErrCode Instr :=
  if slotField w = 0 then .ok i else .error .engineSlot

/-- The decode checks of R96 in their order (RSVD_BITS, UNDEF_OP, ENGINE_SLOT), and the operand assembly of R94 for a
command that passes them. -/
def decode (c : Command) : Except ErrCode Instr :=
  if rsvdField c.word ≠ 0 then .error .rsvdBits
  else match opField c.word with
    | 0x00 => .ok (.paramSet (slotField c.word) c.argI.toInt c.argF)
    | 0x01 => .ok (.noteOn (slotField c.word) c.argI.toInt c.argF)
    | 0x02 => .ok (.noteOff (slotField c.word) c.argI.toInt)
    | 0x03 => .ok (.reset (slotField c.word))
    | 0x04 => .ok (.register (slotField c.word) (c.argI.toNat % 256) (c.argI.toNat / 256 % 256))
    | 0x05 => .ok (.remove (slotField c.word))
    | 0x06 => .ok (.paramGet (slotField c.word) c.argI.toInt)
    | 0x07 => .ok (.setEnable (slotField c.word) (c.argI.getLsbD 0))
    | 0x10 => engineCommand c.word (.init c.argF)
    | 0x11 => engineCommand c.word (.render c.argI.toInt)
    | 0x12 => engineCommand c.word .teardown
    | 0x13 => engineCommand c.word (.setMasterVol c.argF)
    | _ => .error .undefOp

/-- The CMD word of an opcode and a slot: `CMDW(op, S) = (S << 8) | op` (R91, R104). -/
def cmdWord (op slot : Nat) : Word := BitVec.ofNat 32 (slot * 256 + op)

/-- The command triple that spells an instruction (R93, R94). An operand word the command ignores is 0. -/
def encode : Instr → Command
  | .paramSet slot id value => ⟨cmdWord 0x00 slot, BitVec.ofInt 32 id, value⟩
  | .noteOn slot note velocity => ⟨cmdWord 0x01 slot, BitVec.ofInt 32 note, velocity⟩
  | .noteOff slot note => ⟨cmdWord 0x02 slot, BitVec.ofInt 32 note, 0#32⟩
  | .reset slot => ⟨cmdWord 0x03 slot, 0#32, 0#32⟩
  | .register slot kind poly => ⟨cmdWord 0x04 slot, BitVec.ofNat 32 (poly * 256 + kind), 0#32⟩
  | .remove slot => ⟨cmdWord 0x05 slot, 0#32, 0#32⟩
  | .paramGet slot id => ⟨cmdWord 0x06 slot, BitVec.ofInt 32 id, 0#32⟩
  | .setEnable slot en => ⟨cmdWord 0x07 slot, if en then 1#32 else 0#32, 0#32⟩
  | .init rate => ⟨cmdWord 0x10 0, 0#32, rate⟩
  | .render frames => ⟨cmdWord 0x11 0, BitVec.ofInt 32 frames, 0#32⟩
  | .teardown => ⟨cmdWord 0x12 0, 0#32, 0#32⟩
  | .setMasterVol volume => ⟨cmdWord 0x13 0, 0#32, volume⟩

/-- The command triple whose 96 bits are numbered as the opcode table numbers them: the CMD word in bits [31:0], then
ARG_I, then ARG_F. Bits at `nbits` and above are 0. -/
def commandOfBits (nbits w : Nat) : Command :=
  let v := w % 2 ^ nbits
  ⟨BitVec.ofNat 32 v, BitVec.ofNat 32 (v / 2 ^ 32), BitVec.ofNat 32 (v / 2 ^ 64)⟩

/-- The instruction the decoder reads from an opcode-table word of `nbits` bits; none where it refuses. -/
def decodeTableWord (nbits w : Nat) : Option Instr :=
  match decode (commandOfBits nbits w) with
  | .ok i => some i
  | .error _ => none

end Sys2Proof
end

