-- ==== Sys2Proof/Machine/HostPort.lean ====
section
/-! DEFINITION. The host port (20_memory.md R70 to R84; 10_state.md section 2; 30_encoding.md R96). -/

namespace Sys2Proof.Machine

/-- The value a read of an aligned offset finds (10_state.md R31 to R42, 20_memory.md R76, R77). Reads have no side effect
(R75). -/
def portRead (s : State) (off : Nat) : Word :=
  if inBuf off then readWord s.mem off
  else if 0x040 ≤ off ∧ off < 0x080 then slotInfo (s.slots.toList.getD ((off - 0x040) / 4) .empty)
  else match off with
    | 0x000 => Config.idValue
    | 0x004 => statusWord s
    | 0x008 => instrCount s
    | 0x00C => s.sr
    | 0x014 => s.argI
    | 0x018 => s.argF
    | 0x01C => s.resultI
    | 0x020 => s.resultF
    | 0x024 => s.mv
    | 0x028 => slotPresentWord s
    | 0x02C => slotEnableWord s
    | _ => 0#32

/-- A write to CMD (R96, R110): a word that spells no command raises its error and nothing else; a command is latched with
ARG_I and ARG_F as they stand, and BUSY is 1 from then on. -/
def writeCmd (w : Word) (s : State) : State :=
  match decode ⟨w, s.argI, s.argF⟩ with
  | .error e => raiseErr e s
  | .ok _ => { s with lcmd := some ⟨w, s.argI, s.argF⟩, rend := none }

/-- A write to an aligned offset (10_state.md R32, R35, R36; 20_memory.md R75 to R77): read-only and reserved offsets
ignore it. -/
def portWrite (off : Nat) (v : Word) (s : State) : State :=
  if inBuf off then { s with mem := writeWord s.mem off v }
  else match off with
    | 0x004 => clearErr v s
    | 0x010 => writeCmd v s
    | 0x014 => { s with argI := v }
    | 0x018 => { s with argF := v }
    | _ => s

/-- The port takes an access: 32 bits with all four lanes (R72). -/
def isFullWord (a : Access) : Bool := decide (a.width = 32) && a.lanes == 0xF#4

/-- The error of an access the port refuses: width before alignment (60_exceptions.md R284). -/
def portError (a : Access) : Option ErrCode :=
  if !isFullWord a then some .busSize
  else if a.offset.toNat % 4 ≠ 0 then some .busAlign
  else none

/-- A refused access: its error, no other effect, and a read returns 0 (R72, R73, R282). -/
def refuseAccess (e : ErrCode) (a : Access) (s : State) : State :=
  match a.kind with
  | .read => { raiseErr e s with readData := 0#32 }
  | .write _ => raiseErr e s

/-- An access the port accepts. -/
def acceptAccess (a : Access) (s : State) : State :=
  match a.kind with
  | .read => { s with readData := portRead s a.offset.toNat }
  | .write v => portWrite a.offset.toNat v s

/-- What the host may do while BUSY = 1: read ID or STATUS (R84). An access the port would refuse is no read of either
(assumption 9). -/
def allowedWhileBusy (a : Access) : Bool :=
  a.kind == .read && isFullWord a && (a.offset == 0x000#16 || a.offset == 0x004#16)

/-- A host access breaks the contract of R84: BUSY = 1 is what counts (R287), and not R305's read of STATUS that has returned
BUSY = 0 (assumption 31). -/
def overlaps (s : State) (a : Access) : Bool := isBusy s && !allowedWhileBusy a

/-- One host access (R84, R287, R282). -/
def hostAccess (a : Access) (s : State) : Host.Outcome State Fault Refusal :=
  if overlaps s a then .fault .hostOverlap
  else match portError a with
    | some e => .next (refuseAccess e a s)
    | none => .next (acceptAccess a s)

end Sys2Proof.Machine
end

