-- ==== Sys2Proof/Machine/Turns.lean ====
section
/-! DEFINITION. What a step does: the core's step on the latched command, and the environment's turns (assumption 1). -/

namespace Sys2Proof.Machine

/-- One core step (40_engine_commands.md R110): the latched command is decoded and executed; with none the core is idle. A
latched word that spells no command is never reached (R96) and would raise its error (assumption 14). -/
def coreStep (s : State) : Host.Outcome State Fault Refusal :=
  match s.lcmd with
  | none => .next s
  | some c =>
    match decode c with
    | .ok i => exec i s
    | .error e => .next (raiseErr e { s with lcmd := none, rend := none })

/-- `waitidle` (30_encoding.md R103): while BUSY = 1 the core takes its step and the host waits on; the read of STATUS that
finds BUSY = 0 ends it (assumption 20). -/
def waitStep (rest : List Turn) (s : State) : Host.Outcome State Fault Refusal :=
  if isBusy s then coreStep s else .next { s with turns := rest, readData := statusWord s }

/-- One step: the environment's next turn, or the core's step when no turn is left. Where the core's turns stand between the
accesses is an input (assumption 1), so that a STATUS read made while a command runs depends on it and not on the accesses
alone, where 70_reset_and_hazards.md R313 says that the accesses determine every value read (assumption 30). -/
def turnStep (s : State) : Host.Outcome State Fault Refusal :=
  match s.turns with
  | [] => coreStep s
  | .core :: rest => coreStep { s with turns := rest }
  | .waitIdle :: rest => waitStep rest s
  | .access a :: rest => hostAccess a { s with turns := rest }

/-- The machine with a command latched as the next thing to run (assumption 8): LCMD holds it, and the core has the next
turn. -/
def latchNext (c : Command) (s : State) : State :=
  { s with lcmd := some c, rend := none, turns := .core :: s.turns }

end Sys2Proof.Machine
end

