-- ==== Sys2Proof/Machine/Step.lean ====
section
/-! DEFINITION. The machine's step, and how an opcode-table word is placed where the next step runs it. -/

namespace Sys2Proof.Machine

/-- One step of the machine (00_scope.md R6): one host access, or one core step. -/
def step (s : State) : Host.Outcome State Fault Refusal := turnStep s

/-- The command an opcode-table word spells, latched so that the very next step runs it: NXO-CORE fetches nothing, and a CMD
write is what brings a command to the core (10_state.md R30, assumption 8). -/
def State.withFetchWord (s : State) (nbits w : Nat) : State := latchNext (commandOfBits nbits w) s

end Sys2Proof.Machine
end

