-- ==== Sys2Proof/Machine/HostAsm.lean ====
section
/-! DEFINITION. Host assembly: the primitive statements of 30_encoding.md R103 and the pseudo-instructions of R104, as the
turns they stand for. The text form (comments, literals, register names) is the assembler's and no part of the machine. -/

namespace Sys2Proof.Machine

/-- `wr OFF, U32`: a 32-bit write. -/
def wr (off : BitVec 16) (v : Word) : Turn := .access ⟨.write v, off, 32, 0xF#4⟩

/-- `rd OFF`: a 32-bit read. -/
def rd (off : BitVec 16) : Turn := .access ⟨.read, off, 32, 0xF#4⟩

abbrev cmdOffset : BitVec 16 := 0x010#16
abbrev argIOffset : BitVec 16 := 0x014#16
abbrev argFOffset : BitVec 16 := 0x018#16

/-- The pseudo-instructions of R104. Integer operands are the 32-bit words written to ARG_I, float operands the binary32
patterns written to ARG_F. -/
inductive Pseudo
  | paramSet (slot : Nat) (id value : Word)
  | noteOn (slot : Nat) (note velocity : Word)
  | noteOff (slot : Nat) (note : Word)
  | instReset (slot : Nat)
  | instReg (slot : Nat) (kind poly : Nat)
  | instRm (slot : Nat)
  | paramGet (slot : Nat) (id : Word)
  | instEn (slot : Nat) (en : Word)
  | engInit (rate : Word)
  | engRender (frames : Word)
  | engDown
  | engMvol (volume : Word)
  deriving DecidableEq, Repr

/-- The expansion of a pseudo-instruction (R104); each ends in `waitidle`. -/
def expand : Pseudo → List Turn
  | .paramSet s id v => [wr argIOffset id, wr argFOffset v, wr cmdOffset (cmdWord 0x00 s), .waitIdle]
  | .noteOn s n v => [wr argIOffset n, wr argFOffset v, wr cmdOffset (cmdWord 0x01 s), .waitIdle]
  | .noteOff s n => [wr argIOffset n, wr cmdOffset (cmdWord 0x02 s), .waitIdle]
  | .instReset s => [wr cmdOffset (cmdWord 0x03 s), .waitIdle]
  | .instReg s t p => [wr argIOffset (BitVec.ofNat 32 (p * 256 + t)), wr cmdOffset (cmdWord 0x04 s), .waitIdle]
  | .instRm s => [wr cmdOffset (cmdWord 0x05 s), .waitIdle]
  | .paramGet s id => [wr argIOffset id, wr cmdOffset (cmdWord 0x06 s), .waitIdle]
  | .instEn s e => [wr argIOffset e, wr cmdOffset (cmdWord 0x07 s), .waitIdle]
  | .engInit sr => [wr argFOffset sr, wr cmdOffset 0x00000010#32, .waitIdle]
  | .engRender n => [wr argIOffset n, wr cmdOffset 0x00000011#32, .waitIdle]
  | .engDown => [wr cmdOffset 0x00000012#32, .waitIdle]
  | .engMvol v => [wr argFOffset v, wr cmdOffset 0x00000013#32, .waitIdle]

end Sys2Proof.Machine
end

