-- ==== Sys2Proof/Safety.lean ====
section
/-! DEFINITION. What a safe run is, the invariant of the machine, and the notions the claims are stated in: a run of commands,
the frames of a RENDER, a stage over several samples. -/

namespace Sys2Proof.Machine

open Sys2Proof.Machine.F32

/-! ### Safe runs -/

/-- The next step keeps the host's contract (20_memory.md R84): it is no access that overlaps a running command. -/
def keepsContract (s : State) : Prop := ∀ a rest, s.turns = .access a :: rest → overlaps s a = false

/-- A run from the state never stops: the host keeps its contract for ever (60_exceptions.md R287, R288). -/
def Safe (s : State) : Prop := ∀ n, ∃ t, core.run n s = .next t

/-! ### The invariant -/

/-- A stored parameter obeys its row: in range, whole where the row is an integer, 0 or 1 where it is a boolean
(10_state.md R48, 00_scope.md R14, R18). -/
def paramOk (spec : ParamSpec) (v : Word) : Prop :=
  le spec.lo v = true ∧ le v spec.hi = true ∧
  (spec.kind = .integer → isWhole v = true) ∧ (spec.kind = .boolean → v = zero ∨ v = one)

/-- A phase (10_state.md R45): in [0, 1), or the NaN that a non-finite phase sum leaves until RESET (93 U17). -/
def phaseOk (x : Word) : Bool := inUnit x || isNaN x

/-- A voice record's fields lie in the ranges of 10_state.md R45, and the active flag goes with the envelope state
(42_voice_engine.md R187, R189). An idle voice has level +0.0 (R183). -/
structure voiceOk (v : Voice) : Prop where
  note : v.note ≤ 127
  velLow : le zero v.vel = true
  velHigh : le v.vel one = true
  phase : phaseOk v.phase = true
  active : v.act = decide (v.es ≠ .idle)
  idle : v.es = .idle → v.level = zero

/-- A Synth as 10_state.md R44 describes it. -/
structure synthOk (x : Synth) : Prop where
  low : 1 ≤ x.voices.length
  high : x.voices.length ≤ Config.maxPolyphony
  params : ∀ i : Fin 8, paramOk (synthSpec i) x.p[i]
  voices : ∀ v ∈ x.voices, voiceOk v

/-- An FxProcessor as 10_state.md R47 describes it. -/
structure fxOk (x : Fx) : Prop where
  params : ∀ i : Fin 29, paramOk (fxSpec i) x.fp[i]
  countLeft : x.hist.left.dmCnt < 64
  countRight : x.hist.right.dmCnt < 64

/-- An instance of any type. DRUM_MODEL is free, so a DrumMachine holds anything (41_render_mix.md R157). -/
def instOk : Instrument → Prop
  | .synth x => synthOk x
  | .drum _ => True
  | .fx x => fxOk x

/-- A slot (10_state.md R40). -/
def slotOk : Slot → Prop
  | .empty => True
  | .occupied _ inst => instOk inst

/-- A RENDER in progress belongs to the latched command, which asked for a positive number of frames, and has frames left
(10_state.md R43, 40_engine_commands.md R123). -/
def renderOk (s : State) (r : RenderCount) : Prop :=
  s.ready = true ∧ r.rf < r.rn ∧
  ∃ c n, s.lcmd = some c ∧ decode c = .ok (.render n) ∧ 0 < n ∧ r.rn = framesOperand n

/-- The invariant every step keeps. -/
structure Inv (s : State) : Prop where
  /-- the buffer's bytes are in their canonical form -/
  memCanonical : Memory.wf s.mem = true
  /-- only BUF is listed (20_memory.md R70) -/
  memInBuf : ∀ c ∈ s.mem, inBuf c.1 = true
  /-- CAUSE is 0 while ERR = 0 (10_state.md R32) -/
  causeClear : s.err = false → s.cause = 0#4
  /-- CAUSE is one of 1 to 5 while ERR = 1 (60_exceptions.md R283) -/
  causeSet : s.err = true → 1 ≤ s.cause.toNat ∧ s.cause.toNat ≤ 5
  /-- an engine that is not initialised holds nothing (10_state.md R33, R34, R60) -/
  notReady : s.ready = false → s.sr = zero ∧ s.mv = zero ∧ s.slots = noSlots
  /-- SR lies in [SR_MIN, SR_MAX] (10_state.md R34) -/
  rate : s.ready = true → le Config.srMin s.sr = true ∧ le s.sr Config.srMax = true
  /-- MV lies in [0, 2] (10_state.md R38) -/
  volume : s.ready = true → le zero s.mv = true ∧ le s.mv two = true
  /-- every instance is as its rule describes it -/
  slots : ∀ k : Fin Config.maxInstruments, slotOk s.slots[k]
  /-- a latched command decodes (30_encoding.md R96) -/
  latched : ∀ c, s.lcmd = some c → ∃ i, decode c = .ok i
  /-- a RENDER in progress -/
  rendering : ∀ r, s.rend = some r → renderOk s r

/-! ### Notions the claims are stated in -/

/-- A voice in the reset state of 42_voice_engine.md R194. -/
def voiceAtReset (v : Voice) : Prop :=
  v.note = 0 ∧ v.vel = zero ∧ v.act = false ∧ v.phase = zero ∧ v.fy = zero ∧ v.es = .idle ∧ v.level = zero

/-- A channel's elements at the RESET column of 10_state.md R60. -/
def channelAtReset (c : FxChannel) : Prop :=
  c.dcX1 = zero ∧ c.dcY1 = zero ∧ c.crPhase = zero ∧ c.crHeld = zero ∧ c.dmCnt = 0 ∧ c.dmHeld = zero ∧
  c.compEnv = zero ∧ c.tpH0 = zero ∧ c.tpH1 = zero ∧ c.tpH2 = zero ∧ c.tpH3 = zero ∧ c.nsErr = zero

/-- An FxProcessor's history at the RESET column of 10_state.md R60 (43_mastering_fx.md R225). -/
def historyAtReset (h : FxHistory) : Prop :=
  channelAtReset h.left ∧ channelAtReset h.right ∧ h.tpEnv = zero ∧ h.tpG = one ∧ h.prng = 12345#31

/-- The SLOT a slot command addresses; none for an engine command (30_encoding.md R93). -/
def targetSlot : Instr → Option Nat
  | .paramSet slot _ _ => some slot
  | .noteOn slot _ _ => some slot
  | .noteOff slot _ => some slot
  | .reset slot => some slot
  | .register slot _ _ => some slot
  | .remove slot => some slot
  | .paramGet slot _ => some slot
  | .setEnable slot _ => some slot
  | .init _ => none
  | .render _ => none
  | .teardown => none
  | .setMasterVol _ => none

/-- Commands executed one after another, each in one core step. -/
def runCommands : List Instr → State → Host.Outcome State Fault Refusal
  | [], s => .next s
  | i :: rest, s =>
    match exec i s with
    | .next t => runCommands rest t
    | .fault r => .fault r
    | .refused r => .refused r

/-- The slot table after n frames (41_render_mix.md R150, R151). -/
def slotsAfter (sr mv : Word) : Nat → Vector Slot Config.maxInstruments → Vector Slot Config.maxInstruments
  | 0, slots => slots
  | n + 1, slots => slotsAfter sr mv n (frameStep sr mv slots).1

/-- Frame f of a RENDER that starts from a slot table. -/
def frameAt (sr mv : Word) (f : Nat) (slots : Vector Slot Config.maxInstruments) : Frame :=
  (frameStep sr mv (slotsAfter sr mv f slots)).2

/-- A per-channel stage over one sample after another: the channel's elements it leaves, and its outputs in order. -/
def runStage (stage : FxChannel → Word → FxChannel × Word) : FxChannel → List Word → FxChannel × List Word
  | ch, [] => (ch, [])
  | ch, x :: xs =>
    let r := stage ch x
    let rest := runStage stage r.1 xs
    (rest.1, r.2 :: rest.2)

/-- The sample of a frame on a channel. -/
def sampleOf (fr : Frame) : Channel → Word
  | .left => fr.l
  | .right => fr.r

/-- The generator's state after n draws (44_truepeak_lofi_dither.md R260). -/
def prngAfter : Nat → BitVec 31 → BitVec 31
  | 0, s => s
  | n + 1, s => prngNext (prngAfter n s)

end Sys2Proof.Machine
end

