-- ==== Sys2Proof/Certificates/Slice0/Obligations.lean ====
section
/-! DEFINITION. The statements for the provers, from the numbered rules of spec/. Arithmetic is F32's, on binary32 patterns;
`BitVec 16` numbers are window offsets. -/

section Statements

open Sys2Proof Sys2Proof.Machine

/-! ### Encoding (30_encoding.md) -/

/-- R90, R91, R93, R94: decoding the encoding of a well-formed instruction gives it back. -/
def Obligations.DecodeOfEncode : Prop :=
  ∀ i : Instr, i.wellFormed = true → decode (encode i) = .ok i

/-- R96: a CMD write is checked for RSVD bits, then for its opcode, then for an engine command's slot; a word that fails raises
that error and has no other effect, and any other word is latched with ARG_I and ARG_F, so that BUSY is 1. -/
def Obligations.CmdWriteChecksInOrder : Prop :=
  ∀ (s : State) (w : Word) (rest : List Turn), isBusy s = false → s.turns = wr cmdOffset w :: rest →
    step s = .next (
      if w.extractLsb' 16 16 ≠ 0#16 then { s with turns := rest, err := true, cause := 2#4 }
      else if ¬ ((w.extractLsb' 0 8).toNat ≤ 0x07 ∨
          (0x10 ≤ (w.extractLsb' 0 8).toNat ∧ (w.extractLsb' 0 8).toNat ≤ 0x13)) then
        { s with turns := rest, err := true, cause := 1#4 }
      else if 0x10 ≤ (w.extractLsb' 0 8).toNat ∧ w.extractLsb' 8 8 ≠ 0#8 then
        { s with turns := rest, err := true, cause := 3#4 }
      else { s with turns := rest, lcmd := some ⟨w, s.argI, s.argF⟩, rend := none })

/-- R92, R94: an operand word, or the bits of one, that a command does not use does not change what it decodes to. -/
def Obligations.UnusedOperandsIgnored : Prop :=
  ∀ w a b f g : Word,
    (w.extractLsb' 0 8 ∈ [0x03#8, 0x05#8, 0x12#8] → decode ⟨w, a, f⟩ = decode ⟨w, b, g⟩) ∧
    (w.extractLsb' 0 8 ∈ [0x02#8, 0x04#8, 0x06#8, 0x07#8, 0x11#8] → decode ⟨w, a, f⟩ = decode ⟨w, a, g⟩) ∧
    (w.extractLsb' 0 8 ∈ [0x10#8, 0x13#8] → decode ⟨w, a, f⟩ = decode ⟨w, b, f⟩) ∧
    (w.extractLsb' 0 8 = 0x04#8 → a.extractLsb' 0 16 = b.extractLsb' 0 16 → decode ⟨w, a, f⟩ = decode ⟨w, b, g⟩) ∧
    (w.extractLsb' 0 8 = 0x07#8 → a.getLsbD 0 = b.getLsbD 0 → decode ⟨w, a, f⟩ = decode ⟨w, b, g⟩)

/-- R91, R93, R94: a few command triples, written out from the encodings, and the instructions they stand for. -/
def Obligations.WrittenOutWords : Prop :=
  decode ⟨0b0000000000000000_00000010_00000000#32, 0xFFFFFFFF#32, 0x3F800000#32⟩ = .ok (.paramSet 2 (-1) 0x3F800000#32) ∧
  decode ⟨0b0000000000000000_11111111_00000001#32, 60#32, 0x3F4CCCCD#32⟩ = .ok (.noteOn 255 60 0x3F4CCCCD#32) ∧
  decode ⟨0b0000000000000000_00000001_00000100#32, 0x00000402#32, 0#32⟩ = .ok (.register 1 2 4) ∧
  decode ⟨0b0000000000000000_00001111_00000111#32, 0xFFFFFFFE#32, 0#32⟩ = .ok (.setEnable 15 false) ∧
  decode ⟨0b0000000000000000_00000000_00010001#32, 0x80000000#32, 0#32⟩ = .ok (.render (-2147483648)) ∧
  decode ⟨0b0000000000000001_00000000_00010001#32, 0#32, 0#32⟩ = .error .rsvdBits ∧
  decode ⟨0b0000000000000000_00000000_00001000#32, 0#32, 0#32⟩ = .error .undefOp ∧
  decode ⟨0b0000000000000000_00000001_00010010#32, 0#32, 0#32⟩ = .error .engineSlot

/-! ### The step and the host port (10_state.md, 20_memory.md, 60_exceptions.md) -/

/-- R6, R110: a step in which the core acts runs the latched command's instruction: with no turn left, on a `core` turn, which
it takes, and on a `waitIdle` turn, which stays until BUSY = 0. A word placed by `withFetchWord` is what the next step runs.
With no command latched the core is idle. -/
def Obligations.StepRunsDecodedCommand : Prop :=
  (∀ (s : State) (c : Command) (i : Instr), s.lcmd = some c → decode c = .ok i →
    (s.turns = [] → step s = exec i s) ∧
    (∀ rest, s.turns = .core :: rest → step s = exec i { s with turns := rest }) ∧
    (∀ rest, s.turns = .waitIdle :: rest → step s = exec i s)) ∧
  (∀ (s : State) (nbits w : Nat) (i : Instr), decodeTableWord nbits w = some i →
    step (s.withFetchWord nbits w) = exec i { s with lcmd := some (commandOfBits nbits w), rend := none }) ∧
  (∀ s : State, s.lcmd = none → s.turns = [] → step s = .next s)

/-- R84, R287: while BUSY = 1 any access other than a read of ID or STATUS stops the machine with `hostOverlap`; a 32-bit
read of ID or of STATUS does not. -/
def Obligations.OverlappingAccessFaults : Prop :=
  ∀ (s : State) (a : Access) (rest : List Turn), isBusy s = true → s.turns = .access a :: rest →
    (¬ (a.kind = .read ∧ (a.offset = 0x000#16 ∨ a.offset = 0x004#16)) → step s = .fault .hostOverlap) ∧
    (a = ⟨.read, 0x000#16, 32, 0xF#4⟩ → step s = .next { s with turns := rest, readData := 0x4E584F01#32 }) ∧
    (a = ⟨.read, 0x004#16, 32, 0xF#4⟩ → step s = .next { s with turns := rest, readData := statusWord s })

/-- R288 with R84: no step refuses, and a step stops on an overlapping access only. That an access of ID or STATUS of another
width or with some lanes off overlaps too is the model's reading (assumption 9). -/
def Obligations.StepStopsOnOverlapOnly : Prop :=
  ∀ s : State, (∀ r, step s ≠ .refused r) ∧
    (step s = .fault .hostOverlap ↔ ∃ a rest, s.turns = .access a :: rest ∧ isBusy s = true ∧
      ¬ (a.kind = .read ∧ a.width = 32 ∧ a.lanes = 0xF#4 ∧ (a.offset = 0x000#16 ∨ a.offset = 0x004#16)))

/-- R72, R73: an access of another width or with some lanes off raises Err(5), a misaligned one Err(4); a refused read returns 0,
and nothing else changes. -/
def Obligations.PortRefusesWidthThenAlignment : Prop :=
  ∀ (s : State) (a : Access) (rest : List Turn), isBusy s = false → s.turns = .access a :: rest →
    ((a.width ≠ 32 ∨ a.lanes ≠ 0xF#4) → step s = .next (match a.kind with
      | .read => { s with turns := rest, err := true, cause := 5#4, readData := 0#32 }
      | .write _ => { s with turns := rest, err := true, cause := 5#4 })) ∧
    (a.width = 32 → a.lanes = 0xF#4 → a.offset.toNat % 4 ≠ 0 → step s = .next (match a.kind with
      | .read => { s with turns := rest, err := true, cause := 4#4, readData := 0#32 }
      | .write _ => { s with turns := rest, err := true, cause := 4#4 }))

/-- R32: the fields a read of STATUS returns, BUSY or not; a STATUS write clears ERR and CAUSE together if its bit 2 is 1 and
changes nothing otherwise. -/
def Obligations.StatusFieldsAndClear : Prop :=
  (∀ (s : State) (rest : List Turn), s.turns = rd 0x004#16 :: rest →
    ∃ w : Word, step s = .next { s with turns := rest, readData := w } ∧
      w.getLsbD 0 = s.ready ∧ w.getLsbD 1 = s.lcmd.isSome ∧ w.getLsbD 2 = s.err ∧
      w.extractLsb' 3 5 = 0#5 ∧ w.extractLsb' 8 4 = s.cause ∧ w.extractLsb' 12 20 = 0#20) ∧
  (∀ (s : State) (v : Word) (rest : List Turn), isBusy s = false → s.turns = wr 0x004#16 v :: rest →
    step s = .next (if v.getLsbD 2 = true then { s with turns := rest, err := false, cause := 0#4 }
      else { s with turns := rest }))

/-- R31, R34 to R38, R75: what a read of each plain register returns, with no other effect; so the same read again returns the same
value. -/
def Obligations.RegisterReads : Prop :=
  ∀ (s : State) (rest : List Turn) (off : BitVec 16) (v : Word), isBusy s = false →
    (off, v) ∈ [(0x000#16, 0x4E584F01#32), (0x00C#16, s.sr), (0x010#16, 0#32), (0x014#16, s.argI), (0x018#16, s.argF),
      (0x01C#16, s.resultI), (0x020#16, s.resultF), (0x024#16, s.mv)] →
    s.turns = rd off :: rd off :: rest →
    step s = .next { s with turns := rd off :: rest, readData := v } ∧
    step { s with turns := rd off :: rest, readData := v } = .next { s with turns := rest, readData := v }

/-- R33, R39: INSTR_COUNT reads the number of present slots, at most 16, and 0 while READY = 0; bit k of SLOT_PRESENT and of
SLOT_ENABLE, bits [31:16] 0; a write to any of the three changes nothing. -/
def Obligations.SlotSummaryRegisters : Prop :=
  ∀ (s : State) (rest : List Turn), isBusy s = false →
    (s.turns = rd 0x008#16 :: rest → ∃ w : Word, step s = .next { s with turns := rest, readData := w } ∧
      w.toNat = (List.finRange 16).countP (fun k => isPresent s.slots[k]) ∧ w.toNat ≤ 16 ∧
      (Inv s → s.ready = false → w = 0#32)) ∧
    (s.turns = rd 0x028#16 :: rest → ∃ w : Word, step s = .next { s with turns := rest, readData := w } ∧
      (∀ k : Fin 16, w.getLsbD k = isPresent s.slots[k]) ∧ w.extractLsb' 16 16 = 0#16) ∧
    (s.turns = rd 0x02C#16 :: rest → ∃ w : Word, step s = .next { s with turns := rest, readData := w } ∧
      (∀ k : Fin 16, w.getLsbD k = isEnabled s.slots[k]) ∧ w.extractLsb' 16 16 = 0#16) ∧
    (∀ (off : BitVec 16) (v : Word), off ∈ [0x008#16, 0x028#16, 0x02C#16] → s.turns = wr off v :: rest →
      step s = .next { s with turns := rest })

/-- R41: the fields of SLOT_INFO[k], for a slot whose instance is as its rule describes it. -/
def Obligations.SlotInfoFields : Prop :=
  ∀ (s : State) (k : Fin 16) (rest : List Turn), isBusy s = false → slotOk s.slots[k] →
    s.turns = rd (BitVec.ofNat 16 (0x040 + 4 * k.val)) :: rest →
    ∃ w : Word, step s = .next { s with turns := rest, readData := w } ∧ w.extractLsb' 12 20 = 0#20 ∧
      match s.slots[k] with
      | .empty => w = 0#32
      | .occupied en (.synth x) => w.extractLsb' 0 2 = 0#2 ∧ w.getLsbD 2 = true ∧ w.getLsbD 3 = en ∧
          (w.extractLsb' 4 4).toNat = x.voices.length ∧
          (w.extractLsb' 8 4).toNat = x.voices.countP (fun v => v.act && v.es != .idle)
      | .occupied en (.drum _) => w.extractLsb' 0 2 = 1#2 ∧ w.getLsbD 2 = true ∧ w.getLsbD 3 = en ∧ w.extractLsb' 4 8 = 0#8
      | .occupied en (.fx _) => w.extractLsb' 0 2 = 2#2 ∧ w.getLsbD 2 = true ∧ w.getLsbD 3 = en ∧ w.extractLsb' 4 8 = 0#8

/-- R71, R77: a write to a BUF word stores its four bytes little-endian, changes no other word and nothing else; a read returns the
word as it stands. -/
def Obligations.BufferWordsReadBack : Prop :=
  ∀ (s : State) (j : Nat) (rest : List Turn), isBusy s = false → j < 8192 →
    (∀ v, s.turns = wr (BitVec.ofNat 16 (0x8000 + 4 * j)) v :: rest →
      ∃ m : Memory, step s = .next { s with turns := rest, mem := m } ∧
        (∀ b : Fin 4, readByte m (0x8000 + 4 * j + b.val) = v.extractLsb' (8 * b.val) 8) ∧
        (∀ k, k < 8192 → readWord m (0x8000 + 4 * k) = if k = j then v else readWord s.mem (0x8000 + 4 * k)) ∧
        (∀ a, (a < 0x8000 + 4 * j ∨ 0x8000 + 4 * j + 4 ≤ a) → readByte m a = readByte s.mem a)) ∧
    (s.turns = rd (BitVec.ofNat 16 (0x8000 + 4 * j)) :: rest →
      step s = .next { s with turns := rest, readData := readWord s.mem (0x8000 + 4 * j) })

/-- R76: a write to a read-only register or to a reserved offset is ignored, and a read of a reserved offset returns 0, without
error. MAX_FRAMES is 4096 here, so no BUF offset is reserved. -/
def Obligations.IgnoredWritesAndReservedReads : Prop :=
  ∀ (s : State) (off : BitVec 16) (rest : List Turn), isBusy s = false → off.toNat % 4 = 0 →
    (∀ v, (off ∈ [0x000#16, 0x008#16, 0x00C#16, 0x01C#16, 0x020#16, 0x024#16, 0x028#16, 0x02C#16] ∨
        (0x030 ≤ off.toNat ∧ off.toNat < 0x8000)) →
      s.turns = wr off v :: rest → step s = .next { s with turns := rest }) ∧
    (((0x030 ≤ off.toNat ∧ off.toNat < 0x040) ∨ (0x080 ≤ off.toNat ∧ off.toNat < 0x8000)) →
      s.turns = rd off :: rest → step s = .next { s with turns := rest, readData := 0#32 })

/-- R79, R103, R110: the host writes ARG_I, ARG_F and CMD and waits; for a command that takes one core step, the run ends in what
the command leaves, with STATUS read, and the operands are the ones written before the CMD write. -/
def Obligations.HostSequenceRunsCommand : Prop :=
  ∀ (s t : State) (w a f : Word) (i : Instr) (rest : List Turn), isBusy s = false →
    s.turns = wr argIOffset a :: wr argFOffset f :: wr cmdOffset w :: .waitIdle :: rest →
    decode ⟨w, a, f⟩ = .ok i →
    exec i { s with argI := a, argF := f, lcmd := some ⟨w, a, f⟩, rend := none, turns := .waitIdle :: rest } = .next t →
    isBusy t = false →
    core.run 5 s = .next { t with turns := rest, readData := statusWord t }

/-! ### Commands: the common path (40_engine_commands.md R110 to R113) -/

/-- R111: while READY = 0 every command but INIT only writes RESULT_I = 0 and ends. -/
def Obligations.UninitialisedOnlyWritesZero : Prop :=
  ∀ (i : Instr) (s : State), s.ready = false → (∀ rate, i ≠ .init rate) →
    exec i s = .next { s with resultI := 0#32, lcmd := none, rend := none }

/-- R112, R98: a slot command on a slot of 16 or more, or, REGISTER apart, on an empty slot, only writes RESULT_I = 0 and ends. -/
def Obligations.AbsentSlotOnlyWritesZero : Prop :=
  ∀ (i : Instr) (s : State) (slot : Nat), targetSlot i = some slot →
    (16 ≤ slot ∨ ((∀ n kind poly, i ≠ .register n kind poly) ∧ ∃ k : Fin 16, k.val = slot ∧ s.slots[k] = .empty)) →
    exec i s = .next { s with resultI := 0#32, lcmd := none, rend := none }

/-- What a slot command leaves alone (R112 to R121): every register but RESULT_I (RESULT_F only under PARAM_GET), every other slot, and
every byte of BUF; RESULT_I is 0 or 1 and the command has ended. -/
def Obligations.SlotCommandFrame : Prop :=
  ∀ (i : Instr) (s t : State) (slot : Nat), targetSlot i = some slot → exec i s = .next t →
    t.ready = s.ready ∧ t.err = s.err ∧ t.cause = s.cause ∧ t.sr = s.sr ∧ t.mv = s.mv ∧ t.argI = s.argI ∧
    t.argF = s.argF ∧ t.turns = s.turns ∧ t.readData = s.readData ∧ t.lcmd = none ∧ t.rend = none ∧
    (t.resultI = 0#32 ∨ t.resultI = 1#32) ∧
    ((∀ n id, i ≠ .paramGet n id) → t.resultF = s.resultF) ∧
    (∀ k : Fin 16, k.val ≠ slot → t.slots[k] = s.slots[k]) ∧
    (∀ a, readByte t.mem a = readByte s.mem a)

/-! ### Commands: parameters (R114, R120) -/

/-- R171, R172: PARAM_SET on a Synth stores the value under the row's clamp, WAVEFORM truncated (R18; trunc of -0.0 is -0.0 by
assumption 12), and PARAM_GET returns what is stored; an id outside 0..7 changes nothing but RESULT_I = 0. -/
def Obligations.SynthParamSetAndGet : Prop :=
  ∀ (s : State) (k : Fin 16) (en : Bool) (x : Synth), s.ready = true → s.slots[k] = .occupied en (.synth x) →
    (∀ (i : Fin 8) (v : Word),
      exec (.paramSet k i v) s = .next { s with
        slots := s.slots.set k (.occupied en (.synth { x with p := x.p.set i (
          let c := if F32.isNaN v then (synthSpec i).dflt else if F32.lt v (synthSpec i).lo then (synthSpec i).lo
            else if F32.lt (synthSpec i).hi v then (synthSpec i).hi else v
          if i = 0 then F32.trunc c else c) })),
        resultI := 1#32, lcmd := none, rend := none } ∧
      exec (.paramGet k i) s = .next { s with resultF := x.p[i], resultI := 1#32, lcmd := none, rend := none }) ∧
    (∀ (id : Int) (v : Word), (id < 0 ∨ 8 ≤ id) →
      exec (.paramSet k id v) s = .next { s with resultI := 0#32, lcmd := none, rend := none } ∧
      exec (.paramGet k id) s = .next { s with resultI := 0#32, lcmd := none, rend := none })

/-- R158: PARAM_SET on a DrumMachine stores the value unclamped for the ids 0 to 3 and 10 to 12, and PARAM_GET returns it; any
other id changes nothing but RESULT_I = 0. -/
def Obligations.DrumParamSetAndGet : Prop :=
  ∀ (s : State) (k : Fin 16) (en : Bool) (x : Drum), s.ready = true → s.slots[k] = .occupied en (.drum x) →
    (∀ (i : Fin 7) (v : Word) (id : Int), id = (if i.val < 4 then (i.val : Int) else i.val + 6) →
      exec (.paramSet k id v) s = .next { s with
        slots := s.slots.set k (.occupied en (.drum { x with dp := x.dp.set i v })),
        resultI := 1#32, lcmd := none, rend := none } ∧
      exec (.paramGet k id) s = .next { s with resultF := x.dp[i], resultI := 1#32, lcmd := none, rend := none }) ∧
    (∀ (id : Int) (v : Word), id ∉ [0, 1, 2, 3, 10, 11, 12] →
      exec (.paramSet k id v) s = .next { s with resultI := 0#32, lcmd := none, rend := none } ∧
      exec (.paramGet k id) s = .next { s with resultI := 0#32, lcmd := none, rend := none })

/-- R211: PARAM_SET on an FxProcessor stores by the row's kind, and PARAM_GET returns what is stored; an id outside 0..28 changes
nothing but RESULT_I = 0. -/
def Obligations.FxParamSetAndGet : Prop :=
  ∀ (s : State) (k : Fin 16) (en : Bool) (x : Fx), s.ready = true → s.slots[k] = .occupied en (.fx x) →
    (∀ (i : Fin 29) (v : Word),
      exec (.paramSet k i v) s = .next { s with
        slots := s.slots.set k (.occupied en (.fx { x with fp := x.fp.set i (
          let c := if F32.isNaN v then (fxSpec i).dflt else if F32.lt v (fxSpec i).lo then (fxSpec i).lo
            else if F32.lt (fxSpec i).hi v then (fxSpec i).hi else v
          match (fxSpec i).kind with
          | .boolean => if F32.le F32.half v then F32.one else F32.zero
          | .integer => F32.trunc c
          | .real => c) })),
        resultI := 1#32, lcmd := none, rend := none } ∧
      exec (.paramGet k i) s = .next { s with resultF := x.fp[i], resultI := 1#32, lcmd := none, rend := none }) ∧
    (∀ (id : Int) (v : Word), (id < 0 ∨ 29 ≤ id) →
      exec (.paramSet k id v) s = .next { s with resultI := 0#32, lcmd := none, rend := none } ∧
      exec (.paramGet k id) s = .next { s with resultI := 0#32, lcmd := none, rend := none })

/-- R170: the rows of the Synth's table, each number the binary32 nearest to the decimal (R11). -/
def Obligations.SynthTableRows : Prop :=
  synthTable =
    [ ⟨.integer, F32.literal 0 1, F32.literal 3 1, F32.literal 1 1⟩,
      ⟨.real, F32.neg (F32.literal 100 1), F32.literal 100 1, F32.literal 0 1⟩,
      ⟨.real, F32.literal 20 1, F32.literal 20000 1, F32.literal 20000 1⟩,
      ⟨.real, F32.literal 0 1, F32.literal 1 1, F32.literal 0 1⟩,
      ⟨.real, F32.literal 1 10000, F32.literal 30 1, F32.literal 1 100⟩,
      ⟨.real, F32.literal 1 10000, F32.literal 30 1, F32.literal 1 10⟩,
      ⟨.real, F32.literal 0 1, F32.literal 1 1, F32.literal 7 10⟩,
      ⟨.real, F32.literal 1 10000, F32.literal 30 1, F32.literal 3 10⟩ ]

/-- R210: the rows of the FxProcessor's table, each number the binary32 nearest to the decimal (R11). -/
def Obligations.FxTableRows : Prop :=
  fxTable =
    [ ⟨.boolean, F32.literal 0 1, F32.literal 1 1, F32.literal 1 1⟩,
      ⟨.real, F32.literal 1 1, F32.literal 500 1, F32.literal 20 1⟩,
      ⟨.boolean, F32.literal 0 1, F32.literal 1 1, F32.literal 0 1⟩,
      ⟨.integer, F32.literal 0 1, F32.literal 1 1, F32.literal 0 1⟩,
      ⟨.integer, F32.literal 1 1, F32.literal 16 1, F32.literal 16 1⟩,
      ⟨.real, F32.literal 0 1, F32.literal 1 1, F32.literal 1 1⟩,
      ⟨.integer, F32.literal 1 1, F32.literal 64 1, F32.literal 1 1⟩ ] ++
    [ ⟨.boolean, F32.literal 0 1, F32.literal 1 1, F32.literal 1 1⟩,
      ⟨.real, F32.literal 1 1, F32.literal 8 1, F32.literal 1 1⟩,
      ⟨.boolean, F32.literal 0 1, F32.literal 1 1, F32.literal 1 1⟩,
      ⟨.real, F32.literal 0 1, F32.literal 1 1, F32.literal 0 1⟩,
      ⟨.real, F32.literal 0 1, F32.literal 1 1, F32.literal 0 1⟩,
      ⟨.boolean, F32.literal 0 1, F32.literal 1 1, F32.literal 1 1⟩,
      ⟨.real, F32.neg (F32.literal 60 1), F32.literal 0 1, F32.literal 0 1⟩,
      ⟨.real, F32.literal 1 1, F32.literal 20 1, F32.literal 1 1⟩ ] ++
    [ ⟨.real, F32.literal 1 10000, F32.literal 1 1, F32.literal 1 100⟩,
      ⟨.real, F32.literal 1 1000, F32.literal 5 1, F32.literal 1 10⟩,
      ⟨.real, F32.literal 0 1, F32.literal 24 1, F32.literal 0 1⟩,
      ⟨.real, F32.literal 0 1, F32.literal 2 1, F32.literal 1 1⟩,
      ⟨.real, F32.literal 0 1, F32.literal 2 1, F32.literal 1 1⟩,
      ⟨.real, F32.literal 1 10, F32.literal 1 1, F32.literal 99 100⟩,
      ⟨.boolean, F32.literal 0 1, F32.literal 1 1, F32.literal 0 1⟩ ] ++
    [ ⟨.real, F32.literal 1 10, F32.literal 1 1, F32.literal 95 100⟩,
      ⟨.real, F32.literal 1 10000, F32.literal 1 10, F32.literal 1 1000⟩,
      ⟨.real, F32.literal 1 1000, F32.literal 1 1, F32.literal 5 100⟩,
      ⟨.boolean, F32.literal 0 1, F32.literal 1 1, F32.literal 0 1⟩,
      ⟨.integer, F32.literal 0 1, F32.literal 2 1, F32.literal 0 1⟩,
      ⟨.integer, F32.literal 8 1, F32.literal 24 1, F32.literal 16 1⟩,
      ⟨.boolean, F32.literal 0 1, F32.literal 1 1, F32.literal 0 1⟩ ]

/-! ### Commands: notes (R115, R116) -/

/-- R189, R190, R191: NOTE_ON on a Synth takes the first inactive voice, or voice 0 when every voice is active; that voice starts
in Attack at level 0 with the clamped note and velocity, keeping its phase and filter state, and no other voice changes. -/
def Obligations.NoteOnTakesFirstInactiveVoice : Prop :=
  ∀ (s : State) (k : Fin 16) (en : Bool) (x : Synth) (note : Int) (velocity : Word),
    s.ready = true → s.slots[k] = .occupied en (.synth x) →
    ∃ (j : Nat) (vs : List Voice),
      exec (.noteOn k note velocity) s = .next { s with
        slots := s.slots.set k (.occupied en (.synth { x with voices := vs })), resultI := 1#32, lcmd := none, rend := none } ∧
      vs.length = x.voices.length ∧
      ((∃ v, x.voices[j]? = some v ∧ (v.act = false ∨ v.es = .idle) ∧
          ∀ n, n < j → ∃ u, x.voices[n]? = some u ∧ u.act = true ∧ u.es ≠ .idle) ∨
        (j = 0 ∧ ∀ u ∈ x.voices, u.act = true ∧ u.es ≠ .idle)) ∧
      (∀ n, vs[n]? = if n = j then x.voices[n]?.map (fun v => { v with
          note := (min 127 (max 0 note)).toNat,
          vel := if F32.isNaN velocity then F32.zero else if F32.lt velocity F32.zero then F32.zero
            else if F32.lt F32.one velocity then F32.one else velocity,
          act := true, level := F32.zero, es := .attack })
        else x.voices[n]?)

/-- R185, R192: NOTE_OFF on a Synth moves every active voice that holds the clamped note to Release, its level unchanged, and no other
voice; RESULT_I is 1 even when no voice does. -/
def Obligations.NoteOffReleasesMatchingVoices : Prop :=
  ∀ (s : State) (k : Fin 16) (en : Bool) (x : Synth) (note : Int), s.ready = true → s.slots[k] = .occupied en (.synth x) →
    ∃ vs : List Voice,
      exec (.noteOff k note) s = .next { s with
        slots := s.slots.set k (.occupied en (.synth { x with voices := vs })), resultI := 1#32, lcmd := none, rend := none } ∧
      vs.length = x.voices.length ∧
      ∀ (n : Nat) (v : Voice), x.voices[n]? = some v →
        ((v.act = true ∧ v.es ≠ .idle ∧ (v.note : Int) = min 127 (max 0 note)) → vs[n]? = some { v with es := .release }) ∧
        (¬ (v.act = true ∧ v.es ≠ .idle ∧ (v.note : Int) = min 127 (max 0 note)) → vs[n]? = some v)

/-- R159, R227: notes to a DrumMachine go to DRUM_MODEL and give a new DS, DP kept; notes to an FxProcessor change nothing and
write RESULT_I = 0. -/
def Obligations.NotesToDrumAndFx : Prop :=
  ∀ (s : State) (k : Fin 16) (en : Bool) (note : Int) (velocity : Word), s.ready = true →
    (∀ x : Drum, s.slots[k] = .occupied en (.drum x) →
      exec (.noteOn k note velocity) s = .next { s with
        slots := s.slots.set k (.occupied en (.drum ⟨x.dp,
          Config.drumNoteOn x.ds (min 127 (max 0 note)).toNat (F32.pclamp velocity F32.zero F32.one F32.zero)⟩)),
        resultI := 1#32, lcmd := none, rend := none } ∧
      exec (.noteOff k note) s = .next { s with
        slots := s.slots.set k (.occupied en (.drum { x with ds := Config.drumNoteOff x.ds (min 127 (max 0 note)).toNat })),
        resultI := 1#32, lcmd := none, rend := none }) ∧
    (∀ x : Fx, s.slots[k] = .occupied en (.fx x) →
      exec (.noteOn k note velocity) s = .next { s with resultI := 0#32, lcmd := none, rend := none } ∧
      exec (.noteOff k note) s = .next { s with resultI := 0#32, lcmd := none, rend := none })

/-! ### Commands: life cycle (R117, R118, R119, R121) -/

/-- R160, R194, R225: RESET zeroes an instance's history and keeps its parameters, its pool's size, its type and its enable. -/
def Obligations.ResetZeroesHistory : Prop :=
  ∀ (s : State) (k : Fin 16) (en : Bool), s.ready = true →
    (∀ x : Synth, s.slots[k] = .occupied en (.synth x) → ∃ vs : List Voice,
      exec (.reset k) s = .next { s with
        slots := s.slots.set k (.occupied en (.synth { x with voices := vs })), resultI := 1#32, lcmd := none, rend := none } ∧
      vs.length = x.voices.length ∧
      ∀ v ∈ vs, voiceAtReset v) ∧
    (∀ x : Drum, s.slots[k] = .occupied en (.drum x) →
      exec (.reset k) s = .next { s with
        slots := s.slots.set k (.occupied en (.drum { x with ds := Config.drumReset x.ds })),
        resultI := 1#32, lcmd := none, rend := none }) ∧
    (∀ x : Fx, s.slots[k] = .occupied en (.fx x) → ∃ h : FxHistory,
      exec (.reset k) s = .next { s with
        slots := s.slots.set k (.occupied en (.fx { x with hist := h })), resultI := 1#32, lcmd := none, rend := none } ∧
      historyAtReset h)

/-- R118, R100, R195, R226: REGISTER of types 0, 1 and 2 puts a new, enabled instance in the slot, whatever the slot held: a Synth of
min(8, max(1, poly)) voices at rest with the default parameters, a DrumMachine of unspecified content, an FxProcessor
with the default parameters; any other type only writes RESULT_I = 0. -/
def Obligations.RegisterReplacesSlot : Prop :=
  ∀ (s : State) (k : Fin 16) (kind poly : Nat), s.ready = true →
    (kind = 0 → ∃ vs : List Voice, exec (.register k kind poly) s = .next { s with
      slots := s.slots.set k (.occupied true (.synth ⟨synthDefaults, vs⟩)), resultI := 1#32, lcmd := none, rend := none } ∧
      vs.length = min 8 (max 1 poly) ∧ ∀ v ∈ vs, voiceAtReset v) ∧
    (kind = 1 → ∃ (d : Drum) (n : Nat), exec (.register k kind poly) s = .next { s with
      slots := s.slots.set k (.occupied true (.drum d)), resultI := 1#32, lcmd := none, rend := none, draws := n }) ∧
    (kind = 2 → ∃ h : FxHistory, exec (.register k kind poly) s = .next { s with
      slots := s.slots.set k (.occupied true (.fx ⟨fxDefaults, h⟩)), resultI := 1#32, lcmd := none, rend := none } ∧
      historyAtReset h) ∧
    (3 ≤ kind → exec (.register k kind poly) s = .next { s with resultI := 0#32, lcmd := none, rend := none })

/-- R119: REMOVE empties a present slot. -/
def Obligations.RemoveEmptiesSlot : Prop :=
  ∀ (s : State) (k : Fin 16) (en : Bool) (inst : Instrument), s.ready = true → s.slots[k] = .occupied en inst →
    exec (.remove k) s = .next { s with
      slots := s.slots.set k .empty, resultI := 1#32, lcmd := none, rend := none }

/-- R121: SET_ENABLE sets the slot's flag and keeps its instance. -/
def Obligations.SetEnableKeepsInstance : Prop :=
  ∀ (s : State) (k : Fin 16) (en en' : Bool) (inst : Instrument), s.ready = true → s.slots[k] = .occupied en inst →
    exec (.setEnable k en') s = .next { s with
      slots := s.slots.set k (.occupied en' inst), resultI := 1#32, lcmd := none, rend := none }

/-! ### Engine commands (R122, R124, R125) -/

/-- R122: INIT runs whatever READY is: READY 1, SR the clamped rate, MV 1.0, every slot empty; BUF, ARG_I, ARG_F, RESULT_F, ERR and
CAUSE are kept. -/
def Obligations.InitConstructsEngine : Prop :=
  ∀ (s : State) (rate : Word), ∃ slots : Vector Slot Config.maxInstruments,
    exec (.init rate) s = .next { s with
      ready := true,
      sr := if F32.isNaN rate then F32.literal 44100 1 else if F32.lt rate (F32.literal 8000 1) then F32.literal 8000 1
        else if F32.lt (F32.literal 192000 1) rate then F32.literal 192000 1 else rate,
      mv := F32.one, slots := slots, resultI := 1#32, lcmd := none, rend := none } ∧
    ∀ k : Fin 16, slots[k] = .empty

/-- R124: TEARDOWN of an initialised engine: READY 0, SR and MV +0.0, every slot empty; BUF, ARG, RESULT_F, ERR and CAUSE are
kept. A second TEARDOWN writes RESULT_I = 0. -/
def Obligations.TeardownReleasesEngine : Prop :=
  ∀ s : State, s.ready = true → ∃ t : State, exec .teardown s = .next t ∧
    (∀ k : Fin 16, t.slots[k] = .empty) ∧
    t = { s with ready := false, sr := F32.zero, mv := F32.zero, slots := t.slots, resultI := 1#32, lcmd := none, rend := none } ∧
    exec .teardown t = .next { t with resultI := 0#32 }

/-- R125: SET_MASTER_VOL stores the clamped volume. -/
def Obligations.MasterVolumeIsClamped : Prop :=
  ∀ (s : State) (v : Word), s.ready = true →
    exec (.setMasterVol v) s = .next { s with
      mv := if F32.isNaN v then F32.one else if F32.lt v F32.zero then F32.zero else if F32.lt F32.two v then F32.two else v,
      resultI := 1#32, lcmd := none, rend := none }

/-- R34, R304: a step that changes SR runs an INIT or a TEARDOWN. -/
def Obligations.RateChangesByInitOrTeardown : Prop :=
  ∀ s t : State, step s = .next t → t.sr ≠ s.sr →
    ∃ c, s.lcmd = some c ∧ (decode c = .ok .teardown ∨ ∃ rate, decode c = .ok (.init rate))

/-! ### RENDER (R123, 41_render_mix.md) -/

/-- R123, R150, R153: a step of RENDER stores the slots and the two samples its frame step leaves, changes no byte outside frame RF's
eight bytes of BUF, and moves RF on; the last one writes RESULT_I = RN and ends the command. A request of 0 frames or
fewer only writes RESULT_I = 0. -/
def Obligations.RenderStepWritesItsFrame : Prop :=
  ∀ (s : State) (n : Int), s.ready = true →
    (n ≤ 0 → exec (.render n) s = .next { s with resultI := 0#32, lcmd := none, rend := none }) ∧
    (0 < n → ∀ rf rn, (rf, rn) = (match s.rend with | some c => (c.rf, c.rn) | none => (0, min n.toNat 4096)) →
      ∃ m : Memory,
        exec (.render n) s = .next (
          if rf + 1 < rn then
            { s with slots := (frameStep s.sr s.mv s.slots).1, mem := m, rend := some ⟨rf + 1, rn⟩ }
          else
            { s with slots := (frameStep s.sr s.mv s.slots).1, mem := m, rend := none, lcmd := none,
                     resultI := BitVec.ofNat 32 rn }) ∧
        readWord m (0x8000 + 8 * rf) = (frameStep s.sr s.mv s.slots).2.l ∧
        readWord m (0x8000 + 8 * rf + 4) = (frameStep s.sr s.mv s.slots).2.r ∧
        ∀ a, (a < 0x8000 + 8 * rf ∨ 0x8000 + 8 * rf + 8 ≤ a) → readByte m a = readByte s.mem a)

/-- R151, R152, R153, R157, R193, R212: in a frame step the slots run once each, in ascending order, from a cleared frame. A slot that is
not enabled is skipped; a Synth and a DrumMachine add their samples to the frame the slots before them left, and an FxProcessor
processes it in place. The master stage multiplies what slot 15 left by MV and clamps it to 0.99; that +0.0 times a zero MV is
+0.0, also for an MV of -0.0, is the model's choice (assumption 22). -/
def Obligations.SlotsRunInAscendingOrder : Prop :=
  ∀ (sr mv : Word) (slots : Vector Slot Config.maxInstruments), ∃ seen : Nat → Frame,
    seen 0 = ⟨F32.zero, F32.zero⟩ ∧
    (∀ k : Fin 16,
      ((∀ inst, slots[k] ≠ .occupied true inst) →
        (frameStep sr mv slots).1[k] = slots[k] ∧ seen (k.val + 1) = seen k.val) ∧
      (∀ x : Synth, slots[k] = .occupied true (.synth x) →
        (frameStep sr mv slots).1[k] =
          .occupied true (.synth { x with voices := x.voices.map fun v => (voiceStep sr x.p v).1 }) ∧
        ∀ sum, sum = x.voices.foldl (fun acc v => F32.add acc (voiceStep sr x.p v).2) F32.zero →
          seen (k.val + 1) = ⟨F32.add (seen k.val).l sum, F32.add (seen k.val).r sum⟩) ∧
      (∀ x : Drum, slots[k] = .occupied true (.drum x) → ∀ yl yr ds, Config.drumRender x.ds x.dp sr = (yl, yr, ds) →
        (frameStep sr mv slots).1[k] = .occupied true (.drum ⟨x.dp, ds⟩) ∧
        seen (k.val + 1) = ⟨F32.add (seen k.val).l yl, F32.add (seen k.val).r yr⟩) ∧
      (∀ x : Fx, slots[k] = .occupied true (.fx x) →
        (frameStep sr mv slots).1[k] = .occupied true (.fx (fxFrame sr x (seen k.val)).1) ∧
        seen (k.val + 1) = (fxFrame sr x (seen k.val)).2)) ∧
    ∀ (c : Channel) (prod : Word),
      prod = (if sampleOf (seen 16) c = F32.zero ∧ F32.mag mv = 0 then F32.zero else F32.mul (sampleOf (seen 16) c) mv) →
      sampleOf (frameStep sr mv slots).2 c =
        if F32.isNaN prod then F32.zero
        else if F32.lt prod (F32.neg 0x3F7D70A4#32) then F32.neg 0x3F7D70A4#32
        else if F32.lt 0x3F7D70A4#32 prod then 0x3F7D70A4#32
        else prod

/-- R156: whatever the state, a step of RENDER completes, the two BUF words of frame RF that it writes lie in [-0.99, 0.99] and are
no NaN, and it writes no other byte. RF is 0 on the first step. -/
def Obligations.RenderedSamplesAreBounded : Prop :=
  ∀ (s : State) (n : Int) (rf : Nat), s.ready = true → 0 < n → rf = (s.rend.getD ⟨0, framesOperand n⟩).rf →
    ∃ t : State, exec (.render n) s = .next t ∧
      (∀ j, j = 2 * rf ∨ j = 2 * rf + 1 → F32.isNaN (readWord t.mem (0x8000 + 4 * j)) = false ∧
        F32.le (F32.neg 0x3F7D70A4#32) (readWord t.mem (0x8000 + 4 * j)) = true ∧
        F32.le (readWord t.mem (0x8000 + 4 * j)) 0x3F7D70A4#32 = true) ∧
      (∀ a, (a < frameOffset rf ∨ frameOffset rf + 8 ≤ a) → readByte t.mem a = readByte s.mem a)

/-- R123, R150, R286: a RENDER that decodes runs min(n, 4096) core steps and ends, with RESULT_I that number: frame f of BUF is the
frame step after f others, and every byte past the last frame is as before. -/
def Obligations.RenderNeverFails : Prop :=
  ∀ (s : State) (c : Command) (n : Int), s.ready = true → s.turns = [] → s.lcmd = some c → decode c = .ok (.render n) →
    0 < n → s.rend = none →
    ∃ m : Memory,
      core.run (min n.toNat 4096) s = .next { s with
        slots := slotsAfter s.sr s.mv (min n.toNat 4096) s.slots, mem := m, lcmd := none, rend := none,
        resultI := BitVec.ofNat 32 (min n.toNat 4096) } ∧
      (∀ f, f < min n.toNat 4096 → readFrame m f = frameAt s.sr s.mv f s.slots) ∧
      (∀ a, (a < 0x8000 ∨ 0x8000 + 8 * min n.toNat 4096 ≤ a) → readByte m a = readByte s.mem a)

/-- R155: a RENDER of n1 + n2 frames and a RENDER of n1 followed by a RENDER of n2 run to their ends, give the same samples and leave
the same instruments. -/
def Obligations.BlockSizeInvariance : Prop :=
  ∀ (s : State) (n1 n2 : Nat) (c c1 c2 : Command), 0 < n1 → 0 < n2 → n1 + n2 ≤ 4096 →
    s.ready = true → s.turns = [] →
    decode c = .ok (.render (n1 + n2 : Nat)) → decode c1 = .ok (.render n1) → decode c2 = .ok (.render n2) →
    ∃ t u1 u2 : State,
      core.run (n1 + n2) { s with lcmd := some c, rend := none } = .next t ∧
      core.run n1 { s with lcmd := some c1, rend := none } = .next u1 ∧
      core.run n2 { u1 with lcmd := some c2, rend := none } = .next u2 ∧
      isBusy t = false ∧ isBusy u1 = false ∧ isBusy u2 = false ∧
      u2.slots = t.slots ∧
      (∀ f, f < n1 → readFrame u1.mem f = readFrame t.mem f) ∧
      (∀ f, f < n2 → readFrame u2.mem f = readFrame t.mem (n1 + f))

/-- R40, R152: what a slot does in a frame depends on no higher slot, and what a Synth or a DrumMachine does on no other slot at
all. -/
def Obligations.SlotsAreIsolated : Prop :=
  ∀ (sr mv mv' : Word) (a b : Vector Slot Config.maxInstruments) (k : Fin 16),
    ((∀ j : Fin 16, j ≤ k → a[j] = b[j]) → ∀ j : Fin 16, j ≤ k → (frameStep sr mv a).1[j] = (frameStep sr mv' b).1[j]) ∧
    (a[k] = b[k] → (∀ en x, a[k] ≠ .occupied en (.fx x)) → (frameStep sr mv a).1[k] = (frameStep sr mv' b).1[k])

/-- R151, R121: a disabled instrument does not change and adds nothing: the frame is the one with its slot empty. -/
def Obligations.DisabledSlotIsSkipped : Prop :=
  ∀ (sr mv : Word) (slots : Vector Slot Config.maxInstruments) (k : Fin 16), isEnabled slots[k] = false →
    (frameStep sr mv slots).1[k] = slots[k] ∧
    (frameStep sr mv slots).2 = (frameStep sr mv (slots.set k .empty)).2 ∧
    ∀ j : Fin 16, j ≠ k → (frameStep sr mv slots).1[j] = (frameStep sr mv (slots.set k .empty)).1[j]

/-- R154: with no slot enabled a frame is +0.0 on both channels, for every master volume in [0, 2], -0.0 among them (which there
rests on assumption 22). -/
def Obligations.SilentMixIsZero : Prop :=
  ∀ (sr mv : Word) (slots : Vector Slot Config.maxInstruments), F32.le F32.zero mv = true → F32.le mv F32.two = true →
    (∀ k : Fin 16, isEnabled slots[k] = false) → frameStep sr mv slots = (slots, ⟨F32.zero, F32.zero⟩)

/-! ### The voice engine (42_voice_engine.md) -/

/-- R199: after POLY + 1 note-ons with no frame rendered between them exactly POLY voices are active, and the last note holds
voice 0, whatever the pool held before. -/
def Obligations.PolyphonyLimit : Prop :=
  ∀ (s : State) (k : Fin 16) (en : Bool) (x : Synth) (notes : List (Int × Word)) (last : Int) (vel : Word),
    s.ready = true → s.slots[k] = .occupied en (.synth x) → 1 ≤ x.voices.length → notes.length = x.voices.length →
    ∃ (t : State) (y : Synth),
      runCommands ((notes ++ [(last, vel)]).map fun n => .noteOn k n.1 n.2) s = .next t ∧
      t.slots[k] = .occupied en (.synth y) ∧
      y.voices.length = x.voices.length ∧
      y.voices.countP (fun v => v.act && v.es != .idle) = x.voices.length ∧
      y.voices[0]?.map (fun v => (v.note : Int)) = some (min 127 (max 0 last))

/-- R188, R193: an inactive voice outputs +0.0 and does not advance; so a Synth with no active voice does not change, and adds
+0.0 to both channels. -/
def Obligations.InactiveVoicesAreSilent : Prop :=
  ∀ (sr : Word) (x : Synth) (fr : Frame), (∀ v ∈ x.voices, v.act = false ∨ v.es = .idle) →
    (∀ v ∈ x.voices, voiceStep sr x.p v = (v, F32.zero)) ∧
    synthFrame sr x fr = (x, ⟨F32.add fr.l F32.zero, F32.add fr.r F32.zero⟩)

/-- R179, R180, R181, R183 and R182's arm: what an envelope step does from each state. -/
def Obligations.EnvelopeArms : Prop :=
  ∀ (sr : Word) (p : Vector Word 8) (level : Word),
    (∀ l, l = F32.add level (F32.div (F32.div F32.one sr) p[4]) →
      (F32.le F32.one l = true → envStep sr p .attack level = (.decay, F32.one)) ∧
      (F32.le F32.one l = false → envStep sr p .attack level = (.attack, l))) ∧
    (∀ l, l = F32.sub level (F32.div (F32.mul (F32.sub F32.one p[6]) (F32.div F32.one sr)) p[5]) →
      envStep sr p .decay level = (if F32.le l p[6] then .sustain else .decay, l)) ∧
    envStep sr p .sustain level = (.sustain, p[6]) ∧
    (∀ l, l = F32.sub level (F32.div (F32.mul p[6] (F32.div F32.one sr)) p[7]) →
      (F32.le l F32.zero = true → envStep sr p .release level = (.idle, F32.zero)) ∧
      (F32.le l F32.zero = false → envStep sr p .release level = (.release, l))) ∧
    envStep sr p .idle level = (.idle, level)

/-- R173, R174, R175, R176, R177, R187: a frame of an active voice: the output uses the phase before the advance and the level after
the envelope step, and the voice is marked inactive the instant its envelope reaches Idle. The waveform is given for int(P[0])
in 0..3, all that R170 admits. The phase is in closed form for a sum in R21's range; that an infinite or NaN sum leaves a NaN
is assumption 4. -/
def Obligations.ActiveVoiceFrame : Prop :=
  ∀ (sr : Word) (p : Vector Word 8) (v w : Voice) (out : Word), v.act = true → v.es ≠ .idle →
    voiceStep sr p v = (w, out) →
    ∃ x freq inc dt rc alpha fy fout : Word,
      (F32.wholePart p[0] = 0 → x = Num.sin (F32.mul 0x40C90FDB#32 v.phase)) ∧
      (F32.wholePart p[0] = 1 → x = F32.sub (F32.mul F32.two v.phase) F32.one) ∧
      (F32.wholePart p[0] = 2 → x = if F32.lt v.phase F32.half then F32.one else F32.neg F32.one) ∧
      (F32.wholePart p[0] = 3 → x = F32.sub (F32.mul F32.four (F32.abs (F32.sub v.phase F32.half))) F32.one) ∧
      freq = F32.mul
        (F32.mul (F32.literal 440 1)
          (Num.exp2 (F32.div (F32.sub (F32.ofInt v.note) (F32.literal 69 1)) (F32.literal 12 1))))
        (Num.exp2 (F32.div p[1] (F32.literal 1200 1))) ∧
      inc = F32.div freq sr ∧
      dt = F32.div F32.one sr ∧ rc = F32.div F32.one (F32.mul 0x40C90FDB#32 p[2]) ∧ alpha = F32.div dt (F32.add rc dt) ∧
      fy = F32.add v.fy (F32.mul alpha (F32.sub x v.fy)) ∧
      fout = F32.add fy (F32.mul (F32.mul p[3] (F32.literal 3 10)) (F32.sub x fy)) ∧
      w = { v with
        phase := F32.frac (F32.add v.phase inc), fy := fy,
        es := (envStep sr p v.es v.level).1, level := (envStep sr p v.es v.level).2,
        act := decide ((envStep sr p v.es v.level).1 ≠ .idle) } ∧
      (∀ u, u = F32.add v.phase inc →
        (F32.isFinite u = true → F32.le F32.zero u = true →
          F32.isFinite w.phase = true ∧ F32.sign w.phase = false ∧
          F32.absUnits w.phase = F32.absUnits u % F32.unitsPerOne) ∧
        (F32.isFinite u = false → F32.isNaN w.phase = true)) ∧
      out = F32.mul (F32.mul fout w.level) v.vel

/-- R182, U16: with SUSTAIN a zero, a voice in Release at a positive finite level stays in Release at that level for ever. -/
def Obligations.ReleaseNeverEndsAtZeroSustain : Prop :=
  ∀ (sr : Word) (p : Vector Word 8) (level : Word),
    F32.le Config.srMin sr = true → F32.le sr Config.srMax = true → (∀ i : Fin 8, paramOk (synthSpec i) p[i]) →
    F32.mag p[6] = 0 → F32.isFinite level = true → F32.lt F32.zero level = true →
    envStep sr p .release level = (.release, level)

/-- R16: the named properties P1 to P5 of the numerics profile. -/
def Obligations.NumericsProfileProperties : Prop :=
  (∀ n : Int, -126 ≤ n → n ≤ 127 → Num.exp2 (F32.ofInt n) = F32.pow2 n) ∧
  Num.pow10 F32.zero = F32.one ∧
  (Num.sin F32.zero = F32.zero ∧ Num.tanh F32.zero = F32.zero ∧ Num.exp F32.zero = F32.one) ∧
  (∀ x : Word, F32.isNaN x = false → Num.tanh (F32.neg x) = F32.neg (Num.tanh x) ∧
    F32.le (F32.abs (Num.tanh x)) F32.one = true) ∧
  (Num.tanh F32.infinity = F32.one ∧ Num.tanh (F32.neg F32.infinity) = F32.neg F32.one) ∧
  (∀ x : Word, F32.isNaN x = true → ∀ f ∈ [Num.sin, Num.tanh, Num.exp, Num.log10, Num.pow10, Num.exp2], F32.isNaN (f x) = true)

/-! ### The FxProcessor (43_mastering_fx.md, 44_truepeak_lofi_dither.md) -/

/-- R213: after an FxProcessor's frame both samples are at most HL_CEIL in magnitude, which is at most 1.0, and neither is a NaN,
whatever came in. -/
def Obligations.FxOutputIsLimited : Prop :=
  ∀ (sr : Word) (x : Fx) (fr : Frame), (∀ i : Fin 29, paramOk (fxSpec i) x.fp[i]) →
    F32.le x.fp[20] F32.one = true ∧
    ∀ y ∈ [(fxFrame sr x fr).2.l, (fxFrame sr x fr).2.r],
      F32.isNaN y = false ∧ F32.le (F32.abs y) x.fp[20] = true

/-- R212, R258, R266: a disabled stage's state does not advance, in the lo-fi stage only the selected one's does, and a ditherer that
runs takes two draws a frame if it is rectangular and four otherwise. -/
def Obligations.DisabledStagesStandStill : Prop :=
  ∀ (sr : Word) (x : Fx) (fr : Frame) (h : FxHistory), h = (fxFrame sr x fr).1.hist →
    (fxFrame sr x fr).1.fp = x.fp ∧
    ∀ a b : FxChannel, (a, b) ∈ [(x.hist.left, h.left), (x.hist.right, h.right)] →
      (x.fp[0] ≠ F32.one → b.dcX1 = a.dcX1 ∧ b.dcY1 = a.dcY1) ∧
      ((x.fp[2] ≠ F32.one ∨ F32.wholePart x.fp[3] ≠ 0) → b.crPhase = a.crPhase ∧ b.crHeld = a.crHeld) ∧
      ((x.fp[2] ≠ F32.one ∨ F32.wholePart x.fp[3] = 0) → b.dmCnt = a.dmCnt ∧ b.dmHeld = a.dmHeld) ∧
      (x.fp[12] ≠ F32.one → b.compEnv = a.compEnv) ∧
      (x.fp[21] ≠ F32.one → b.tpH0 = a.tpH0 ∧ b.tpH1 = a.tpH1 ∧ b.tpH2 = a.tpH2 ∧ b.tpH3 = a.tpH3 ∧
        h.tpEnv = x.hist.tpEnv ∧ h.tpG = x.hist.tpG) ∧
      (x.fp[25] ≠ F32.one → b.nsErr = a.nsErr ∧ h.prng = x.hist.prng) ∧
      (x.fp[25] = F32.one → h.prng = prngAfter (if F32.wholePart x.fp[26] = 1 then 2 else 4) x.hist.prng)

/-- R212, R214 to R224, R250 to R265: what an FxProcessor's frame computes. `y n c` is the sample of channel c that stage n leaves, in
R212's order: 1 DC blocker, 2 lo-fi, 3 soft clipper, 4 tape, 5 compressor, 6 width, 7 gain, 8 simple limit, 9 true peak,
10 dither, 11 hard limiter. `a` is a channel's state before the frame and `b` after it. A stage that is on gives its rule's
output from the stage before it and stores its rule's state; a stage that is off passes the sample on. The true-peak
envelope `e` and gain `g` run through the left channel's four sub-samples, then the right one's (R256), and the draws go
left first (R266).
With every enable off and WIDTH and FX_GAIN at 1.0 only the clamp to HL_CEIL is left and no state changes, for every input,
NaN and infinities included. -/
def Obligations.FxFrameRunsStagesInOrder : Prop :=
  (∀ (sr : Word) (x : Fx) (fr : Frame) (p : FxParams) (h : FxHistory), p = x.fp → h = (fxFrame sr x fr).1.hist →
    ∃ y : Nat → Channel → Word,
      (∀ c, y 0 c = sampleOf fr c ∧ y 11 c = sampleOf (fxFrame sr x fr).2 c) ∧
      -- R214, R215
      (∀ c a b, a = channelOf x.hist c → b = channelOf h c →
        (p[0] = F32.one → ∀ rc,
          rc = F32.pclamp (F32.sub F32.one (F32.div (F32.mul 0x40C90FDB#32 p[1]) sr))
            (F32.literal 9 10) (F32.literal 9999 10000) (F32.literal 9999 10000) →
          y 1 c = F32.add (F32.sub (y 0 c) a.dcX1) (F32.mul rc a.dcY1) ∧ b.dcX1 = y 0 c ∧ b.dcY1 = y 1 c) ∧
        (p[0] ≠ F32.one → y 1 c = y 0 c)) ∧
      -- R257, R258, R259
      (∀ c a b, a = channelOf x.hist c → b = channelOf h c →
        (p[2] = F32.one → F32.wholePart p[3] = 0 → ∀ ph, ph = F32.add a.crPhase p[5] →
          (F32.le F32.one ph = true →
            y 2 c = (if F32.wholePart p[4] = 16 then y 1 c else F32.quant (y 1 c) (F32.wholePart p[4])) ∧
            b.crPhase = F32.sub ph F32.one ∧ b.crHeld = y 2 c) ∧
          (F32.le F32.one ph = false → y 2 c = a.crHeld ∧ b.crPhase = ph ∧ b.crHeld = a.crHeld)) ∧
        (p[2] = F32.one → F32.wholePart p[3] ≠ 0 →
          y 2 c = (if a.dmCnt = 0 then y 1 c else a.dmHeld) ∧ b.dmHeld = y 2 c ∧
          b.dmCnt = (a.dmCnt + 1) % F32.wholePart p[6]) ∧
        (p[2] ≠ F32.one → y 2 c = y 1 c)) ∧
      -- R216
      (∀ c, y 3 c = if p[7] = F32.one ∧ F32.lt (F32.sub p[8] F32.one) (F32.literal 1 1000) = false
        then F32.div (Num.tanh (F32.mul (y 2 c) p[8])) p[8] else y 2 c) ∧
      -- R217
      (∀ c, (p[9] = F32.one → ∀ wet m,
          wet = F32.mul (F32.sgn (y 3 c)) (F32.sub F32.one (Num.exp (F32.neg (F32.mul (F32.abs (y 3 c))
            (F32.add F32.two (F32.mul F32.three p[10])))))) →
          m = F32.add (F32.mul (y 3 c) (F32.sub F32.one p[10])) (F32.mul wet p[10]) →
          y 4 c = if F32.lt F32.zero p[11] then Num.tanh (F32.mul m (F32.add F32.one p[11])) else m) ∧
        (p[9] ≠ F32.one → y 4 c = y 3 c)) ∧
      -- R218, R219, R220
      (∀ c a b, a = channelOf x.hist c → b = channelOf h c →
        (p[12] = F32.one → ∀ ca cr env db red,
          ca = F32.div F32.one (F32.add (F32.mul p[15] sr) F32.one) →
          cr = F32.div F32.one (F32.add (F32.mul p[16] sr) F32.one) →
          env = (if F32.lt a.compEnv (F32.abs (y 4 c))
            then F32.add a.compEnv (F32.mul ca (F32.sub (F32.abs (y 4 c)) a.compEnv))
            else F32.add a.compEnv (F32.mul cr (F32.sub (F32.abs (y 4 c)) a.compEnv))) →
          db = F32.mul (F32.literal 20 1) (Num.log10 (F32.add (F32.abs env) (F32.literal 1 10000000000))) →
          red = (if F32.lt p[13] db
            then F32.mul (F32.sub db p[13]) (F32.sub F32.one (F32.div F32.one p[14])) else F32.zero) →
          y 5 c = F32.mul (y 4 c) (Num.pow10 (F32.div (F32.sub p[17] red) (F32.literal 20 1))) ∧ b.compEnv = env) ∧
        (p[12] ≠ F32.one → y 5 c = y 4 c)) ∧
      -- R221
      ((F32.eq p[18] F32.one = true → ∀ c, y 6 c = y 5 c) ∧
        (F32.eq p[18] F32.one = false → ∀ mid side,
          mid = F32.mul (F32.add (y 5 .left) (y 5 .right)) F32.half →
          side = F32.mul (F32.mul (F32.sub (y 5 .left) (y 5 .right)) F32.half) p[18] →
          y 6 .left = F32.add mid side ∧ y 6 .right = F32.sub mid side)) ∧
      -- R222, R223, R224
      (∀ c, y 7 c = F32.mul (y 6 c) p[19] ∧ y 8 c = F32.sclamp (y 7 c) p[20] ∧ y 11 c = F32.sclamp (y 10 c) p[20]) ∧
      -- R250 to R256
      (p[21] = F32.one → ∃ sub e g : Nat → Word,
        e 0 = x.hist.tpEnv ∧ g 0 = x.hist.tpG ∧ e 8 = h.tpEnv ∧ g 8 = h.tpG ∧
        (∀ j tca tcr target, j < 8 →
          tca = F32.div F32.one (F32.add (F32.mul p[23] (F32.mul F32.four sr)) F32.one) →
          tcr = F32.div F32.one (F32.add (F32.mul p[24] (F32.mul F32.four sr)) F32.one) →
          target = (if F32.lt p[22] (e (j + 1)) then F32.div p[22] (e (j + 1)) else F32.one) →
          e (j + 1) = F32.add (e j) (F32.mul (if F32.lt (e j) (F32.abs (sub j)) then tca else tcr)
            (F32.sub (F32.abs (sub j)) (e j))) ∧
          g (j + 1) = F32.add (g j) (F32.mul (if F32.lt target (g j) then tca else tcr) (F32.sub target (g j)))) ∧
        (∀ c a b k, a = channelOf x.hist c → b = channelOf h c → k = (match c with | .left => 0 | .right => 4) →
          b.tpH0 = a.tpH1 ∧ b.tpH1 = a.tpH2 ∧ b.tpH2 = a.tpH3 ∧ b.tpH3 = y 8 c ∧
          (∀ j c1 c2 c3 t, j < 4 → t = F32.literal j 4 →
            c1 = F32.mul F32.half (F32.sub b.tpH2 b.tpH0) →
            c2 = F32.sub (F32.add (F32.sub b.tpH0 (F32.mul (F32.literal 5 2) b.tpH1)) (F32.mul F32.two b.tpH2))
              (F32.mul F32.half b.tpH3) →
            c3 = F32.add (F32.mul F32.half (F32.sub b.tpH3 b.tpH0)) (F32.mul (F32.literal 3 2) (F32.sub b.tpH1 b.tpH2)) →
            sub (k + j) = F32.add (F32.mul (F32.add (F32.mul (F32.add (F32.mul c3 t) c2) t) c1) t) b.tpH1) ∧
          y 9 c = F32.mul (F32.add (F32.add (F32.add (F32.add F32.zero (F32.mul (sub k) (g (k + 1))))
            (F32.mul (sub (k + 1)) (g (k + 2)))) (F32.mul (sub (k + 2)) (g (k + 3))))
            (F32.mul (sub (k + 3)) (g (k + 4)))) (F32.literal 1 4))) ∧
      (p[21] ≠ F32.one → ∀ c, y 9 c = y 8 c) ∧
      -- R262 to R266
      (p[25] = F32.one → ∀ (c a b k q) (r : Nat → Word) (step d), a = channelOf x.hist c → b = channelOf h c →
        k = (match c with | .left => 0 | .right => 1) → q = F32.wholePart p[27] → step = F32.pow2 (-q) →
        (∀ n, r n = prngValue (prngAfter n x.hist.prng)) →
        d = F32.mul (F32.sub (r (2 * k + 1)) (r (2 * k + 2))) (F32.mul step F32.half) →
        (F32.wholePart p[26] = 0 → ∀ v, v = F32.add (y 9 c) d →
          y 10 c = (if p[28] = F32.one then F32.quant v q else v) ∧ b.nsErr = a.nsErr) ∧
        (F32.wholePart p[26] = 1 → ∀ v, v = F32.add (y 9 c) (F32.mul (F32.sub (r (k + 1)) F32.half) step) →
          y 10 c = (if p[28] = F32.one then F32.quant v q else v) ∧ b.nsErr = a.nsErr) ∧
        (F32.wholePart p[26] = 2 → ∀ v, v = F32.sub (F32.add (y 9 c) d) (F32.mul F32.half a.nsErr) →
          y 10 c = F32.quant v q ∧ b.nsErr = F32.sub (y 10 c) v)) ∧
      (p[25] ≠ F32.one → ∀ c, y 10 c = y 9 c)) ∧
  ∀ (sr : Word) (x : Fx) (fr : Frame), (∀ i : Fin 29, paramOk (fxSpec i) x.fp[i]) →
    x.fp[0] = F32.zero → x.fp[2] = F32.zero → x.fp[7] = F32.zero → x.fp[9] = F32.zero → x.fp[12] = F32.zero →
    x.fp[21] = F32.zero → x.fp[25] = F32.zero → x.fp[18] = F32.one → x.fp[19] = F32.one →
    fxFrame sr x fr = (x, ⟨F32.sclamp fr.l x.fp[20], F32.sclamp fr.r x.fp[20]⟩)

/-- R214: once a non-finite sample has reached a DC blocker that held finite values, every later output of it is a NaN. -/
def Obligations.DcBlockerStaysPoisoned : Prop :=
  ∀ (sr : Word) (p : FxParams) (ch : FxChannel) (x : Word) (xs : List Word),
    F32.isFinite ch.dcX1 = true → F32.isFinite ch.dcY1 = true → F32.isFinite x = false →
    ∀ y ∈ (runStage (dcStep sr p) (dcStep sr p ch x).1 xs).2, F32.isNaN y = true

/-- R259: from a counter of 0 the decimator with N = DECIM_N holds every N-th sample: output j is input (j / N) * N. -/
def Obligations.DecimatorHoldsEveryNth : Prop :=
  ∀ (p : FxParams) (ch : FxChannel) (xs : List Word), (∀ i : Fin 29, paramOk (fxSpec i) p[i]) → ch.dmCnt = 0 →
    (runStage (decimate p) ch xs).2.length = xs.length ∧
    ∀ j, j < xs.length → (runStage (decimate p) ch xs).2[j]? = xs[j / F32.wholePart p[6] * F32.wholePart p[6]]?

/-- R267: quantizing twice at one depth gives what quantizing once gives (equal as R13 compares, so that +0 and -0 are one value);
a NaN stays a NaN. -/
def Obligations.QuantizationIsProjection : Prop :=
  ∀ (x : Word) (b : Nat), 1 ≤ b → b ≤ 24 →
    (F32.isNaN x = false → F32.eq (F32.quant (F32.quant x b) b) (F32.quant x b) = true) ∧
    (F32.isNaN x = true → F32.isNaN (F32.quant x b) = true)

/-- R260, R261: the generator's next state, and its value: the top 24 of the 31 bits times 2^-24, exact, in [0, 1 - 2^-24]; the first
six states and values from the seed. -/
def Obligations.GeneratorDrawsAreExact : Prop :=
  (∀ s : BitVec 31, (prngNext s).toNat = (s.toNat * 1103515245 + 12345) % 2 ^ 31) ∧
  (∀ s : BitVec 31, F32.isFinite (prngValue s) = true ∧ F32.sign (prngValue s) = false ∧
    F32.absUnits (prngValue s) * 2 ^ 24 = s.toNat / 2 ^ 7 * F32.unitsPerOne ∧
    F32.le (prngValue s) (F32.sub F32.one (F32.pow2 (-24))) = true) ∧
  ((List.range 6).map fun n => (prngAfter (n + 1) Config.prngSeed).toNat) =
    [1406932606, 654583775, 1449466924, 229283573, 1109335178, 1051550459] ∧
  ((List.range 6).map fun n => prngValue (prngAfter (n + 1) Config.prngSeed)) =
    [0x3F27B82C#32, 0x3E9C109E#32, 0x3F2CCA38#32, 0x3DDAA968#32, 0x3F043E39#32, 0x3EFAB58A#32]

/-- R263, R268: a TPDF offset is exact and less than half a step in magnitude, for every pair of draws and every depth 8..24. -/
def Obligations.TpdfOffsetBelowHalfStep : Prop :=
  ∀ (s1 s2 : BitVec 31) (b : Nat), 8 ≤ b → b ≤ 24 →
    ∀ d, d = tpdfOffset (F32.pow2 (-b)) (prngValue s1) (prngValue s2) →
      F32.isFinite d = true ∧
      F32.units d * 2 ^ (25 + b) = ((s1.toNat / 2 ^ 7 : Nat) - (s2.toNat / 2 ^ 7 : Nat) : Int) * F32.unitsPerOne ∧
      F32.absUnits d * 2 < F32.absUnits (F32.pow2 (-b))

/-! ### Reset and invariants -/

/-- R300: power-on reset: READY, BUSY, ERR, CAUSE 0, SR and MV +0.0, ARG and RESULT registers 0, every slot empty, and no BUF byte
specified. -/
def Obligations.ResetValues : Prop :=
  State.reset.ready = false ∧ isBusy State.reset = false ∧ State.reset.err = false ∧ State.reset.cause = 0#4 ∧
  State.reset.sr = F32.zero ∧ State.reset.mv = F32.zero ∧ State.reset.argI = 0#32 ∧ State.reset.argF = 0#32 ∧
  State.reset.resultI = 0#32 ∧ State.reset.resultF = 0#32 ∧ (∀ k : Fin 16, State.reset.slots[k] = .empty) ∧
  State.reset.mem = []

/-- The reset state meets the invariant. -/
def Obligations.ResetMeetsInvariant : Prop := Inv State.reset

/-- Every step keeps the invariant: the buffer's form, CAUSE 0 while ERR = 0 and otherwise 1 to 5, an empty engine while READY = 0, SR
and MV in range while READY = 1, every parameter, voice and counter in its range (a phase may also be the NaN of assumption
4), a latched command that decodes. -/
def Obligations.StepKeepsInvariant : Prop := ∀ s t : State, Inv s → step s = .next t → Inv t

/-- R83, R311: once latched, a command runs to completion: with no further host access the core ends it within 4096 steps. -/
def Obligations.LatchedCommandCompletes : Prop :=
  ∀ s : State, Inv s → isBusy s = true → s.turns = [] →
    ∃ n t, n ≤ 4096 ∧ core.run n s = .next t ∧ isBusy t = false

end Statements
end

