-- ==== Sys2Proof/Laws/Binary32.lean ====
section
/-! SUPPORT. Laws of binary32: what packing, rounding and the exact operations give (00_scope.md R10 to R22). -/

namespace Sys2Proof.Machine.F32

/-! ### Patterns -/

theorem mag_lt (x : Word) : mag x < 2 ^ 31 := Nat.mod_lt _ (by norm_num)

theorem sign_eq (x : Word) : sign x = decide (2 ^ 31 ≤ x.toNat) := by
  simp [sign, BitVec.msb_eq_decide]

theorem mag_pack (n : Bool) {m : Nat} (h : m < 2 ^ 31) : mag (pack n m) = m := by
  cases n <;> simp [mag, pack, BitVec.toNat_ofNat] <;> omega

theorem sign_pack (n : Bool) {m : Nat} (h : m < 2 ^ 31) : sign (pack n m) = n := by
  rw [sign_eq]
  cases n <;> simp [pack, BitVec.toNat_ofNat] <;> omega

theorem pack_sign_mag (x : Word) : pack (sign x) (mag x) = x := by
  apply BitVec.eq_of_toNat_eq
  have hx := x.isLt
  rw [sign_eq]
  by_cases h : 2 ^ 31 ≤ x.toNat
  · rw [decide_eq_true h]; simp only [pack, mag, BitVec.toNat_ofNat, if_true]; omega
  · rw [decide_eq_false h]; simp only [pack, mag, BitVec.toNat_ofNat, Bool.false_eq_true, if_false]; omega

/-- Two patterns with the same sign and magnitude are one. -/
theorem ext_sign_mag {x y : Word} (hs : sign x = sign y) (hm : mag x = mag y) : x = y := by
  rw [← pack_sign_mag x, ← pack_sign_mag y, hs, hm]

@[simp] theorem mag_neg (x : Word) : mag (neg x) = mag x := mag_pack _ (mag_lt x)

@[simp] theorem sign_neg (x : Word) : sign (neg x) = !sign x := sign_pack _ (mag_lt x)

@[simp] theorem mag_abs (x : Word) : mag (abs x) = mag x := mag_pack _ (mag_lt x)

@[simp] theorem sign_abs (x : Word) : sign (abs x) = false := sign_pack _ (mag_lt x)

@[simp] theorem neg_neg (x : Word) : neg (neg x) = x := ext_sign_mag (by simp) (by simp)

@[simp] theorem isNaN_neg (x : Word) : isNaN (neg x) = isNaN x := by simp [isNaN]

@[simp] theorem isNaN_abs (x : Word) : isNaN (abs x) = isNaN x := by simp [isNaN]

@[simp] theorem key_neg (x : Word) : key (neg x) = -key x := by
  unfold key; cases h : sign x <;> simp [h]

@[simp] theorem key_abs (x : Word) : key (abs x) = (mag x : Int) := by simp [key]

@[simp] theorem absUnits_neg (x : Word) : absUnits (neg x) = absUnits x := by simp [absUnits]

@[simp] theorem units_neg (x : Word) : units (neg x) = -units x := by
  unfold units; cases h : sign x <;> simp [h]

/-- A NaN result is a NaN, whatever the free pattern is. -/
@[simp] theorem isNaN_nanResult (op : Config.NanSource) (a b : Word) : isNaN (nanResult op a b) = true := by
  have hm := mag_lt (Config.nanBits op a b)
  unfold nanResult
  dsimp only
  split
  · assumption
  · refine decide_eq_true ?_
    have : infMag + 1 + mag (Config.nanBits op a b) / 2 ^ 9 < 2 ^ 31 := by unfold infMag; omega
    rw [mag_pack _ this]
    omega

theorem finite_not_nan {x : Word} (h : isFinite x = true) : isNaN x = false := by
  simp [isFinite, isNaN] at *; omega

theorem finite_not_inf {x : Word} (h : isFinite x = true) : isInf x = false := by
  simp [isFinite, isInf] at *; omega

/-! ### Magnitudes and units -/

theorem significand_lt (m : Nat) : significand m < 2 ^ 24 := by
  have := Nat.mod_lt m (show 0 < 2 ^ 23 by norm_num)
  unfold significand; split <;> omega

/-- A number with at most 24 significant bits is the value of a magnitude: the one this says. -/
theorem unitsOfMag_of_parts {k t : Nat} (ht : t < 2 ^ 24) (hk : 2 ^ 23 ≤ t ∨ k = 0) :
    unitsOfMag (k * 2 ^ 23 + t) = t * 2 ^ k := by
  obtain ⟨h1, h2⟩ : significand (k * 2 ^ 23 + t) = t ∧ unitExp (k * 2 ^ 23 + t) = k := by
    unfold significand unitExp
    split <;> omega
  rw [unitsOfMag, h1, h2]

/-- A magnitude is its unit exponent and its significand. -/
theorem mag_parts (m : Nat) :
    m = unitExp m * 2 ^ 23 + significand m ∧ (2 ^ 23 ≤ significand m ∨ unitExp m = 0) := by
  unfold unitExp significand
  split <;> omega

theorem roundHalfEven_exact (t d : Nat) (hd : 0 < d) : roundHalfEven (t * d) d = t := by
  simp [roundHalfEven, Nat.mul_div_cancel _ hd, hd]

theorem roundHalfEven_bounds (n d : Nat) : n / d ≤ roundHalfEven n d ∧ roundHalfEven n d ≤ n / d + 1 := by
  unfold roundHalfEven
  dsimp only
  split
  · omega
  · split
    · omega
    · split <;> omega

theorem roundMag_le (n d : Nat) : roundMag n d ≤ infMag := Nat.min_le_left _ _

theorem roundMag_lt (n d : Nat) : roundMag n d < 2 ^ 31 := by
  have := roundMag_le n d; simp only [infMag] at this; omega

/-- Rounding never gives a NaN. -/
@[simp] theorem isNaN_pack_roundMag (s : Bool) (n d : Nat) : isNaN (pack s (roundMag n d)) = false := by
  have := roundMag_le n d
  simp only [isNaN, mag_pack s (roundMag_lt n d), decide_eq_false_iff_not, not_lt]; exact this

/-- The place of the last of 24 significant bits of a number with at most 24 of them lies under it. -/
theorem log2_parts {k t : Nat} (ht : t < 2 ^ 24) (hk : 2 ^ 23 ≤ t ∨ k = 0) :
    Nat.log2 (t * 2 ^ k) - 23 = k := by
  rcases hk with h | rfl
  · have : Nat.log2 (t * 2 ^ k) = 23 + k := by
      rw [Nat.log2_eq_iff (by positivity)]
      constructor
      · rw [pow_add]; exact Nat.mul_le_mul_right _ h
      · rw [show 23 + k + 1 = 24 + k by ring, pow_add]; exact Nat.mul_lt_mul_of_pos_right ht (by positivity)
    omega
  · rcases Nat.eq_zero_or_pos t with rfl | h0
    · simp
    · have : Nat.log2 (t * 2 ^ 0) < 24 := by
        rw [Nat.log2_lt (by omega)]; simpa using ht
      omega

/-- Rounding a value that a magnitude holds gives that magnitude (R12: one rounding, exact when it can be). -/
theorem roundMag_exact {m : Nat} (hm : m ≤ infMag) {d : Nat} (hd : 0 < d) : roundMag (unitsOfMag m * d) d = m := by
  obtain ⟨h1, h2⟩ := mag_parts m
  have h3 := significand_lt m
  unfold roundMag
  dsimp only
  rw [Nat.mul_div_cancel _ hd, unitsOfMag, log2_parts h3 h2,
    show significand m * 2 ^ unitExp m * d = significand m * (d * 2 ^ unitExp m) by ring,
    roundHalfEven_exact _ _ (by positivity), ← h1]
  omega

theorem roundMag_exact_one {m : Nat} (hm : m ≤ infMag) : roundMag (unitsOfMag m) 1 = m := by
  simpa using roundMag_exact hm Nat.one_pos

/-- A number with at most 24 significant bits, below 2^277, is a value; rounding finds it exactly. -/
theorem unitsOfMag_roundMag {s k : Nat} (hs : s < 2 ^ 24) (hb : s * 2 ^ k < 2 ^ 24 * 2 ^ 253) {d : Nat} (hd : 0 < d) :
    unitsOfMag (roundMag (s * 2 ^ k * d) d) = s * 2 ^ k ∧ roundMag (s * 2 ^ k * d) d < infMag := by
  suffices h : ∃ k' t, t < 2 ^ 24 ∧ (2 ^ 23 ≤ t ∨ k' = 0) ∧ s * 2 ^ k = t * 2 ^ k' by
    obtain ⟨k', t, ht, hk, he⟩ := h
    have hu := unitsOfMag_of_parts ht hk
    have hlt : k' * 2 ^ 23 + t < infMag := by
      rcases hk with h | rfl
      · have : 2 ^ (23 + k') < 2 ^ (24 + 253) := by
          calc 2 ^ (23 + k') = 2 ^ 23 * 2 ^ k' := pow_add ..
            _ ≤ t * 2 ^ k' := Nat.mul_le_mul_right _ h
            _ < 2 ^ 24 * 2 ^ 253 := he ▸ hb
            _ = 2 ^ (24 + 253) := (pow_add ..).symm
        have : k' < 254 := by
          have := (Nat.pow_lt_pow_iff_right (show 1 < 2 by norm_num)).1 this
          omega
        simp only [infMag]; omega
      · simp only [infMag]; omega
    rw [he, ← hu, roundMag_exact hlt.le hd]
    exact ⟨rfl, hlt⟩
  clear hb
  induction k generalizing s with
  | zero => exact ⟨0, s, hs, .inr rfl, by simp⟩
  | succ k ih =>
    by_cases h : s < 2 ^ 23
    · obtain ⟨k', t, h1, h2, h3⟩ := ih (s := 2 * s) (by omega)
      exact ⟨k', t, h1, h2, by rw [← h3]; ring⟩
    · exact ⟨k + 1, s, hs, .inl (by omega), rfl⟩

theorem roundHalfEven_mono {n d n' d' : Nat} (hd : 0 < d) (hd' : 0 < d') (h : n * d' ≤ n' * d) :
    roundHalfEven n d ≤ roundHalfEven n' d' := by
  have hq : n / d ≤ n' / d' := by
    rw [Nat.le_div_iff_mul_le hd']
    have : n / d * d ≤ n := Nat.div_mul_le_self n d
    have : n / d * d' * d ≤ n' * d := by nlinarith
    exact Nat.le_of_mul_le_mul_right this hd
  have b1 := roundHalfEven_bounds n d
  have b2 := roundHalfEven_bounds n' d'
  rcases Nat.lt_or_eq_of_le hq with hlt | heq
  · omega
  · have e1 := Nat.div_add_mod n d
    have e2 := Nat.div_add_mod n' d'
    rw [heq] at e1
    have hr : n % d * d' ≤ n' % d' * d := by nlinarith
    unfold roundHalfEven
    dsimp only
    rw [heq]
    have key1 : d ≤ 2 * (n % d) → d' ≤ 2 * (n' % d') := fun h1 => by
      by_contra h2
      push Not at h2
      nlinarith
    have key2 : d < 2 * (n % d) → d' < 2 * (n' % d') := fun h1 => by
      by_contra h2
      push Not at h2
      nlinarith
    split_ifs <;> omega

/-- Rounding keeps the order of values (R12). -/
theorem roundMag_mono {n d n' d' : Nat} (hd : 0 < d) (hd' : 0 < d') (h : n * d' ≤ n' * d) :
    roundMag n d ≤ roundMag n' d' := by
  have hq : n / d ≤ n' / d' := by
    rw [Nat.le_div_iff_mul_le hd']
    have : n / d * d ≤ n := Nat.div_mul_le_self n d
    have : n / d * d' * d ≤ n' * d := by nlinarith
    exact Nat.le_of_mul_le_mul_right this hd
  unfold roundMag
  dsimp only
  refine min_le_min_left _ ?_
  have hk : Nat.log2 (n / d) ≤ Nat.log2 (n' / d') := by
    rw [Nat.log2_eq_log_two, Nat.log2_eq_log_two]; exact Nat.log_mono_right hq
  rcases Nat.lt_or_eq_of_le (Nat.sub_le_sub_right hk 23) with hlt | heq
  · set k := Nat.log2 (n / d) - 23 with hkd
    set k' := Nat.log2 (n' / d') - 23 with hkd'
    -- the smaller value's significand is at most 2^24, the larger one's at least 2^23
    have h1 : roundHalfEven n (d * 2 ^ k) ≤ 2 ^ 24 := by
      have hb := (roundHalfEven_bounds n (d * 2 ^ k)).2
      have : n / (d * 2 ^ k) < 2 ^ 24 := by
        rw [← Nat.div_div_eq_div_mul, Nat.div_lt_iff_lt_mul (by positivity), ← pow_add]
        rcases Nat.eq_zero_or_pos (n / d) with h0 | h0
        · rw [h0]; positivity
        · have := Nat.lt_log2_self (n := n / d)
          exact lt_of_lt_of_le this (Nat.pow_le_pow_right (by norm_num) (by omega))
      omega
    have h2 : 2 ^ 23 ≤ roundHalfEven n' (d' * 2 ^ k') := by
      refine le_trans ?_ (roundHalfEven_bounds n' (d' * 2 ^ k')).1
      rw [← Nat.div_div_eq_div_mul, Nat.le_div_iff_mul_le (by positivity), ← pow_add]
      have h0 : n' / d' ≠ 0 := by
        intro h0; rw [h0] at hkd'; simp at hkd'; omega
      have := Nat.log2_self_le h0
      exact le_trans (Nat.pow_le_pow_right (by norm_num) (by omega)) this
    have : (k + 1) * 2 ^ 23 ≤ k' * 2 ^ 23 := Nat.mul_le_mul_right _ hlt
    omega
  · rw [heq]
    refine Nat.add_le_add_left (roundHalfEven_mono (by positivity) (by positivity) ?_) _
    calc n * (d' * 2 ^ (Nat.log2 (n' / d') - 23)) = n * d' * 2 ^ (Nat.log2 (n' / d') - 23) := by ring
      _ ≤ n' * d * 2 ^ (Nat.log2 (n' / d') - 23) := Nat.mul_le_mul_right _ h
      _ = _ := by ring

theorem roundMag_mono_one {n n' : Nat} (h : n ≤ n') : roundMag n 1 ≤ roundMag n' 1 :=
  roundMag_mono Nat.one_pos Nat.one_pos (by simpa using h)

/-- Magnitudes are in the order of their values. -/
theorem unitsOfMag_le_iff {m m' : Nat} (hm : m ≤ infMag) (hm' : m' ≤ infMag) :
    unitsOfMag m ≤ unitsOfMag m' ↔ m ≤ m' := by
  constructor
  · intro h
    have := roundMag_mono_one h
    rwa [roundMag_exact_one hm, roundMag_exact_one hm'] at this
  · intro h
    by_contra hlt
    push Not at hlt
    have := roundMag_mono_one hlt.le
    rw [roundMag_exact_one hm, roundMag_exact_one hm'] at this
    rw [le_antisymm h this] at hlt
    exact lt_irrefl _ hlt

theorem unitsOfMag_lt_iff {m m' : Nat} (hm : m ≤ infMag) (hm' : m' ≤ infMag) :
    unitsOfMag m < unitsOfMag m' ↔ m < m' := by
  rw [← not_le, unitsOfMag_le_iff hm' hm, not_le]

theorem unitsOfMag_eq_zero {m : Nat} : unitsOfMag m = 0 ↔ m = 0 := by
  obtain ⟨h1, h2⟩ := mag_parts m
  constructor
  · intro h
    have : significand m = 0 := by
      rcases Nat.mul_eq_zero.1 h with h | h
      · exact h
      · exact absurd h (by positivity)
    omega
  · rintro rfl; rfl

end Sys2Proof.Machine.F32
end

