-- ==== Sys2Proof/Laws/Arithmetic.lean ====
section
/-! SUPPORT. Laws of the binary32 operations: comparisons and clamps (00_scope.md R13 to R15), the operations on values that
come out exactly, and the rounding functions R17 to R22. -/

namespace Sys2Proof.Machine.F32

/-! ### Comparisons and clamps -/

theorem lt_iff {a b : Word} : lt a b = true ↔ isNaN a = false ∧ isNaN b = false ∧ key a < key b := by
  simp [lt, and_assoc]

theorem le_iff {a b : Word} : le a b = true ↔ isNaN a = false ∧ isNaN b = false ∧ key a ≤ key b := by
  simp [le, and_assoc]

theorem eq_iff {a b : Word} : eq a b = true ↔ isNaN a = false ∧ isNaN b = false ∧ key a = key b := by
  simp [eq, and_assoc]

theorem eq_refl {a : Word} (h : isNaN a = false) : eq a a = true := by simp [eq_iff, h]

/-- 1.0 is the only pattern that equals 1.0 (R13). -/
theorem eq_one_iff {a : Word} : eq a one = true ↔ a = one := by
  constructor
  · intro h
    obtain ⟨-, -, h⟩ := eq_iff.1 h
    have h1 : key one = 1065353216 := by decide
    rw [h1] at h
    unfold key at h
    cases hs : sign a <;> simp only [hs, if_true, Bool.false_eq_true, if_false] at h
    · exact ext_sign_mag (by rw [hs]; decide) (by rw [show mag one = 1065353216 by decide]; omega)
    · omega
  · rintro rfl; decide

/-- The parameter clamp's answer: the default, a bound, or the value itself in its range (R14). -/
theorem pclamp_cases (v lo hi d : Word) :
    (isNaN v = true ∧ pclamp v lo hi d = d) ∨ (isNaN v = false ∧ lt v lo = true ∧ pclamp v lo hi d = lo) ∨
    (isNaN v = false ∧ lt v lo = false ∧ lt hi v = true ∧ pclamp v lo hi d = hi) ∨
    (isNaN v = false ∧ lt v lo = false ∧ lt hi v = false ∧ pclamp v lo hi d = v) := by
  unfold pclamp
  cases h1 : isNaN v <;> cases h2 : lt v lo <;> cases h3 : lt hi v <;> simp

/-- A clamped parameter lies in its range, NaN or not (R14, R48). -/
theorem pclamp_range {v lo hi d : Word} (hlo : le lo d = true) (hhi : le d hi = true) :
    le lo (pclamp v lo hi d) = true ∧ le (pclamp v lo hi d) hi = true := by
  obtain ⟨h1, h2, h3⟩ := le_iff.1 hlo
  obtain ⟨-, h4, h5⟩ := le_iff.1 hhi
  rcases pclamp_cases v lo hi d with ⟨-, h⟩ | ⟨-, -, h⟩ | ⟨-, -, -, h⟩ | ⟨hn, ha, hb, h⟩ <;> rw [h]
  · exact ⟨hlo, hhi⟩
  · exact ⟨le_iff.2 ⟨h1, h1, le_rfl⟩, le_iff.2 ⟨h1, h4, h3.trans h5⟩⟩
  · exact ⟨le_iff.2 ⟨h1, h4, h3.trans h5⟩, le_iff.2 ⟨h4, h4, le_rfl⟩⟩
  · simp only [lt, hn, h1, h4, Bool.not_false, Bool.true_and, decide_eq_false_iff_not, not_lt] at ha hb
    exact ⟨le_iff.2 ⟨h1, hn, ha⟩, le_iff.2 ⟨hn, h4, hb⟩⟩

/-- A value in its range is stored as it is (R14). -/
theorem pclamp_of_range {v lo hi d : Word} (hlo : le lo v = true) (hhi : le v hi = true) : pclamp v lo hi d = v := by
  obtain ⟨h1, h2, h3⟩ := le_iff.1 hlo
  obtain ⟨-, h4, h5⟩ := le_iff.1 hhi
  unfold pclamp
  simp only [h2, lt, h1, h4]
  rw [decide_eq_false (by omega), decide_eq_false (by omega)]
  simp

/-- The signal clamp bounds every pattern, NaN and infinities included (R15): the result is no NaN and at most c in
magnitude. -/
theorem sclamp_bound {x c : Word} (hc : isNaN c = false) (h0 : 0 ≤ key c) :
    le (abs (sclamp x c)) c = true := by
  have hck : key c = mag c ∨ mag c = 0 := by
    unfold key at h0 ⊢; cases hs : sign c <;> simp [hs] at h0 ⊢; omega
  have hkc : (mag c : Int) ≤ key c := by
    rcases hck with h | h <;> omega
  unfold sclamp
  cases hn : isNaN x
  · cases h1 : lt x (neg c)
    · cases h2 : lt c x
      · simp only [Bool.false_eq_true, if_false]
        rw [le_iff, isNaN_abs, key_abs]
        simp only [lt, hn, hc, isNaN_neg, Bool.not_false, Bool.true_and, decide_eq_false_iff_not, not_lt, key_neg] at h1 h2
        refine ⟨hn, hc, ?_⟩
        have : (mag x : Int) = key x ∨ (mag x : Int) = -key x := by unfold key; split <;> omega
        omega
      · simp [le_iff, hc, hkc]
    · simp [le_iff, hc, hkc]
  · simp only [if_true]
    rw [le_iff]
    exact ⟨by decide, hc, by simpa [show key (abs zero) = 0 by decide] using h0⟩

/-- The signal clamp keeps a value inside its bounds (R15). -/
theorem sclamp_of_bound {x c : Word} (hn : isNaN x = false) (hc : isNaN c = false) (h : (mag x : Int) ≤ key c) :
    sclamp x c = x := by
  have hx : -(mag x : Int) ≤ key x ∧ key x ≤ mag x := by unfold key; split <;> omega
  unfold sclamp
  simp only [hn, lt, hc, isNaN_neg, key_neg]
  rw [decide_eq_false (by omega), decide_eq_false (by omega)]
  simp

/-! ### Operations on exact values -/

/-- A finite pattern has a finite magnitude. -/
theorem finite_mag_lt {x : Word} (h : isFinite x = true) : mag x < infMag := of_decide_eq_true h

theorem absUnits_eq_zero {x : Word} : absUnits x = 0 ↔ mag x = 0 := unitsOfMag_eq_zero

theorem natAbs_units (x : Word) : (units x).natAbs = absUnits x := by
  unfold units; split <;> simp

/-- Rounding a pattern's own value gives its magnitude. -/
theorem roundMag_absUnits {x : Word} (h : isFinite x = true) : roundMag (absUnits x) 1 = mag x :=
  roundMag_exact_one (finite_mag_lt h).le

/-- A finite pattern packed from an exact value: its facts at once. -/
theorem pack_exact {s k : Nat} (hs : s < 2 ^ 24) (hb : s * 2 ^ k < 2 ^ 24 * 2 ^ 253) (n : Bool) {d : Nat} (hd : 0 < d) :
    isFinite (pack n (roundMag (s * 2 ^ k * d) d)) = true ∧ sign (pack n (roundMag (s * 2 ^ k * d) d)) = n ∧
    absUnits (pack n (roundMag (s * 2 ^ k * d) d)) = s * 2 ^ k := by
  obtain ⟨h1, h2⟩ := unitsOfMag_roundMag hs hb hd
  have h3 := mag_pack n (roundMag_lt (s * 2 ^ k * d) d)
  exact ⟨decide_eq_true (by rw [h3]; exact h2), sign_pack _ (roundMag_lt _ _), by rw [absUnits, h3, h1]⟩

/-- The sum of two finite values is their exact sum rounded once (R12). -/
theorem add_finite {a b : Word} (ha : isFinite a = true) (hb : isFinite b = true) :
    add a b = if units a + units b = 0 then pack (sign a && sign b) 0
      else pack (decide (units a + units b < 0)) (roundMag (units a + units b).natAbs 1) := by
  simp [add, sumOf, finite_not_nan ha, finite_not_nan hb, finite_not_inf ha, finite_not_inf hb]

/-- The product of two finite values is their exact product rounded once (R12). -/
theorem mul_finite {a b : Word} (ha : isFinite a = true) (hb : isFinite b = true) :
    mul a b = pack (sign a != sign b) (roundMag (absUnits a * absUnits b) unitsPerOne) := by
  simp [mul, finite_not_nan ha, finite_not_nan hb, finite_not_inf ha, finite_not_inf hb]

/-- A finite value over a finite nonzero one is their exact quotient rounded once (R12). -/
theorem div_finite {a b : Word} (ha : isFinite a = true) (hb : isFinite b = true) (h0 : mag b ≠ 0) :
    div a b = pack (sign a != sign b) (roundMag (absUnits a * unitsPerOne) (absUnits b)) := by
  simp [div, finite_not_nan ha, finite_not_nan hb, finite_not_inf ha, finite_not_inf hb, isZero, h0]

/-- Adding a zero to a finite nonzero value changes nothing. -/
theorem add_zero_of_ne {x z : Word} (hx : isFinite x = true) (h0 : mag x ≠ 0) (hz : mag z = 0) : add x z = x := by
  have hzf : isFinite z = true := decide_eq_true (by rw [hz]; decide)
  have hzu : units z = 0 := by
    unfold units; rw [absUnits_eq_zero.2 hz]; simp
  have hxu : absUnits x ≠ 0 := fun h => h0 (absUnits_eq_zero.1 h)
  have hne : units x ≠ 0 := by
    intro h; apply hxu; rw [← natAbs_units, h]; rfl
  rw [add_finite hx hzf, hzu, add_zero, if_neg hne, natAbs_units, roundMag_absUnits hx]
  refine ext_sign_mag ?_ (mag_pack _ (mag_lt x))
  rw [sign_pack _ (mag_lt x)]
  unfold units at hne ⊢
  cases hs : sign x <;> simp [hs] at hne ⊢
  omega

/-- A zero times a finite value is a zero. -/
theorem mag_mul_zero {z x : Word} (hz : mag z = 0) (hx : isFinite x = true) : mag (mul z x) = 0 := by
  have hzf : isFinite z = true := decide_eq_true (by rw [hz]; decide)
  rw [mul_finite hzf hx, absUnits_eq_zero.2 hz, zero_mul, mag_pack _ (roundMag_lt _ _)]
  simp [roundMag, roundHalfEven]

/-- A zero over a finite nonzero value is a zero. -/
theorem mag_div_zero {z x : Word} (hz : mag z = 0) (hx : isFinite x = true) (h0 : mag x ≠ 0) : mag (div z x) = 0 := by
  have hzf : isFinite z = true := decide_eq_true (by rw [hz]; decide)
  have hpos : 0 < absUnits x := Nat.pos_of_ne_zero fun h => h0 (absUnits_eq_zero.1 h)
  rw [div_finite hzf hx h0, absUnits_eq_zero.2 hz, zero_mul, mag_pack _ (roundMag_lt _ _)]
  simp [roundMag, roundHalfEven, hpos]

theorem infMag_eq : infMag = 254 * 2 ^ 23 + 2 ^ 23 := rfl

/-- 2^k is exact: its facts at once. -/
theorem pow2_facts {k : Int} (h1 : -126 ≤ k) (h2 : k ≤ 127) :
    isFinite (pow2 k) = true ∧ sign (pow2 k) = false ∧ absUnits (pow2 k) = 2 ^ (149 + k).toNat := by
  obtain ⟨e, rfl⟩ : ∃ e : Nat, k = (e : Int) - 126 := ⟨(k + 126).toNat, by omega⟩
  have he : e ≤ 253 := by omega
  have hn : ((e : Int) - 126 + 127).toNat = e + 1 := by omega
  have hp : pow2 ((e : Int) - 126) = pack false (e * 2 ^ 23 + 2 ^ 23) := by
    have : (e + 1) * 2 ^ 23 = e * 2 ^ 23 + 2 ^ 23 + if false = true then 2 ^ 31 else 0 := by
      rw [if_neg (by simp)]; omega
    rw [pow2, hn, this]
    unfold pack
    rfl
  have hm : e * 2 ^ 23 + 2 ^ 23 < 2 ^ 31 := by omega
  have hmag : mag (pow2 ((e : Int) - 126)) = e * 2 ^ 23 + 2 ^ 23 := by rw [hp, mag_pack _ hm]
  have hx : (149 + ((e : Int) - 126)).toNat = 23 + e := by omega
  refine ⟨decide_eq_true (by rw [hmag, infMag_eq]; omega), by rw [hp, sign_pack _ hm], ?_⟩
  rw [absUnits, hmag, unitsOfMag_of_parts (by norm_num) (.inl le_rfl), ← pow_add, hx]

/-- Rounding a whole number of units that a magnitude holds, whatever form it is written in. -/
theorem roundMag_eq {n d m : Nat} (hm : m ≤ infMag) (hd : 0 < d) (h : n = unitsOfMag m * d) : roundMag n d = m := by
  rw [h, roundMag_exact hm hd]

/-! ### Whole numbers -/

theorem unitsPerOne_eq : unitsPerOne = 2 ^ 149 := rfl

theorem unitsPerOne_pos : 0 < unitsPerOne := by rw [unitsPerOne_eq]; positivity

theorem absUnits_eq (x : Word) : absUnits x = unitsOfMag (mag x) := rfl

theorem unitsOfMag_eq (m : Nat) : unitsOfMag m = significand m * 2 ^ unitExp m := rfl

theorem wholePart_eq (x : Word) : wholePart x = absUnits x / unitsPerOne := rfl

theorem mag_one_units : unitsOfMag (mag one) = unitsPerOne := by
  rw [show mag one = 126 * 2 ^ 23 + 2 ^ 23 by decide, unitsOfMag_of_parts (by norm_num) (.inl le_rfl), ← pow_add,
    unitsPerOne_eq]

/-- 24 significant bits at the place of 1.0 or below stay in range. -/
theorem parts_lt {s k : Nat} (hs : s < 2 ^ 24) (hk : k ≤ 253) : s * 2 ^ k < 2 ^ 24 * 2 ^ 253 := by
  calc s * 2 ^ k < 2 ^ 24 * 2 ^ k := Nat.mul_lt_mul_of_pos_right hs (by positivity)
    _ ≤ 2 ^ 24 * 2 ^ 253 := Nat.mul_le_mul_left _ (Nat.pow_le_pow_right (by norm_num) hk)

theorem mag_units_le {x y : Word} (hx : isFinite x = true) (hy : isFinite y = true) :
    absUnits x ≤ absUnits y ↔ mag x ≤ mag y :=
  unitsOfMag_le_iff (finite_mag_lt hx).le (finite_mag_lt hy).le

/-- A finite value is a 24-bit significand times a power of 2, at most 2^253 units. -/
theorem absUnits_parts {x : Word} (hx : isFinite x = true) :
    absUnits x = significand (mag x) * 2 ^ unitExp (mag x) ∧ significand (mag x) < 2 ^ 24 ∧ unitExp (mag x) ≤ 253 := by
  refine ⟨by rw [absUnits_eq, unitsOfMag_eq], significand_lt _, ?_⟩
  have := finite_mag_lt hx
  rw [infMag_eq] at this
  unfold unitExp
  omega

/-- f32(n) is exact for a magnitude below 2^24 (R17). -/
theorem ofInt_exact {n : Int} (h : n.natAbs < 2 ^ 24) :
    isFinite (ofInt n) = true ∧ sign (ofInt n) = decide (n < 0) ∧ absUnits (ofInt n) = n.natAbs * unitsPerOne := by
  have := pack_exact h (parts_lt h (show 149 ≤ 253 by norm_num)) (decide (n < 0)) Nat.one_pos
  rw [Nat.mul_one, ← unitsPerOne_eq] at this
  exact this

/-- A value whose last place is 1.0 or above is whole. -/
theorem unitsPerOne_dvd {x : Word} (hx : isFinite x = true) (hk : 149 ≤ unitExp (mag x)) : unitsPerOne ∣ absUnits x := by
  rw [(absUnits_parts hx).1, unitsPerOne_eq]
  exact (pow_dvd_pow 2 hk).trans (dvd_mul_left _ _)

/-- The whole part of a finite magnitude is exact: below 2^24, or the magnitude is whole already. -/
theorem wholePart_parts {x : Word} (hx : isFinite x = true) :
    ∃ s k, s < 2 ^ 24 ∧ k ≤ 253 ∧ wholePart x * unitsPerOne = s * 2 ^ k := by
  obtain ⟨he, hs, hb⟩ := absUnits_parts hx
  by_cases hk : 149 ≤ unitExp (mag x)
  · refine ⟨_, _, hs, hb, ?_⟩
    rw [wholePart_eq, Nat.div_mul_cancel (unitsPerOne_dvd hx hk), he]
  · refine ⟨wholePart x, 149, ?_, by norm_num, by rw [unitsPerOne_eq]⟩
    rw [wholePart_eq, Nat.div_lt_iff_lt_mul unitsPerOne_pos, he, unitsPerOne_eq]
    calc significand (mag x) * 2 ^ unitExp (mag x) < 2 ^ 24 * 2 ^ unitExp (mag x) :=
          Nat.mul_lt_mul_of_pos_right hs (by positivity)
      _ ≤ 2 ^ 24 * 2 ^ 149 := Nat.mul_le_mul_left _ (Nat.pow_le_pow_right (by norm_num) (by omega))

/-- trunc of a finite value is its whole part, exactly (R18). -/
theorem trunc_facts {x : Word} (hx : isFinite x = true) :
    isFinite (trunc x) = true ∧ sign (trunc x) = sign x ∧ absUnits (trunc x) = wholePart x * unitsPerOne := by
  obtain ⟨s, k, hs, hk, he⟩ := wholePart_parts hx
  have := pack_exact hs (parts_lt hs hk) (sign x) Nat.one_pos
  rw [Nat.mul_one, ← he] at this
  exact this

theorem isWhole_trunc {x : Word} (hx : isFinite x = true) : isWhole (trunc x) = true := by
  obtain ⟨h1, -, h2⟩ := trunc_facts hx
  rw [isWhole, h1, h2, Nat.mul_mod_left]; rfl

/-- A truncated value stays between whole non-negative bounds (R14, R18). -/
theorem trunc_range {v lo hi : Word} (hlo : le lo v = true) (hhi : le v hi = true) (h0 : sign lo = false)
    (hwl : isWhole lo = true) (hfh : isFinite hi = true) :
    isFinite v = true ∧ le lo (trunc v) = true ∧ le (trunc v) hi = true := by
  obtain ⟨hnl, hnv, hl⟩ := le_iff.1 hlo
  obtain ⟨-, hnh, hh⟩ := le_iff.1 hhi
  rw [isWhole, Bool.and_eq_true, decide_eq_true_eq] at hwl
  obtain ⟨hfl, hdl⟩ := hwl
  have hkl : key lo = mag lo := by simp [key, h0]
  have hv0 : (0 : Int) ≤ key v := by omega
  have hkv : key v = mag v := by
    unfold key at hv0 ⊢; cases hs : sign v <;> simp [hs] at hv0 ⊢; omega
  have hh0 : key hi = mag hi := by
    have : (0 : Int) ≤ key hi := hv0.trans hh
    unfold key at this ⊢; cases hs : sign hi <;> simp [hs] at this ⊢; omega
  have hfv : isFinite v = true := decide_eq_true (by have := finite_mag_lt hfh; omega)
  obtain ⟨ht1, ht2, ht3⟩ := trunc_facts hfv
  have hmt : mag (trunc v) ≤ mag v := by
    rw [← mag_units_le ht1 hfv, ht3, wholePart_eq]; exact Nat.div_mul_le_self _ _
  have hml : mag lo ≤ mag (trunc v) := by
    have h1 : absUnits lo ≤ absUnits v := (mag_units_le hfl hfv).2 (by omega)
    rw [← mag_units_le hfl ht1, ht3, wholePart_eq]
    calc absUnits lo = absUnits lo / unitsPerOne * unitsPerOne := (Nat.div_mul_cancel (Nat.dvd_of_mod_eq_zero hdl)).symm
      _ ≤ _ := Nat.mul_le_mul_right _ (Nat.div_le_div_right h1)
  have hkt : key (trunc v) = mag (trunc v) := by
    unfold key
    cases hs : sign (trunc v)
    · simp
    · have hsv : sign v = true := by rw [← ht2]; exact hs
      have : mag v = 0 := by
        unfold key at hkv; simp only [hsv, if_true] at hkv; omega
      rw [this] at hmt
      rw [Nat.le_zero.1 hmt]; rfl
  refine ⟨hfv, le_iff.2 ⟨hnl, finite_not_nan ht1, ?_⟩, le_iff.2 ⟨finite_not_nan ht1, hnh, ?_⟩⟩
  · rw [hkl, hkt]; exact_mod_cast hml
  · rw [hkt]
    refine le_trans ?_ hh
    rw [hkv]; exact_mod_cast hmt

/-! ### The fractional part -/

/-- The fractional part of a finite value has no more significant bits than the value. -/
theorem fracUnits_parts {x : Word} (hx : isFinite x = true) :
    ∃ s k, s < 2 ^ 24 ∧ k ≤ 253 ∧ absUnits x % unitsPerOne = s * 2 ^ k := by
  obtain ⟨he, hs, hb⟩ := absUnits_parts hx
  by_cases hk : 149 ≤ unitExp (mag x)
  · exact ⟨0, 0, by norm_num, by norm_num, by rw [Nat.mod_eq_zero_of_dvd (unitsPerOne_dvd hx hk)]; norm_num⟩
  · refine ⟨significand (mag x) % 2 ^ (149 - unitExp (mag x)), unitExp (mag x), lt_of_le_of_lt (Nat.mod_le _ _) hs, hb, ?_⟩
    have : unitsPerOne = 2 ^ (149 - unitExp (mag x)) * 2 ^ unitExp (mag x) := by
      rw [← pow_add, unitsPerOne_eq]; congr 1; omega
    rw [he, this, Nat.mul_mod_mul_right]

/-- frac of a finite value ≥ 0 is its fractional part, exactly (R21). -/
theorem frac_facts {x : Word} (hx : isFinite x = true) (h0 : sign x = false ∨ mag x = 0) :
    isFinite (frac x) = true ∧ sign (frac x) = false ∧ absUnits (frac x) = absUnits x % unitsPerOne := by
  have hc : (!sign x || isZero x) = true := by rcases h0 with h | h <;> simp [h, isZero]
  obtain ⟨s, k, hs, hk, he⟩ := fracUnits_parts hx
  have := pack_exact hs (parts_lt hs hk) false Nat.one_pos
  rw [Nat.mul_one, ← he] at this
  rw [frac, if_neg (by simp [hx]), if_pos hc]
  exact this

/-- frac of an infinity or a NaN is a NaN (93 U17). -/
theorem isNaN_frac_of_not_finite {x : Word} (hx : isFinite x = false) : isNaN (frac x) = true := by
  rw [frac, if_pos (by simp [hx])]; exact isNaN_nanResult _ _ _

/-- frac of a finite value lies in [0, 1) (R21, R45), also where it is a free value. -/
theorem frac_inUnit {x : Word} (hx : isFinite x = true) : inUnit (frac x) = true := by
  by_cases h : (!sign x || isZero x) = true
  · have h0 : sign x = false ∨ mag x = 0 := by
      rw [Bool.or_eq_true] at h
      rcases h with h | h
      · exact .inl (by simpa using h)
      · exact .inr (of_decide_eq_true h)
    obtain ⟨h1, h2, h3⟩ := frac_facts hx h0
    have hlt : mag (frac x) < mag one := by
      rw [← not_le, ← mag_units_le (by decide) h1, h3, absUnits_eq, mag_one_units, not_le]
      exact Nat.mod_lt _ unitsPerOne_pos
    have hk : key (frac x) = mag (frac x) := by simp [key, h2]
    have hy := finite_not_nan h1
    rw [inUnit, Bool.and_eq_true]
    exact ⟨le_iff.2 ⟨by decide, hy, by rw [show key zero = 0 by decide, hk]; omega⟩,
      lt_iff.2 ⟨hy, by decide, by rw [show key one = mag one by decide, hk]; omega⟩⟩
  · rw [frac, if_neg (by simp [hx]), if_neg h]
    split
    · assumption
    · decide

/-! ### Rounding to whole numbers -/

/-- rnd of a finite nonzero value is the nearest whole number, halves away from zero, exactly (R19). -/
theorem rnd_facts {x : Word} (hx : isFinite x = true) (h0 : mag x ≠ 0) :
    isFinite (rnd x) = true ∧ sign (rnd x) = sign x ∧
    absUnits (rnd x) = (absUnits x + unitsPerOne / 2) / unitsPerOne * unitsPerOne := by
  have hnz : isZero x = false := by simp [isZero, h0]
  have hr : rnd x = pack (sign x) (roundMag ((absUnits x + unitsPerOne / 2) / unitsPerOne * unitsPerOne) 1) := by
    rw [rnd, finite_not_nan hx, finite_not_inf hx, hnz]; rfl
  obtain ⟨s, k, hs, hk, he⟩ : ∃ s k, s < 2 ^ 24 ∧ k ≤ 253 ∧
      (absUnits x + unitsPerOne / 2) / unitsPerOne * unitsPerOne = s * 2 ^ k := by
    obtain ⟨hp, hs, hb⟩ := absUnits_parts hx
    by_cases hk : 149 ≤ unitExp (mag x)
    · obtain ⟨s, k, hs, hk', he⟩ := wholePart_parts hx
      refine ⟨s, k, hs, hk', ?_⟩
      obtain ⟨c, hc⟩ := unitsPerOne_dvd hx hk
      rw [← he, wholePart_eq, hc, Nat.mul_div_cancel_left _ unitsPerOne_pos, Nat.mul_add_div unitsPerOne_pos,
        Nat.div_eq_of_lt (Nat.div_lt_self unitsPerOne_pos (by norm_num)), Nat.add_zero]
    · refine ⟨_, 149, ?_, by norm_num, by rw [unitsPerOne_eq]⟩
      rw [Nat.div_lt_iff_lt_mul (by positivity), hp]
      have h1 : significand (mag x) * 2 ^ unitExp (mag x) ≤ (2 ^ 24 - 1) * 2 ^ 148 :=
        Nat.mul_le_mul (by omega) (Nat.pow_le_pow_right (by norm_num) (by omega))
      calc _ ≤ (2 ^ 24 - 1) * 2 ^ 148 + 2 ^ 149 / 2 := Nat.add_le_add_right h1 _
        _ < 2 ^ 24 * 2 ^ 149 := by norm_num
  have := pack_exact hs (parts_lt hs hk) (sign x) Nat.one_pos
  rw [Nat.mul_one, ← he, ← hr] at this
  exact this

/-! ### Sums and products that come out exactly (R12) -/

theorem units_of_sign {x : Word} (h : sign x = false) : units x = absUnits x := by simp [units, h]

/-- A value is its sign and its units. -/
theorem units_eq (x : Word) : units x = if sign x then -(absUnits x : Int) else absUnits x := rfl

/-- A sum with at most 24 significant bits comes out exactly. -/
theorem add_exact {a b : Word} (ha : isFinite a = true) (hb : isFinite b = true) {s k : Nat} (hs : s < 2 ^ 24)
    (hk : k ≤ 253) (h : (units a + units b).natAbs = s * 2 ^ k) :
    isFinite (add a b) = true ∧ units (add a b) = units a + units b := by
  rw [add_finite ha hb]
  generalize units a + units b = u at h
  by_cases h0 : u = 0
  · subst h0
    rw [if_pos rfl]
    generalize (sign a && sign b) = n
    cases n <;> decide
  · have := pack_exact hs (parts_lt hs hk) (decide (u < 0)) Nat.one_pos
    rw [Nat.mul_one, ← h] at this
    obtain ⟨h1, h2, h3⟩ := this
    rw [if_neg h0]
    refine ⟨h1, ?_⟩
    rw [units_eq, h2, h3]
    by_cases hn : u < 0
    · simp only [hn, decide_true, if_true]; omega
    · simp only [hn, decide_false, Bool.false_eq_true, if_false]; omega

/-- A product with at most 24 significant bits comes out exactly. -/
theorem mul_exact {a b : Word} (ha : isFinite a = true) (hb : isFinite b = true) {s k : Nat} (hs : s < 2 ^ 24)
    (hk : k ≤ 253) (h : absUnits a * absUnits b = s * 2 ^ k * unitsPerOne) :
    isFinite (mul a b) = true ∧ sign (mul a b) = (sign a != sign b) ∧ absUnits (mul a b) = s * 2 ^ k := by
  rw [mul_finite ha hb, h]
  exact pack_exact hs (parts_lt hs hk) _ unitsPerOne_pos

theorem absUnits_one : absUnits one = unitsPerOne := by rw [absUnits_eq, mag_one_units]

/-- Multiplying by 1.0 changes nothing that is no NaN. -/
theorem mul_one_of_not_nan {x : Word} (hx : isNaN x = false) : mul x one = x := by
  have hone : isFinite one = true := by decide
  have hs1 : sign one = false := by decide
  by_cases hf : isFinite x = true
  · rw [mul_finite hf hone, absUnits_one, absUnits_eq, roundMag_exact (finite_mag_lt hf).le unitsPerOne_pos, hs1,
      Bool.bne_false, pack_sign_mag]
  · have hi : isInf x = true := by
      simp only [isFinite, isNaN, isInf, decide_eq_true_eq, decide_eq_false_iff_not] at hf hx ⊢; omega
    have hz : isZero x = false := by
      simp only [isInf, isZero, decide_eq_true_eq, decide_eq_false_iff_not] at hi ⊢; rw [hi]; decide
    have h1 : isNaN one = false := by decide
    have h2 : isInf one = false := by decide
    have h3 : isZero one = false := by decide
    have hm : mag x = infMag := of_decide_eq_true hi
    simp only [mul, hx, h1, hi, h2, hz, h3, hs1, Bool.or_self, Bool.false_eq_true, if_false, Bool.or_false, if_true,
      Bool.bne_false]
    rw [← hm, pack_sign_mag]

/-- An operation on a NaN gives a NaN. -/
theorem isNaN_mul_left {a b : Word} (h : isNaN a = true) : isNaN (mul a b) = true := by simp [mul, h]

theorem isNaN_mul_right {a b : Word} (h : isNaN b = true) : isNaN (mul a b) = true := by simp [mul, h]

theorem isNaN_add_left {a b : Word} (h : isNaN a = true) : isNaN (add a b) = true := by simp [add, sumOf, h]

theorem isNaN_add_right {a b : Word} (h : isNaN b = true) : isNaN (add a b) = true := by simp [add, sumOf, h]

/-- The two sums differ in the bits of a NaN alone. -/
theorem sumOf_cases (op : Config.NanSource) (a b : Word) :
    sumOf op a b = add a b ∨ (isNaN (sumOf op a b) = true ∧ isNaN (add a b) = true) := by
  unfold add sumOf
  split
  · simp
  · split
    · split <;> simp
    · split <;> simp

/-- A difference is a NaN where the sum with the negated operand is one. -/
theorem isNaN_sub (a b : Word) : isNaN (sub a b) = isNaN (add a (neg b)) := by
  rcases sumOf_cases .sub a (neg b) with h | ⟨h1, h2⟩
  · exact congrArg isNaN h
  · rw [h2]; exact h1

/-- A difference that is no NaN is the sum with the negated operand (R12). -/
theorem sub_eq_add {a b : Word} (h : isNaN (add a (neg b)) = false) : sub a b = add a (neg b) := by
  rcases sumOf_cases .sub a (neg b) with e | ⟨-, e⟩
  · exact e
  · rw [e] at h; cases h

/-- Subtracting a zero from a finite nonzero value changes nothing. -/
theorem sub_zero_of_ne {x z : Word} (hx : isFinite x = true) (h0 : mag x ≠ 0) (hz : mag z = 0) : sub x z = x := by
  have h := add_zero_of_ne hx h0 (z := neg z) (by rw [mag_neg]; exact hz)
  rw [sub_eq_add (by rw [h]; exact finite_not_nan hx), h]

theorem isNaN_sub_left {a b : Word} (h : isNaN a = true) : isNaN (sub a b) = true := by
  rw [isNaN_sub]; exact isNaN_add_left h

theorem isNaN_sub_right {a b : Word} (h : isNaN b = true) : isNaN (sub a b) = true := by
  rw [isNaN_sub]; exact isNaN_add_right (by simpa using h)

/-- A clamped NaN is +0.0 (R15). -/
theorem sclamp_nan {x c : Word} (h : isNaN x = true) : sclamp x c = zero := by simp [sclamp, h]

/-- Clamping twice at one ceiling is clamping once (R15). -/
theorem sclamp_idem {x c : Word} (hc : isNaN c = false) (h0 : 0 ≤ key c) : sclamp (sclamp x c) c = sclamp x c := by
  have h := sclamp_bound (x := x) hc h0
  obtain ⟨h1, -, h2⟩ := le_iff.1 h
  exact sclamp_of_bound (by simpa using h1) hc (by simpa using h2)

/-- Two finite values of one sign and one number of units are one pattern. -/
theorem ext_units {x y : Word} (hx : isFinite x = true) (hy : isFinite y = true) (hs : sign x = sign y)
    (h : absUnits x = absUnits y) : x = y :=
  ext_sign_mag hs (le_antisymm ((mag_units_le hx hy).1 h.le) ((mag_units_le hy hx).1 h.ge))

/-! ### Infinities (R12) -/

theorem inf_not_nan {a : Word} (ha : isInf a = true) : isNaN a = false := by
  simp only [isInf, isNaN, decide_eq_true_eq, decide_eq_false_iff_not] at *; omega

/-- A pattern that is not finite is a NaN or an infinity. -/
theorem not_finite_cases {x : Word} (h : isFinite x = false) : isNaN x = true ∨ isInf x = true := by
  simp only [isFinite, isNaN, isInf, decide_eq_true_eq, decide_eq_false_iff_not] at *; omega

@[simp] theorem isInf_neg (x : Word) : isInf (neg x) = isInf x := by simp [isInf]

theorem add_inf_finite {a b : Word} (ha : isInf a = true) (hb : isFinite b = true) : add a b = a := by
  simp [add, sumOf, inf_not_nan ha, finite_not_nan hb, ha, finite_not_inf hb]

theorem add_finite_inf {a b : Word} (ha : isFinite a = true) (hb : isInf b = true) : add a b = b := by
  simp [add, sumOf, inf_not_nan hb, finite_not_nan ha, hb, finite_not_inf ha]

/-- Infinities of opposite signs have no sum. -/
theorem add_opposite_inf {a b : Word} (ha : isInf a = true) (hb : isInf b = true) (hs : sign a ≠ sign b) :
    isNaN (add a b) = true := by simp [add, sumOf, inf_not_nan ha, inf_not_nan hb, ha, hb, hs]

theorem add_same_inf {a b : Word} (ha : isInf a = true) (hb : isInf b = true) (hs : sign a = sign b) : add a b = a := by
  simp [add, sumOf, inf_not_nan ha, inf_not_nan hb, ha, hb, hs]

/-- A finite nonzero value times an infinity is an infinity. -/
theorem mul_finite_inf {a b : Word} (ha : isFinite a = true) (h0 : mag a ≠ 0) (hb : isInf b = true) :
    isInf (mul a b) = true ∧ sign (mul a b) = (sign a != sign b) := by
  have hz : isZero a = false := by simp [isZero, h0]
  have hzb : isZero b = false := by
    simp only [isInf, isZero, decide_eq_true_eq, decide_eq_false_iff_not] at *; rw [hb]; decide
  have : mul a b = pack (sign a != sign b) infMag := by simp [mul, inf_not_nan hb, finite_not_nan ha, hb, hz, hzb]
  have hlt : infMag < 2 ^ 31 := by decide
  rw [this]
  exact ⟨decide_eq_true (mag_pack _ hlt), sign_pack _ hlt⟩

/-- A product with a factor of at most 1.0 stays finite. -/
theorem mul_le_one_finite {c y : Word} (hc : isFinite c = true) (h1 : mag c ≤ mag one) (hy : isFinite y = true) :
    isFinite (mul c y) = true := by
  rw [mul_finite hc hy]
  refine decide_eq_true ?_
  rw [mag_pack _ (roundMag_lt _ _)]
  have hu : absUnits c ≤ unitsPerOne := by rw [← absUnits_one]; exact (mag_units_le hc (by decide)).2 h1
  refine lt_of_le_of_lt (roundMag_mono (n' := absUnits y * unitsPerOne) (d' := unitsPerOne) unitsPerOne_pos
    unitsPerOne_pos ?_) ?_
  · rw [mul_comm (absUnits y)]; exact Nat.mul_le_mul_right _ (Nat.mul_le_mul_right _ hu)
  · rw [absUnits_eq, roundMag_exact (finite_mag_lt hy).le unitsPerOne_pos]; exact finite_mag_lt hy

/-! ### Scaling by a power of 2, and rounding to whole numbers (R19, R20) -/

theorem inf_mul_pow2 {x : Word} (hx : isInf x = true) {k : Int} (h1 : -126 ≤ k) (h2 : k ≤ 127) : mul x (pow2 k) = x := by
  obtain ⟨p1, p2, p3⟩ := pow2_facts h1 h2
  have hm : mag x = infMag := of_decide_eq_true hx
  have hz : isZero x = false := by simp [isZero, hm]; decide
  have hp0 : isZero (pow2 k) = false := by
    refine decide_eq_false fun h => ?_
    rw [← absUnits_eq_zero, p3] at h
    exact absurd h (by positivity)
  have : mul x (pow2 k) = pack (sign x) infMag := by simp [mul, inf_not_nan hx, finite_not_nan p1, hx, hz, hp0, p2]
  rw [this, ← hm, pack_sign_mag]

theorem rnd_inf {x : Word} (hx : isInf x = true) : rnd x = x := by simp [rnd, inf_not_nan hx, hx]

theorem rnd_zero {x : Word} (h : mag x = 0) : rnd x = zero := by
  have hn : isNaN x = false := by simp [isNaN, h]
  have hi : isInf x = false := by simp [isInf, h]; decide
  have hz : isZero x = true := by simp [isZero, h]
  simp [rnd, hn, hi, hz]

/-- A whole number is its own nearest whole number. -/
theorem rnd_of_whole {r : Word} (hr : isFinite r = true) (h0 : mag r ≠ 0) (hd : unitsPerOne ∣ absUnits r) : rnd r = r := by
  obtain ⟨h1, h2, h3⟩ := rnd_facts hr h0
  refine ext_units h1 hr h2 ?_
  rw [h3]
  obtain ⟨c, hc⟩ := hd
  rw [hc, Nat.mul_add_div unitsPerOne_pos, Nat.div_eq_of_lt (Nat.div_lt_self unitsPerOne_pos (by norm_num)), Nat.add_zero,
    mul_comm]

/-- A whole number scaled down by 2^b and up again, b at most 24, is the same number: both steps are exact. -/
theorem whole_scale {r : Word} (hr : isFinite r = true) (h0 : mag r ≠ 0) (hd : unitsPerOne ∣ absUnits r) {b : Nat}
    (hb : b ≤ 24) :
    isFinite (mul r (pow2 (-b))) = true ∧ mag (mul r (pow2 (-b))) ≠ 0 ∧ mul (mul r (pow2 (-b))) (pow2 b) = r := by
  obtain ⟨p1, p2, p3⟩ := pow2_facts (k := (b : Int)) (by omega) (by omega)
  obtain ⟨q1, q2, q3⟩ := pow2_facts (k := -(b : Int)) (by omega) (by omega)
  have e1 : (149 + (b : Int)).toNat = 149 + b := by omega
  have e2 : (149 + -(b : Int)).toNat = 149 - b := by omega
  rw [e1] at p3; rw [e2] at q3
  obtain ⟨s, k, hs, hk1, hk2, he⟩ : ∃ s k, s < 2 ^ 24 ∧ b ≤ k ∧ k ≤ 253 ∧ absUnits r = s * 2 ^ k := by
    obtain ⟨h1, h2, h3⟩ := absUnits_parts hr
    by_cases hk : 149 ≤ unitExp (mag r)
    · exact ⟨_, _, h2, by omega, h3, h1⟩
    · obtain ⟨c, hc⟩ := hd
      refine ⟨c, 149, ?_, by omega, by omega, by rw [hc, unitsPerOne_eq, mul_comm]⟩
      have : unitsPerOne * c < unitsPerOne * 2 ^ 24 := by
        rw [← hc, h1, unitsPerOne_eq, mul_comm (2 ^ 149)]
        calc _ < 2 ^ 24 * 2 ^ unitExp (mag r) := Nat.mul_lt_mul_of_pos_right h2 (by positivity)
          _ ≤ _ := Nat.mul_le_mul_left _ (Nat.pow_le_pow_right (by norm_num) (by omega))
      exact Nat.lt_of_mul_lt_mul_left this
  obtain ⟨m1, m2, m3⟩ := mul_exact hr q1 hs (show k - b ≤ 253 by omega) (by
    rw [he, q3, unitsPerOne_eq, mul_assoc, mul_assoc, ← pow_add, ← pow_add, show k + (149 - b) = k - b + 149 by omega])
  obtain ⟨n1, n2, n3⟩ := mul_exact m1 p1 hs hk2 (by
    rw [m3, p3, unitsPerOne_eq, mul_assoc, mul_assoc, ← pow_add, ← pow_add, show k - b + (149 + b) = k + 149 by omega])
  refine ⟨m1, ?_, ext_units n1 hr (by rw [n2, m2, p2, q2]; simp) (by rw [n3, he])⟩
  intro hz
  rw [← absUnits_eq_zero, m3] at hz
  apply h0
  rw [← absUnits_eq_zero, he]
  rcases Nat.mul_eq_zero.1 hz with h | h
  · rw [h, zero_mul]
  · exact absurd h (by positivity)

end Sys2Proof.Machine.F32
end

