-- ==== Sys2Proof/Laws/Params.lean ====
section
/-! SUPPORT. What a parameter store leaves: a value that obeys its row (00_scope.md R14, R18; 10_state.md R48), and the tables'
rows (42_voice_engine.md R170, 43_mastering_fx.md R210). -/

namespace Sys2Proof.Machine

open Sys2Proof.Machine.F32

/-- A row makes sense: its default lies in its range, an integer row's bounds are finite, whole and not negative, a boolean
row's range is [0, 1]. -/
def specOk (spec : ParamSpec) : Bool :=
  le spec.lo spec.dflt && le spec.dflt spec.hi && isFinite spec.hi && isFinite spec.lo &&
  (spec.kind != .integer || (!sign spec.lo && isWhole spec.lo && isWhole spec.dflt)) &&
  (spec.kind != .boolean || (spec.lo == zero && spec.hi == one && (spec.dflt == zero || spec.dflt == one)))

theorem synthSpec_ok : ∀ i : Fin 8, specOk (synthSpec i) = true := by decide

theorem fxSpec_ok : ∀ i : Fin 29, specOk (fxSpec i) = true := by decide

/-- Every value that a store writes obeys the row, whatever was asked for. -/
theorem paramStore_ok {spec : ParamSpec} (h : specOk spec = true) (v : Word) : paramOk spec (paramStore spec v) := by
  simp only [specOk, Bool.and_eq_true, Bool.or_eq_true, bne_iff_ne, ne_eq, beq_iff_eq, Bool.not_eq_true'] at h
  obtain ⟨⟨⟨⟨⟨hlo, hhi⟩, hfh⟩, -⟩, hint⟩, hbool⟩ := h
  obtain ⟨h1, h2⟩ := pclamp_range (v := v) hlo hhi
  unfold paramOk paramStore
  cases hk : spec.kind with
  | boolean =>
    obtain ⟨⟨hl, hh⟩, -⟩ := hbool.resolve_left (fun h => h hk)
    rw [hl, hh]
    by_cases hv : le half v = true
    · simp only [if_pos hv]; exact ⟨by decide, by decide, by simp, by simp⟩
    · simp only [if_neg hv]; exact ⟨by decide, by decide, by simp, by simp⟩
  | integer =>
    obtain ⟨⟨hs, hw⟩, -⟩ := hint.resolve_left (fun h => h hk)
    obtain ⟨hf, hl, hu⟩ := trunc_range h1 h2 hs hw hfh
    exact ⟨hl, hu, fun _ => isWhole_trunc hf, by simp⟩
  | real => exact ⟨h1, h2, by simp, by simp⟩

/-- A row's default obeys the row. -/
theorem dflt_ok {spec : ParamSpec} (h : specOk spec = true) : paramOk spec spec.dflt := by
  simp only [specOk, Bool.and_eq_true, Bool.or_eq_true, bne_iff_ne, ne_eq, beq_iff_eq, Bool.not_eq_true'] at h
  obtain ⟨⟨⟨⟨⟨hlo, hhi⟩, -⟩, -⟩, hint⟩, hbool⟩ := h
  exact ⟨hlo, hhi, fun hk => (hint.resolve_left (fun h => h hk)).2, fun hk => (hbool.resolve_left (fun h => h hk)).2⟩

theorem synthDefaults_get : ∀ i : Fin 8, synthDefaults[i] = (synthSpec i).dflt := by decide

theorem fxDefaults_get : ∀ i : Fin 29, fxDefaults[i] = (fxSpec i).dflt := by decide

theorem synthDefaults_ok (i : Fin 8) : paramOk (synthSpec i) synthDefaults[i] := by
  rw [synthDefaults_get]; exact dflt_ok (synthSpec_ok i)

theorem fxDefaults_ok (i : Fin 29) : paramOk (fxSpec i) fxDefaults[i] := by
  rw [fxDefaults_get]; exact dflt_ok (fxSpec_ok i)

/-! ### Parameter ids -/

theorem paramIndex_some {n : Nat} {id : Int} {i : Fin n} : paramIndex n id = some i ↔ id = (i.val : Int) := by
  unfold paramIndex
  constructor
  · intro h
    split at h
    · rename_i hc
      have := congrArg Fin.val (Option.some.inj h)
      simp only at this
      omega
    · cases h
  · rintro rfl
    rw [dif_pos ⟨by omega, by simp⟩]
    rfl

theorem paramIndex_none {n : Nat} {id : Int} : paramIndex n id = none ↔ id < 0 ∨ (n : Int) ≤ id := by
  unfold paramIndex
  constructor
  · intro h
    split at h
    · cases h
    · rename_i hc
      by_contra hn
      exact hc ⟨by omega, by omega⟩
  · intro h
    rw [dif_neg (by omega)]

/-- The parameter files after a store. -/
theorem paramsOk_set {n : Nat} {spec : Fin n → ParamSpec} {p : Vector Word n} (hs : ∀ i, specOk (spec i) = true)
    (h : ∀ i : Fin n, paramOk (spec i) p[i]) (j : Fin n) (v : Word) (i : Fin n) :
    paramOk (spec i) (p.set j (paramStore (spec j) v))[i] := by
  by_cases hij : j = i
  · subst hij; simpa using paramStore_ok (hs j) v
  · have : (j : Nat) ≠ i := fun e => hij (Fin.ext e)
    simpa [this] using h i

/-- An integer parameter's value, from its range. -/
theorem wholePart_of_range {v lo hi : Word} (hl : le lo v = true) (hh : le v hi = true) (h0 : sign lo = false)
    (hf : isFinite hi = true) : wholePart lo ≤ wholePart v ∧ wholePart v ≤ wholePart hi := by
  obtain ⟨-, hn, hkl⟩ := le_iff.1 hl
  obtain ⟨-, -, hkh⟩ := le_iff.1 hh
  have hflo : isFinite lo = true ∧ mag lo ≤ mag v ∧ mag v ≤ mag hi ∧ isFinite v = true := by
    have h3 := finite_mag_lt hf
    unfold key at hkl hkh
    simp only [h0, Bool.false_eq_true, if_false] at hkl
    simp only [isFinite, decide_eq_true_eq]
    split_ifs at hkl hkh <;> omega
  obtain ⟨h1, h2, h3, h4⟩ := hflo
  rw [wholePart_eq, wholePart_eq, wholePart_eq]
  exact ⟨Nat.div_le_div_right ((mag_units_le h1 h4).2 h2), Nat.div_le_div_right ((mag_units_le h4 hf).2 h3)⟩

end Sys2Proof.Machine
end

