-- ==== Sys2Proof/Laws/Effects.lean ====
section
/-! SUPPORT. What the FxProcessor's stages do to its history: which elements each may change, and the ranges of 10_state.md R47
(43_mastering_fx.md R212 to R226, 44_truepeak_lofi_dither.md). -/

namespace Sys2Proof.Machine

open Sys2Proof.Machine.F32

/-! ### The decimator counter (44 R259) -/

theorem fxOk_decimN {p : FxParams} (h : ∀ i : Fin 29, paramOk (fxSpec i) p[i]) :
    1 ≤ wholePart p[6] ∧ wholePart p[6] ≤ 64 := by
  obtain ⟨h1, h2, -, -⟩ := h 6
  obtain ⟨h3, h4⟩ := wholePart_of_range h1 h2 (by decide) (by decide)
  have h5 : wholePart (fxSpec 6).lo = 1 := by decide
  have h6 : wholePart (fxSpec 6).hi = 64 := by decide
  rw [h5] at h3; rw [h6] at h4
  exact ⟨h3, h4⟩

theorem crush_count {p : FxParams} (h : ∀ i : Fin 29, paramOk (fxSpec i) p[i]) {ch : FxChannel} {x : Word}
    (hc : ch.dmCnt < 64) : (crush p ch x).1.dmCnt < 64 := by
  unfold crush
  split
  · unfold bitCrush; dsimp only; split <;> exact hc
  · have := fxOk_decimN h
    exact (Nat.mod_lt _ (by omega)).trans_le this.2

/-! ### What a stage may change -/

/-- A property of a channel that its stage keeps is kept by the stage over both channels. -/
theorem channelStage_keeps {P : FxChannel → Prop} {stage : FxChannel → Word → FxChannel × Word}
    (hs : ∀ ch x, P ch → P (stage ch x).1) (en : Bool) (r : FxHistory × Frame) (h : P r.1.left ∧ P r.1.right) :
    P (channelStage en stage r).1.left ∧ P (channelStage en stage r).1.right := by
  unfold channelStage
  split
  · exact ⟨hs _ _ h.1, hs _ _ h.2⟩
  · exact h

/-- A property of the history that its stage keeps is kept by the shared stage over both channels. -/
theorem sharedStage_keeps {P : FxHistory → Prop} {stage : Channel → FxHistory → Word → FxHistory × Word}
    (hs : ∀ c h x, P h → P (stage c h x).1) (en : Bool) (r : FxHistory × Frame) (h : P r.1) :
    P (sharedStage en stage r).1 := by
  unfold sharedStage
  split
  · exact hs _ _ _ (hs _ _ _ h)
  · exact h

@[simp] theorem plainStage_history (en : Bool) (stage : Word → Word) (r : FxHistory × Frame) :
    (plainStage en stage r).1 = r.1 := by unfold plainStage; split <;> rfl

@[simp] theorem frameStage_history (stage : Frame → Frame) (r : FxHistory × Frame) : (frameStage stage r).1 = r.1 := rfl

@[simp] theorem frameStage_frame (stage : Frame → Frame) (r : FxHistory × Frame) : (frameStage stage r).2 = stage r.2 := rfl

/-- A stage with state of each channel leaves what the channels share alone. -/
theorem channelStage_shared (en : Bool) (stage : FxChannel → Word → FxChannel × Word) (r : FxHistory × Frame) :
    (channelStage en stage r).1.tpEnv = r.1.tpEnv ∧ (channelStage en stage r).1.tpG = r.1.tpG ∧
    (channelStage en stage r).1.prng = r.1.prng := by
  unfold channelStage; split <;> exact ⟨rfl, rfl, rfl⟩

/-- A disabled stage changes nothing (R212). -/
@[simp] theorem channelStage_off (stage : FxChannel → Word → FxChannel × Word) (r : FxHistory × Frame) :
    channelStage false stage r = r := rfl

@[simp] theorem sharedStage_off (stage : Channel → FxHistory → Word → FxHistory × Word) (r : FxHistory × Frame) :
    sharedStage false stage r = r := rfl

/-! ### What the history's readers see of each stage -/

theorem dcStep_others (sr : Word) (p : FxParams) (ch : FxChannel) (x : Word) :
    (dcStep sr p ch x).1 = { ch with dcX1 := x, dcY1 := (dcStep sr p ch x).2 } := rfl

theorem bitCrush_others (p : FxParams) (ch : FxChannel) (x : Word) :
    (bitCrush p ch x).1 =
      { ch with crPhase := (bitCrush p ch x).1.crPhase, crHeld := (bitCrush p ch x).1.crHeld } := by
  unfold bitCrush; dsimp only; split <;> rfl

theorem decimate_others (p : FxParams) (ch : FxChannel) (x : Word) :
    (decimate p ch x).1 = { ch with dmCnt := (decimate p ch x).1.dmCnt, dmHeld := (decimate p ch x).1.dmHeld } := rfl

theorem comp_others (sr : Word) (p : FxParams) (ch : FxChannel) (x : Word) :
    (comp sr p ch x).1 = { ch with compEnv := (comp sr p ch x).1.compEnv } := rfl

/-- The true-peak stage shifts its channel's history and moves the shared envelope and gain; nothing else. -/
theorem tpStep_history (sr : Word) (p : FxParams) (c : Channel) (h : FxHistory) (x : Word) :
    ∃ e g, (tpStep sr p c h x).1 = { putChannel h c (tpShift (channelOf h c) x) with tpEnv := e, tpG := g } :=
  ⟨_, _, rfl⟩

/-- The true-peak stage from what its sub-samples give: the new envelope and gain, and their mean (44 R255). -/
theorem tpStep_of_subs {sr : Word} {p : FxParams} {c : Channel} {h : FxHistory} {x e g acc : Word}
    (hs : tpSubs sr p (tpShift (channelOf h c) x) tpOffsets h.tpEnv h.tpG zero = (e, g, acc)) :
    tpStep sr p c h x = ({ putChannel h c (tpShift (channelOf h c) x) with tpEnv := e, tpG := g }, mul acc quarter) := by
  unfold tpStep; dsimp only; rw [hs]

/-- How many draws a dither type takes for a sample (44 R266): one for rectangular dither, two for the others. -/
def drawsOf (kind : Nat) : Nat := if kind = 1 then 1 else 2

/-- A ditherer takes its draws and, if it is noise-shaped, stores its channel's error; nothing else. -/
theorem dither_history (p : FxParams) (c : Channel) (h : FxHistory) (x : Word) :
    ∃ e, (dither p c h x).1 =
      { putChannel h c { channelOf h c with nsErr := e } with prng := prngAfter (drawsOf (wholePart p[26])) h.prng } := by
  unfold dither
  dsimp only
  generalize wholePart p[26] = k
  match k with
  | 0 => exact ⟨(channelOf h c).nsErr, by cases c <;> rfl⟩
  | 1 => exact ⟨(channelOf h c).nsErr, by cases c <;> rfl⟩
  | n + 2 =>
    have : drawsOf (n + 2) = 2 := if_neg (by omega)
    rw [this]
    exact ⟨_, rfl⟩

/-- The ditherer of each type (44 R262). -/
theorem dither_tpdf {p : FxParams} (hk : wholePart p[26] = 0) (c : Channel) (h : FxHistory) (x : Word) :
    dither p c h x = tpdf p (wholePart p[27]) h x := by unfold dither; rw [hk]; rfl

theorem dither_rectangular {p : FxParams} (hk : wholePart p[26] = 1) (c : Channel) (h : FxHistory) (x : Word) :
    dither p c h x = rectangular p (wholePart p[27]) h x := by unfold dither; rw [hk]; rfl

theorem dither_noiseShaped {p : FxParams} (hk : wholePart p[26] = 2) (c : Channel) (h : FxHistory) (x : Word) :
    dither p c h x = noiseShaped (wholePart p[27]) c h x := by unfold dither; rw [hk]; rfl

/-- Draws add up. -/
theorem prngAfter_add (m n : Nat) (s : BitVec 31) : prngAfter n (prngAfter m s) = prngAfter (m + n) s := by
  induction n with
  | zero => rfl
  | succ n ih => exact congrArg prngNext ih

/-- The draws of a frame: those of its two samples (44 R266). -/
theorem draws_of_frame (kind : Nat) (s : BitVec 31) :
    prngAfter (drawsOf kind) (prngAfter (drawsOf kind) s) = prngAfter (if kind = 1 then 2 else 4) s := by
  rw [prngAfter_add]; unfold drawsOf; split <;> rfl

/-! ### The counters along the pipeline -/

/-- Both decimator counters lie in 0..63 (10_state.md R47). -/
def countsOk (h : FxHistory) : Prop := h.left.dmCnt < 64 ∧ h.right.dmCnt < 64

theorem tpStep_counts {sr : Word} {p : FxParams} {c : Channel} {h : FxHistory} {x : Word} (hc : countsOk h) :
    countsOk (tpStep sr p c h x).1 := by
  obtain ⟨e, g, he⟩ := tpStep_history sr p c h x
  rw [he]; cases c <;> exact hc

theorem dither_counts {p : FxParams} {c : Channel} {h : FxHistory} {x : Word} (hc : countsOk h) :
    countsOk (dither p c h x).1 := by
  obtain ⟨e, he⟩ := dither_history p c h x
  rw [he]; cases c <;> exact hc

theorem fxPipeline_counts {sr : Word} {p : FxParams} {h : FxHistory} {fr : Frame}
    (hp : ∀ i : Fin 29, paramOk (fxSpec i) p[i]) (hc : countsOk h) : countsOk (fxPipeline sr p h fr).1 := by
  simp only [fxPipeline, frameStage_history]
  refine sharedStage_keeps (fun _ _ _ => dither_counts) _ _ (sharedStage_keeps (fun _ _ _ => tpStep_counts) _ _ ?_)
  simp only [frameStage_history]
  refine channelStage_keeps (P := fun ch => ch.dmCnt < 64) (fun _ _ h => h) _ _ ?_
  simp only [plainStage_history]
  refine channelStage_keeps (P := fun ch => ch.dmCnt < 64) (fun _ _ h => crush_count hp h) _ _ ?_
  exact channelStage_keeps (P := fun ch => ch.dmCnt < 64) (fun _ _ h => h) _ _ hc

theorem fxFrame_ok {sr : Word} {x : Fx} {fr : Frame} (h : fxOk x) : fxOk (fxFrame sr x fr).1 := by
  obtain ⟨h1, h2⟩ := fxPipeline_counts (sr := sr) (fr := fr) h.params ⟨h.countLeft, h.countRight⟩
  exact ⟨h.params, h1, h2⟩

theorem freshHistory_counts : countsOk freshHistory := by unfold countsOk; decide

theorem fxReset_ok {x : Fx} (h : fxOk x) : fxOk (fxReset x) := ⟨h.params, freshHistory_counts.1, freshHistory_counts.2⟩

theorem newFx_ok : fxOk newFx := ⟨fxDefaults_ok, freshHistory_counts.1, freshHistory_counts.2⟩

theorem fxParamSet_ok {id : Int} {v : Word} {x y : Fx} (h : fxOk x) (hy : fxParamSet id v x = some y) : fxOk y := by
  obtain ⟨i, -, rfl⟩ := Option.map_eq_some_iff.1 hy
  exact ⟨paramsOk_set fxSpec_ok h.params i v, h.countLeft, h.countRight⟩

/-- The pipeline's output is what the hard limiter leaves (R212, R224). -/
theorem fxPipeline_limited (sr : Word) (p : FxParams) (h : FxHistory) (fr : Frame) :
    ∃ w : Frame, (fxPipeline sr p h fr).2 = limit p w := ⟨_, rfl⟩

/-! ### A field along the pipeline (R212) -/

theorem crush_others (p : FxParams) (ch : FxChannel) (x : Word) :
    (crush p ch x).1 =
      { ch with
        crPhase := (crush p ch x).1.crPhase, crHeld := (crush p ch x).1.crHeld,
        dmCnt := (crush p ch x).1.dmCnt, dmHeld := (crush p ch x).1.dmHeld } := by
  unfold crush
  split
  · rw [bitCrush_others]
  · rfl

/-- What a stage keeps of a channel, the stage over both channels keeps of each. -/
theorem channelStage_field {α : Type} (f : FxChannel → α) {stage : FxChannel → Word → FxChannel × Word}
    (hs : ∀ ch x, f (stage ch x).1 = f ch) (en : Bool) (r : FxHistory × Frame) :
    f (channelStage en stage r).1.left = f r.1.left ∧ f (channelStage en stage r).1.right = f r.1.right := by
  unfold channelStage
  split
  · exact ⟨hs _ _, hs _ _⟩
  · exact ⟨rfl, rfl⟩

/-- What a shared stage keeps of the history, it keeps over both channels. -/
theorem sharedStage_field {α : Type} (f : FxHistory → α) {stage : Channel → FxHistory → Word → FxHistory × Word}
    (hs : ∀ c h x, f (stage c h x).1 = f h) (en : Bool) (r : FxHistory × Frame) : f (sharedStage en stage r).1 = f r.1 := by
  unfold sharedStage
  split
  · exact (hs _ _ _).trans (hs _ _ _)
  · rfl

/-- A pass over both channels keeps f of each channel. -/
def KeepsEach {α : Type} (f : FxChannel → α) (pass : FxHistory × Frame → FxHistory × Frame) : Prop :=
  ∀ r, f (pass r).1.left = f r.1.left ∧ f (pass r).1.right = f r.1.right

/-- What every stage with state keeps of each channel, the pipeline keeps. -/
theorem fxPipeline_field {α : Type} (f : FxChannel → α) (sr : Word) (p : FxParams) (h : FxHistory) (fr : Frame)
    (h1 : KeepsEach f (channelStage (isOn p[0]) (dcStep sr p))) (h2 : KeepsEach f (channelStage (isOn p[2]) (crush p)))
    (h3 : KeepsEach f (channelStage (isOn p[12]) (comp sr p))) (h4 : KeepsEach f (sharedStage (isOn p[21]) (tpStep sr p)))
    (h5 : KeepsEach f (sharedStage (isOn p[25]) (dither p))) :
    f (fxPipeline sr p h fr).1.left = f h.left ∧ f (fxPipeline sr p h fr).1.right = f h.right := by
  simp only [fxPipeline, frameStage_history]
  constructor
  · rw [(h5 _).1, (h4 _).1]
    simp only [frameStage_history]
    rw [(h3 _).1]
    simp only [plainStage_history]
    rw [(h2 _).1, (h1 _).1]
  · rw [(h5 _).2, (h4 _).2]
    simp only [frameStage_history]
    rw [(h3 _).2]
    simp only [plainStage_history]
    rw [(h2 _).2, (h1 _).2]

/-- What the true-peak stage and the ditherer keep of the shared elements, the pipeline keeps, if the channel stages do. -/
theorem fxPipeline_shared {α : Type} (f : FxHistory → α) (sr : Word) (p : FxParams) (h : FxHistory) (fr : Frame)
    (h1 : ∀ en stage r, f (channelStage en stage r).1 = f r.1) (h4 : ∀ r, f (sharedStage (isOn p[21]) (tpStep sr p) r).1 = f r.1)
    (h5 : ∀ r, f (sharedStage (isOn p[25]) (dither p) r).1 = f r.1) : f (fxPipeline sr p h fr).1 = f h := by
  simp only [fxPipeline, frameStage_history]
  rw [h5, h4]
  simp only [frameStage_history]
  rw [h1]
  simp only [plainStage_history]
  rw [h1, h1]

/-! ### A stage channel by channel (R212) -/

@[simp] theorem channelOf_putChannel (h : FxHistory) (c : Channel) (ch : FxChannel) : channelOf (putChannel h c ch) c = ch := by
  cases c <;> rfl

@[simp] theorem sampleOf_limit (p : FxParams) (fr : Frame) (c : Channel) :
    sampleOf (limit p fr) c = sclamp (sampleOf fr c) p[20] := by cases c <;> rfl

@[simp] theorem sampleOf_fxGain (p : FxParams) (fr : Frame) (c : Channel) :
    sampleOf (fxGain p fr) c = mul (sampleOf fr c) p[19] := by cases c <;> rfl

/-- What a stage with state of each channel leaves on a channel: what the stage gives on it alone, if it is on. -/
theorem channelStage_at (en : Bool) (stage : FxChannel → Word → FxChannel × Word) (r : FxHistory × Frame) (c : Channel) :
    (channelOf (channelStage en stage r).1 c, sampleOf (channelStage en stage r).2 c) =
      if en then stage (channelOf r.1 c) (sampleOf r.2 c) else (channelOf r.1 c, sampleOf r.2 c) := by
  cases en <;> cases c <;> rfl

/-- What a stateless stage leaves on a channel. -/
theorem plainStage_at (en : Bool) (stage : Word → Word) (r : FxHistory × Frame) (c : Channel) :
    sampleOf (plainStage en stage r).2 c = if en then stage (sampleOf r.2 c) else sampleOf r.2 c := by
  cases en <;> cases c <;> rfl

/-- The pipeline is its stages one after another, in R212's order. -/
theorem fxPipeline_chain {sr : Word} {p : FxParams} {h : FxHistory} {fr : Frame}
    {r1 r2 r3 r4 r5 r6 r7 r8 r9 r10 : FxHistory × Frame}
    (h1 : r1 = channelStage (isOn p[0]) (dcStep sr p) (h, fr)) (h2 : r2 = channelStage (isOn p[2]) (crush p) r1)
    (h3 : r3 = plainStage (isOn p[7]) (softClip p) r2) (h4 : r4 = plainStage (isOn p[9]) (tape p) r3)
    (h5 : r5 = channelStage (isOn p[12]) (comp sr p) r4) (h6 : r6 = frameStage (width p) r5)
    (h7 : r7 = frameStage (fxGain p) r6) (h8 : r8 = frameStage (limit p) r7)
    (h9 : r9 = sharedStage (isOn p[21]) (tpStep sr p) r8) (h10 : r10 = sharedStage (isOn p[25]) (dither p) r9) :
    fxPipeline sr p h fr = frameStage (limit p) r10 := by
  subst h10 h9 h8 h7 h6 h5 h4 h3 h2 h1; rfl

/-! ### Coefficients and draws -/

/-- The DC blocker's coefficient lies in [0.9, 0.9999] (R215): finite, positive, nonzero and at most 1.0. -/
theorem dcCoeff_range (sr : Word) (p : FxParams) :
    isFinite (dcCoeff sr p) = true ∧ sign (dcCoeff sr p) = false ∧ mag (dcCoeff sr p) ≤ mag one ∧ mag (dcCoeff sr p) ≠ 0 := by
  obtain ⟨h1, h2⟩ := pclamp_range (v := sub one (div (mul twoPi p[1]) sr)) (lo := 0x3F666666#32) (hi := 0x3F7FF972#32)
    (d := 0x3F7FF972#32) (by decide) (by decide)
  have e : dcCoeff sr p = pclamp (sub one (div (mul twoPi p[1]) sr)) 0x3F666666#32 0x3F7FF972#32 0x3F7FF972#32 := rfl
  rw [← e] at h1 h2
  generalize dcCoeff sr p = c at *
  obtain ⟨-, -, a⟩ := le_iff.1 h1
  obtain ⟨-, -, b⟩ := le_iff.1 h2
  have e1 : key 0x3F666666#32 = 1063675494 := by decide
  have e2 : key 0x3F7FF972#32 = 1065351538 := by decide
  rw [e1] at a; rw [e2] at b
  have e3 : mag one = 1065353216 := by decide
  have hs : sign c = false := by
    cases h : sign c with
    | false => rfl
    | true => unfold key at a; simp only [h, if_true] at a; omega
  have hm : key c = mag c := by simp [key, hs]
  exact ⟨decide_eq_true (by unfold infMag; omega), hs, by omega, by omega⟩

/-- The generator's next state as a number (44 R260). -/
theorem prngNext_toNat (s : BitVec 31) : (prngNext s).toNat = (s.toNat * 1103515245 + 12345) % 2 ^ 31 := by
  have h1 : (1103515245#31).toNat = 1103515245 := by decide
  have h2 : (12345#31).toNat = 12345 := by decide
  rw [prngNext, BitVec.toNat_add, BitVec.toNat_mul, h1, h2, Nat.mod_add_mod]

/-- A draw's value is exact (44 R261). -/
theorem prngValue_facts (s : BitVec 31) :
    isFinite (prngValue s) = true ∧ sign (prngValue s) = false ∧ absUnits (prngValue s) = s.toNat / 2 ^ 7 * 2 ^ 125 := by
  have hs := s.isLt
  have hlt : s.toNat / 2 ^ 7 < 2 ^ 24 := by omega
  have hnat : ((s.toNat / 2 ^ 7 : Nat) : Int).natAbs = s.toNat / 2 ^ 7 := Int.natAbs_natCast _
  obtain ⟨h1, h2, h3⟩ := ofInt_exact (n := ((s.toNat / 2 ^ 7 : Nat) : Int)) (by rw [hnat]; exact hlt)
  obtain ⟨p1, p2, p3⟩ := pow2_facts (k := -24) (by norm_num) (by norm_num)
  rw [hnat] at h3
  have hneg : sign (ofInt ((s.toNat / 2 ^ 7 : Nat) : Int)) = false := by rw [h2]; exact decide_eq_false (by omega)
  obtain ⟨m1, m2, m3⟩ := mul_exact h1 p1 hlt (show 125 ≤ 253 by norm_num) (by
    rw [h3, p3, show (149 + (-24 : Int)).toNat = 125 by decide]; ring)
  exact ⟨m1, by rw [prngValue, m2, hneg, p2]; rfl, m3⟩

end Sys2Proof.Machine
end

