-- ==== Sys2Proof/Laws/Memory.lean ====
section
/-! SUPPORT. Laws of the sample buffer: a read after a write, every other byte unchanged, and the canonical form
(10_state.md R42, 20_memory.md R71, R77). -/

namespace Sys2Proof.Machine

/-! ### BUF's place in the window -/

/-- BUF is offsets 0x8000 to 0xFFFF (20_memory.md R70). -/
theorem inBuf_iff {off : Nat} : inBuf off = true ↔ 0x8000 ≤ off ∧ off < 0x10000 := by
  rw [inBuf, Bool.and_eq_true, decide_eq_true_eq, decide_eq_true_eq]
  unfold bufBase Config.maxFrames
  omega

theorem not_inBuf_of_lt {off : Nat} (h : off < 0x8000) : inBuf off = false := by
  rw [Bool.eq_false_iff]; intro h'; have := inBuf_iff.1 h'; omega

/-! ### Bytes -/

theorem lookupByte_writeByte_self (m : Memory) (a : Nat) (v : Byte) : lookupByte (writeByte m a v) a = some v := by
  induction m with
  | nil => simp [writeByte, lookupByte]
  | cons c rest ih =>
    obtain ⟨b, w⟩ := c
    unfold writeByte
    split
    · simp [lookupByte]
    · split
      · simp [lookupByte]
      · rename_i h1 h2
        simp [lookupByte, ih, Ne.symm h2]

theorem lookupByte_writeByte_of_ne (m : Memory) {a b : Nat} (h : a ≠ b) (v : Byte) :
    lookupByte (writeByte m a v) b = lookupByte m b := by
  induction m with
  | nil => simp [writeByte, lookupByte, h]
  | cons c rest ih =>
    obtain ⟨e, w⟩ := c
    unfold writeByte
    split
    · simp [lookupByte, h]
    · split
      · rename_i h1 h2
        subst h2
        simp [lookupByte, h]
      · simp [lookupByte, ih]

/-- A byte reads back as written. -/
@[simp] theorem readByte_writeByte_self (m : Memory) (a : Nat) (v : Byte) : readByte (writeByte m a v) a = v := by
  simp [readByte, lookupByte_writeByte_self]

/-- A write leaves every other byte alone. -/
theorem readByte_writeByte_of_ne (m : Memory) {a b : Nat} (h : a ≠ b) (v : Byte) :
    readByte (writeByte m a v) b = readByte m b := by
  simp [readByte, lookupByte_writeByte_of_ne m h]

/-! ### The canonical form -/

/-- Every listed address is above `a`. -/
def allAbove (a : Nat) (m : Memory) : Prop := ∀ c ∈ m, a < c.1

theorem Memory.wf_cons {c : Host.Cell} {m : Memory} : Memory.wf (c :: m) = true ↔ allAbove c.1 m ∧ Memory.wf m = true := by
  induction m generalizing c with
  | nil => simp [Memory.wf, allAbove]
  | cons d rest ih =>
    simp only [Memory.wf, Bool.and_eq_true, decide_eq_true_eq]
    constructor
    · rintro ⟨h1, h2⟩
      refine ⟨?_, h2⟩
      intro e he
      rcases List.mem_cons.1 he with rfl | he
      · exact h1
      · exact h1.trans ((ih.1 h2).1 e he)
    · rintro ⟨h1, h2⟩
      exact ⟨h1 d (by simp), h2⟩

theorem allAbove_writeByte {a b : Nat} {m : Memory} (v : Byte) (h : allAbove a m) (hb : a < b) :
    allAbove a (writeByte m b v) := by
  induction m with
  | nil => simpa [writeByte, allAbove] using hb
  | cons c rest ih =>
    obtain ⟨e, w⟩ := c
    have hr : allAbove a rest := fun x hx => h x (List.mem_cons_of_mem _ hx)
    have he : a < e := h (e, w) (by simp)
    unfold writeByte
    split
    · intro x hx
      simp only [List.mem_cons] at hx
      rcases hx with rfl | rfl | hx
      · exact hb
      · exact he
      · exact hr x hx
    · split
      · intro x hx
        rcases List.mem_cons.1 hx with rfl | hx
        · exact hb
        · exact hr x hx
      · intro x hx
        rcases List.mem_cons.1 hx with rfl | hx
        · exact he
        · exact ih hr x hx

/-- A write keeps the canonical form. -/
theorem Memory.wf_writeByte {m : Memory} (a : Nat) (v : Byte) (h : Memory.wf m = true) :
    Memory.wf (writeByte m a v) = true := by
  induction m with
  | nil => rfl
  | cons c rest ih =>
    obtain ⟨e, w⟩ := c
    obtain ⟨h1, h2⟩ := Memory.wf_cons.1 h
    unfold writeByte
    split
    · rename_i hlt
      refine Memory.wf_cons.2 ⟨?_, h⟩
      intro x hx
      rcases List.mem_cons.1 hx with rfl | hx
      · exact hlt
      · exact hlt.trans (h1 x hx)
    · split
      · rename_i heq
        subst heq
        exact Memory.wf_cons.2 ⟨h1, h2⟩
      · exact Memory.wf_cons.2 ⟨allAbove_writeByte v h1 (by omega), ih h2⟩

/-- The listed addresses after a write: the one written, and those before. -/
theorem mem_writeByte {m : Memory} {a : Nat} {v : Byte} {c : Host.Cell} (h : c ∈ writeByte m a v) : c.1 = a ∨ c ∈ m := by
  induction m with
  | nil => left; simp [writeByte] at h; simp [h]
  | cons d rest ih =>
    obtain ⟨e, w⟩ := d
    unfold writeByte at h
    split at h
    · rcases List.mem_cons.1 h with rfl | h
      · exact .inl rfl
      · exact .inr h
    · split at h
      · rcases List.mem_cons.1 h with rfl | h
        · exact .inl rfl
        · exact .inr (List.mem_cons_of_mem _ h)
      · rcases List.mem_cons.1 h with rfl | h
        · exact .inr (by simp)
        · exact (ih h).imp_right (List.mem_cons_of_mem _)

/-! ### Words -/

theorem word_bytes (v : Word) :
    v.extractLsb' 24 8 ++ v.extractLsb' 16 8 ++ v.extractLsb' 8 8 ++ v.extractLsb' 0 8 = v := by
  apply BitVec.eq_of_getLsbD_eq
  intro i hi
  simp only [BitVec.getLsbD_append, BitVec.getLsbD_extractLsb']
  by_cases h1 : i < 8
  · simp [h1]
  · by_cases h2 : i < 16
    · simp [h1, show i - 8 < 8 by omega, show 8 + (i - 8) = i by omega]
    · by_cases h3 : i < 24
      · simp [h1, show ¬ i - 8 < 8 by omega, show i - 8 - 8 < 8 by omega, show 16 + (i - 8 - 8) = i by omega]
      · simp [h1, show ¬ i - 8 < 8 by omega, show ¬ i - 8 - 8 < 8 by omega, show i - 8 - 8 - 8 < 8 by omega,
          show 24 + (i - 8 - 8 - 8) = i by omega]

/-- A byte outside a written word is as it was. -/
theorem readByte_writeWord_of_ne (m : Memory) {off a : Nat} (h : a < off ∨ off + 4 ≤ a) (v : Word) :
    readByte (writeWord m off v) a = readByte m a := by
  simp only [writeWord]
  rw [readByte_writeByte_of_ne _ (by omega), readByte_writeByte_of_ne _ (by omega), readByte_writeByte_of_ne _ (by omega),
    readByte_writeByte_of_ne _ (by omega)]

/-- The bytes of a written word, little-endian (R71). -/
theorem readByte_writeWord (m : Memory) (off : Nat) (v : Word) :
    readByte (writeWord m off v) off = v.extractLsb' 0 8 ∧ readByte (writeWord m off v) (off + 1) = v.extractLsb' 8 8 ∧
    readByte (writeWord m off v) (off + 2) = v.extractLsb' 16 8 ∧
    readByte (writeWord m off v) (off + 3) = v.extractLsb' 24 8 := by
  simp only [writeWord]
  refine ⟨?_, ?_, ?_, ?_⟩
  · rw [readByte_writeByte_of_ne _ (by omega), readByte_writeByte_of_ne _ (by omega), readByte_writeByte_of_ne _ (by omega),
      readByte_writeByte_self]
  · rw [readByte_writeByte_of_ne _ (by omega), readByte_writeByte_of_ne _ (by omega), readByte_writeByte_self]
  · rw [readByte_writeByte_of_ne _ (by omega), readByte_writeByte_self]
  · rw [readByte_writeByte_self]

/-- A word reads back as written (R77). -/
@[simp] theorem readWord_writeWord_self (m : Memory) (off : Nat) (v : Word) : readWord (writeWord m off v) off = v := by
  obtain ⟨h0, h1, h2, h3⟩ := readByte_writeWord m off v
  rw [readWord, h0, h1, h2, h3, word_bytes]

/-- A word that does not meet a written one is as it was. -/
theorem readWord_writeWord_of_ne (m : Memory) {off a : Nat} (h : a + 4 ≤ off ∨ off + 4 ≤ a) (v : Word) :
    readWord (writeWord m off v) a = readWord m a := by
  unfold readWord
  rw [readByte_writeWord_of_ne m (by omega), readByte_writeWord_of_ne m (by omega), readByte_writeWord_of_ne m (by omega),
    readByte_writeWord_of_ne m (by omega)]

theorem Memory.wf_writeWord {m : Memory} (off : Nat) (v : Word) (h : Memory.wf m = true) :
    Memory.wf (writeWord m off v) = true :=
  Memory.wf_writeByte _ _ (Memory.wf_writeByte _ _ (Memory.wf_writeByte _ _ (Memory.wf_writeByte _ _ h)))

theorem mem_writeWord {m : Memory} {off : Nat} {v : Word} {c : Host.Cell} (h : c ∈ writeWord m off v) :
    (off ≤ c.1 ∧ c.1 < off + 4) ∨ c ∈ m := by
  simp only [writeWord] at h
  rcases mem_writeByte h with h | h
  · left; omega
  rcases mem_writeByte h with h | h
  · left; omega
  rcases mem_writeByte h with h | h
  · left; omega
  rcases mem_writeByte h with h | h
  · left; omega
  · exact .inr h

/-! ### Frames -/

theorem Memory.wf_writeFrame {m : Memory} (f : Nat) (fr : Frame) (h : Memory.wf m = true) :
    Memory.wf (writeFrame m f fr) = true := Memory.wf_writeWord _ _ (Memory.wf_writeWord _ _ h)

/-- The frame just written reads back. -/
@[simp] theorem readFrame_writeFrame_self (m : Memory) (f : Nat) (fr : Frame) : readFrame (writeFrame m f fr) f = fr := by
  unfold readFrame writeFrame
  rw [readWord_writeWord_self, readWord_writeWord_of_ne _ (by omega), readWord_writeWord_self]

/-- Every other frame is as it was. -/
theorem readFrame_writeFrame_of_ne (m : Memory) {f g : Nat} (h : f ≠ g) (fr : Frame) :
    readFrame (writeFrame m f fr) g = readFrame m g := by
  have : frameOffset g + 8 ≤ frameOffset f ∨ frameOffset f + 8 ≤ frameOffset g := by unfold frameOffset; omega
  unfold readFrame writeFrame
  rw [readWord_writeWord_of_ne _ (by omega), readWord_writeWord_of_ne _ (by omega), readWord_writeWord_of_ne _ (by omega),
    readWord_writeWord_of_ne _ (by omega)]

/-- Every byte outside the frame is as it was. -/
theorem readByte_writeFrame_of_ne (m : Memory) {f a : Nat} (h : a < frameOffset f ∨ frameOffset f + 8 ≤ a) (fr : Frame) :
    readByte (writeFrame m f fr) a = readByte m a := by
  unfold writeFrame
  rw [readByte_writeWord_of_ne _ (by omega), readByte_writeWord_of_ne _ (by omega)]

theorem mem_writeFrame {m : Memory} {f : Nat} {fr : Frame} {c : Host.Cell} (h : c ∈ writeFrame m f fr) :
    (frameOffset f ≤ c.1 ∧ c.1 < frameOffset f + 8) ∨ c ∈ m := by
  unfold writeFrame at h
  rcases mem_writeWord h with h | h
  · left; omega
  rcases mem_writeWord h with h | h
  · left; omega
  · exact .inr h

end Sys2Proof.Machine
end

