-- ==== Sys2Proof/Laws/State.lean ====
section
/-! SUPPORT. One lemma per field per named update of the state, each true by unfolding, so that no later proof unfolds a record
update. -/

namespace Sys2Proof.Machine

/-! ### `raiseErr`: sets ERR and CAUSE (60_exceptions.md R282) -/

@[simp] theorem raiseErr_ready (c : ErrCode) (s : State) : (raiseErr c s).ready = s.ready := rfl
@[simp] theorem raiseErr_err (c : ErrCode) (s : State) : (raiseErr c s).err = true := rfl
@[simp] theorem raiseErr_cause (c : ErrCode) (s : State) : (raiseErr c s).cause = errCode c := rfl
@[simp] theorem raiseErr_sr (c : ErrCode) (s : State) : (raiseErr c s).sr = s.sr := rfl
@[simp] theorem raiseErr_mv (c : ErrCode) (s : State) : (raiseErr c s).mv = s.mv := rfl
@[simp] theorem raiseErr_argI (c : ErrCode) (s : State) : (raiseErr c s).argI = s.argI := rfl
@[simp] theorem raiseErr_argF (c : ErrCode) (s : State) : (raiseErr c s).argF = s.argF := rfl
@[simp] theorem raiseErr_resultI (c : ErrCode) (s : State) : (raiseErr c s).resultI = s.resultI := rfl
@[simp] theorem raiseErr_resultF (c : ErrCode) (s : State) : (raiseErr c s).resultF = s.resultF := rfl
@[simp] theorem raiseErr_lcmd (c : ErrCode) (s : State) : (raiseErr c s).lcmd = s.lcmd := rfl
@[simp] theorem raiseErr_rend (c : ErrCode) (s : State) : (raiseErr c s).rend = s.rend := rfl
@[simp] theorem raiseErr_slots (c : ErrCode) (s : State) : (raiseErr c s).slots = s.slots := rfl
@[simp] theorem raiseErr_mem (c : ErrCode) (s : State) : (raiseErr c s).mem = s.mem := rfl
@[simp] theorem raiseErr_turns (c : ErrCode) (s : State) : (raiseErr c s).turns = s.turns := rfl
@[simp] theorem raiseErr_readData (c : ErrCode) (s : State) : (raiseErr c s).readData = s.readData := rfl
@[simp] theorem raiseErr_draws (c : ErrCode) (s : State) : (raiseErr c s).draws = s.draws := rfl

/-! ### `finish`: writes RESULT_I and ends the command (40_engine_commands.md R113) -/

@[simp] theorem finish_ready (r : Word) (s : State) : (finish r s).ready = s.ready := rfl
@[simp] theorem finish_err (r : Word) (s : State) : (finish r s).err = s.err := rfl
@[simp] theorem finish_cause (r : Word) (s : State) : (finish r s).cause = s.cause := rfl
@[simp] theorem finish_sr (r : Word) (s : State) : (finish r s).sr = s.sr := rfl
@[simp] theorem finish_mv (r : Word) (s : State) : (finish r s).mv = s.mv := rfl
@[simp] theorem finish_argI (r : Word) (s : State) : (finish r s).argI = s.argI := rfl
@[simp] theorem finish_argF (r : Word) (s : State) : (finish r s).argF = s.argF := rfl
@[simp] theorem finish_resultI (r : Word) (s : State) : (finish r s).resultI = r := rfl
@[simp] theorem finish_resultF (r : Word) (s : State) : (finish r s).resultF = s.resultF := rfl
@[simp] theorem finish_lcmd (r : Word) (s : State) : (finish r s).lcmd = none := rfl
@[simp] theorem finish_rend (r : Word) (s : State) : (finish r s).rend = none := rfl
@[simp] theorem finish_slots (r : Word) (s : State) : (finish r s).slots = s.slots := rfl
@[simp] theorem finish_mem (r : Word) (s : State) : (finish r s).mem = s.mem := rfl
@[simp] theorem finish_turns (r : Word) (s : State) : (finish r s).turns = s.turns := rfl
@[simp] theorem finish_readData (r : Word) (s : State) : (finish r s).readData = s.readData := rfl
@[simp] theorem finish_draws (r : Word) (s : State) : (finish r s).draws = s.draws := rfl

/-! ### `putSlot`: stores a slot -/

@[simp] theorem putSlot_ready (k : Fin Config.maxInstruments) (sl : Slot) (s : State) : (putSlot k sl s).ready = s.ready := rfl
@[simp] theorem putSlot_err (k : Fin Config.maxInstruments) (sl : Slot) (s : State) : (putSlot k sl s).err = s.err := rfl
@[simp] theorem putSlot_cause (k : Fin Config.maxInstruments) (sl : Slot) (s : State) : (putSlot k sl s).cause = s.cause := rfl
@[simp] theorem putSlot_sr (k : Fin Config.maxInstruments) (sl : Slot) (s : State) : (putSlot k sl s).sr = s.sr := rfl
@[simp] theorem putSlot_mv (k : Fin Config.maxInstruments) (sl : Slot) (s : State) : (putSlot k sl s).mv = s.mv := rfl
@[simp] theorem putSlot_argI (k : Fin Config.maxInstruments) (sl : Slot) (s : State) : (putSlot k sl s).argI = s.argI := rfl
@[simp] theorem putSlot_argF (k : Fin Config.maxInstruments) (sl : Slot) (s : State) : (putSlot k sl s).argF = s.argF := rfl
@[simp] theorem putSlot_resultI (k : Fin Config.maxInstruments) (sl : Slot) (s : State) : (putSlot k sl s).resultI = s.resultI := rfl
@[simp] theorem putSlot_resultF (k : Fin Config.maxInstruments) (sl : Slot) (s : State) : (putSlot k sl s).resultF = s.resultF := rfl
@[simp] theorem putSlot_lcmd (k : Fin Config.maxInstruments) (sl : Slot) (s : State) : (putSlot k sl s).lcmd = s.lcmd := rfl
@[simp] theorem putSlot_rend (k : Fin Config.maxInstruments) (sl : Slot) (s : State) : (putSlot k sl s).rend = s.rend := rfl
@[simp] theorem putSlot_slots (k : Fin Config.maxInstruments) (sl : Slot) (s : State) : (putSlot k sl s).slots = s.slots.set k sl := rfl
@[simp] theorem putSlot_mem (k : Fin Config.maxInstruments) (sl : Slot) (s : State) : (putSlot k sl s).mem = s.mem := rfl
@[simp] theorem putSlot_turns (k : Fin Config.maxInstruments) (sl : Slot) (s : State) : (putSlot k sl s).turns = s.turns := rfl
@[simp] theorem putSlot_readData (k : Fin Config.maxInstruments) (sl : Slot) (s : State) : (putSlot k sl s).readData = s.readData := rfl
@[simp] theorem putSlot_draws (k : Fin Config.maxInstruments) (sl : Slot) (s : State) : (putSlot k sl s).draws = s.draws := rfl

/-! ### `latchNext`: latches a command for the next step -/

@[simp] theorem latchNext_ready (c : Command) (s : State) : (latchNext c s).ready = s.ready := rfl
@[simp] theorem latchNext_err (c : Command) (s : State) : (latchNext c s).err = s.err := rfl
@[simp] theorem latchNext_cause (c : Command) (s : State) : (latchNext c s).cause = s.cause := rfl
@[simp] theorem latchNext_sr (c : Command) (s : State) : (latchNext c s).sr = s.sr := rfl
@[simp] theorem latchNext_mv (c : Command) (s : State) : (latchNext c s).mv = s.mv := rfl
@[simp] theorem latchNext_argI (c : Command) (s : State) : (latchNext c s).argI = s.argI := rfl
@[simp] theorem latchNext_argF (c : Command) (s : State) : (latchNext c s).argF = s.argF := rfl
@[simp] theorem latchNext_resultI (c : Command) (s : State) : (latchNext c s).resultI = s.resultI := rfl
@[simp] theorem latchNext_resultF (c : Command) (s : State) : (latchNext c s).resultF = s.resultF := rfl
@[simp] theorem latchNext_lcmd (c : Command) (s : State) : (latchNext c s).lcmd = some c := rfl
@[simp] theorem latchNext_rend (c : Command) (s : State) : (latchNext c s).rend = none := rfl
@[simp] theorem latchNext_slots (c : Command) (s : State) : (latchNext c s).slots = s.slots := rfl
@[simp] theorem latchNext_mem (c : Command) (s : State) : (latchNext c s).mem = s.mem := rfl
@[simp] theorem latchNext_turns (c : Command) (s : State) : (latchNext c s).turns = .core :: s.turns := rfl
@[simp] theorem latchNext_readData (c : Command) (s : State) : (latchNext c s).readData = s.readData := rfl
@[simp] theorem latchNext_draws (c : Command) (s : State) : (latchNext c s).draws = s.draws := rfl

/-! ### `storeFrame` and `renderFrame`: one frame of RENDER (41_render_mix.md R151) -/

@[simp] theorem storeFrame_ready (f : Nat) (r : Vector Slot Config.maxInstruments × Frame) (s : State) :
    (storeFrame f r s).ready = s.ready := rfl
@[simp] theorem storeFrame_err (f : Nat) (r : Vector Slot Config.maxInstruments × Frame) (s : State) :
    (storeFrame f r s).err = s.err := rfl
@[simp] theorem storeFrame_cause (f : Nat) (r : Vector Slot Config.maxInstruments × Frame) (s : State) :
    (storeFrame f r s).cause = s.cause := rfl
@[simp] theorem storeFrame_sr (f : Nat) (r : Vector Slot Config.maxInstruments × Frame) (s : State) :
    (storeFrame f r s).sr = s.sr := rfl
@[simp] theorem storeFrame_mv (f : Nat) (r : Vector Slot Config.maxInstruments × Frame) (s : State) :
    (storeFrame f r s).mv = s.mv := rfl
@[simp] theorem storeFrame_argI (f : Nat) (r : Vector Slot Config.maxInstruments × Frame) (s : State) :
    (storeFrame f r s).argI = s.argI := rfl
@[simp] theorem storeFrame_argF (f : Nat) (r : Vector Slot Config.maxInstruments × Frame) (s : State) :
    (storeFrame f r s).argF = s.argF := rfl
@[simp] theorem storeFrame_resultI (f : Nat) (r : Vector Slot Config.maxInstruments × Frame) (s : State) :
    (storeFrame f r s).resultI = s.resultI := rfl
@[simp] theorem storeFrame_resultF (f : Nat) (r : Vector Slot Config.maxInstruments × Frame) (s : State) :
    (storeFrame f r s).resultF = s.resultF := rfl
@[simp] theorem storeFrame_lcmd (f : Nat) (r : Vector Slot Config.maxInstruments × Frame) (s : State) :
    (storeFrame f r s).lcmd = s.lcmd := rfl
@[simp] theorem storeFrame_rend (f : Nat) (r : Vector Slot Config.maxInstruments × Frame) (s : State) :
    (storeFrame f r s).rend = s.rend := rfl
@[simp] theorem storeFrame_slots (f : Nat) (r : Vector Slot Config.maxInstruments × Frame) (s : State) :
    (storeFrame f r s).slots = r.1 := rfl
@[simp] theorem storeFrame_mem (f : Nat) (r : Vector Slot Config.maxInstruments × Frame) (s : State) :
    (storeFrame f r s).mem = writeFrame s.mem f r.2 := rfl
@[simp] theorem storeFrame_turns (f : Nat) (r : Vector Slot Config.maxInstruments × Frame) (s : State) :
    (storeFrame f r s).turns = s.turns := rfl
@[simp] theorem storeFrame_readData (f : Nat) (r : Vector Slot Config.maxInstruments × Frame) (s : State) :
    (storeFrame f r s).readData = s.readData := rfl
@[simp] theorem storeFrame_draws (f : Nat) (r : Vector Slot Config.maxInstruments × Frame) (s : State) :
    (storeFrame f r s).draws = s.draws := rfl
@[simp] theorem renderFrame_ready (f : Nat) (s : State) : (renderFrame f s).ready = s.ready :=
  storeFrame_ready f _ s
@[simp] theorem renderFrame_err (f : Nat) (s : State) : (renderFrame f s).err = s.err :=
  storeFrame_err f _ s
@[simp] theorem renderFrame_cause (f : Nat) (s : State) : (renderFrame f s).cause = s.cause :=
  storeFrame_cause f _ s
@[simp] theorem renderFrame_sr (f : Nat) (s : State) : (renderFrame f s).sr = s.sr :=
  storeFrame_sr f _ s
@[simp] theorem renderFrame_mv (f : Nat) (s : State) : (renderFrame f s).mv = s.mv :=
  storeFrame_mv f _ s
@[simp] theorem renderFrame_argI (f : Nat) (s : State) : (renderFrame f s).argI = s.argI :=
  storeFrame_argI f _ s
@[simp] theorem renderFrame_argF (f : Nat) (s : State) : (renderFrame f s).argF = s.argF :=
  storeFrame_argF f _ s
@[simp] theorem renderFrame_resultI (f : Nat) (s : State) : (renderFrame f s).resultI = s.resultI :=
  storeFrame_resultI f _ s
@[simp] theorem renderFrame_resultF (f : Nat) (s : State) : (renderFrame f s).resultF = s.resultF :=
  storeFrame_resultF f _ s
@[simp] theorem renderFrame_lcmd (f : Nat) (s : State) : (renderFrame f s).lcmd = s.lcmd :=
  storeFrame_lcmd f _ s
@[simp] theorem renderFrame_rend (f : Nat) (s : State) : (renderFrame f s).rend = s.rend :=
  storeFrame_rend f _ s
@[simp] theorem renderFrame_slots (f : Nat) (s : State) : (renderFrame f s).slots = (frameStep s.sr s.mv s.slots).1 :=
  storeFrame_slots f _ s
@[simp] theorem renderFrame_mem (f : Nat) (s : State) : (renderFrame f s).mem = writeFrame s.mem f (frameStep s.sr s.mv s.slots).2 :=
  storeFrame_mem f _ s
@[simp] theorem renderFrame_turns (f : Nat) (s : State) : (renderFrame f s).turns = s.turns :=
  storeFrame_turns f _ s
@[simp] theorem renderFrame_readData (f : Nat) (s : State) : (renderFrame f s).readData = s.readData :=
  storeFrame_readData f _ s
@[simp] theorem renderFrame_draws (f : Nat) (s : State) : (renderFrame f s).draws = s.draws :=
  storeFrame_draws f _ s

/-! ### What a no-op and an acting command end in -/

@[simp] theorem noOp_eq (s : State) : noOp s = finish 0#32 s := rfl

@[simp] theorem acted_eq (s : State) : acted s = finish 1#32 s := rfl

@[simp] theorem install_eq (k : Fin Config.maxInstruments) (inst : Instrument) (s : State) :
    install k inst s = finish 1#32 (putSlot k (.occupied true inst) s) := rfl

/-- Finishing twice leaves the second result. -/
@[simp] theorem finish_finish (a b : Word) (s : State) : finish a (finish b s) = finish a s := rfl

/-- The slot just stored. -/
@[simp] theorem putSlot_get_self (k : Fin Config.maxInstruments) (sl : Slot) (s : State) :
    (putSlot k sl s).slots[k] = sl := by simp

/-- Every other slot is as it was. -/
theorem putSlot_get_of_ne {k j : Fin Config.maxInstruments} (h : k ≠ j) (sl : Slot) (s : State) :
    (putSlot k sl s).slots[j] = s.slots[j] := by
  have : (k : Nat) ≠ j := fun e => h (Fin.ext e)
  simp [this]

/-- BUSY is 0 after a command's last step. -/
@[simp] theorem isBusy_finish (r : Word) (s : State) : isBusy (finish r s) = false := rfl

end Sys2Proof.Machine
end

