-- ==== Sys2Proof/Laws/Voices.lean ====
section
/-! SUPPORT. What the voice engine's operations do to a pool: allocation, note-on and note-off, one frame, and the ranges of
10_state.md R44 and R45 (42_voice_engine.md R178 to R196). -/

namespace Sys2Proof.Machine

open Sys2Proof.Machine.F32

/-! ### Allocation (R190) -/

/-- The allocated voice is the first inactive one, or voice 0 when every voice is active. -/
theorem allocVoice_cases (vs : List Voice) :
    (∃ h : allocVoice vs < vs.length, isActive vs[allocVoice vs] = false ∧
      ∀ j (hj : j < allocVoice vs), isActive (vs[j]'(hj.trans h)) = true) ∨
    (allocVoice vs = 0 ∧ ∀ v ∈ vs, isActive v = true) := by
  unfold allocVoice
  cases h : vs.findIdx? (fun v => !isActive v) with
  | none =>
    refine .inr ⟨rfl, fun v hv => ?_⟩
    simpa using List.findIdx?_eq_none_iff.1 h v hv
  | some i =>
    obtain ⟨hi, h1, h2⟩ := List.findIdx?_eq_some_iff_getElem.1 h
    exact .inl ⟨hi, by simpa using h1, fun j hj => by simpa using h2 j hj⟩

/-! ### A voice's ranges (10_state.md R45) -/

theorem freshVoice_ok : voiceOk freshVoice := by
  constructor <;> decide

theorem isActive_of_ok {v : Voice} (h : voiceOk v) : isActive v = v.act := by
  unfold isActive; rw [h.active]; cases v.es <;> rfl

theorem noteOperand_le (n : Int) : noteOperand n ≤ 127 := by unfold noteOperand; omega

theorem velOperand_range (v : Word) : le zero (velOperand v) = true ∧ le (velOperand v) one = true :=
  pclamp_range (by decide) (by decide)

theorem voiceNoteOn_ok {note : Nat} {vel : Word} {v : Voice} (h : voiceOk v) (hn : note ≤ 127)
    (hv : le zero vel = true ∧ le vel one = true) : voiceOk (voiceNoteOn note vel v) :=
  ⟨hn, hv.1, hv.2, h.phase, rfl, by intro h; cases h⟩

theorem voiceNoteOff_ok {v : Voice} (h : voiceOk v) : voiceOk (voiceNoteOff v) := by
  unfold voiceNoteOff
  split
  · exact h
  · rename_i hes
    refine ⟨h.note, h.velLow, h.velHigh, h.phase, ?_, by intro h; cases h⟩
    rw [h.active]; simp [hes]

/-- Only the release arm ends in Idle, and then at level +0.0 (R178 to R183). -/
theorem envStep_idle {sr : Word} {p : Vector Word 8} {es : EnvState} {level : Word} (h : es ≠ .idle)
    (hi : (envStep sr p es level).1 = .idle) : es = .release ∧ (envStep sr p es level).2 = zero := by
  cases es with
  | idle => exact absurd rfl h
  | attack => revert hi; simp only [envStep, attackStep]; split <;> simp
  | decay => revert hi; simp only [envStep, decayStep]; split <;> simp
  | sustain => simp [envStep] at hi
  | release => revert hi; simp only [envStep, releaseStep]; split <;> simp

/-- What frac leaves is a phase (R175). -/
theorem frac_phaseOk (x : Word) : phaseOk (frac x) = true := by
  cases hx : isFinite x with
  | true => simp [phaseOk, frac_inUnit hx]
  | false => simp [phaseOk, isNaN_frac_of_not_finite hx]

theorem voiceStep_ok {sr : Word} {p : Vector Word 8} {v : Voice} (h : voiceOk v) : voiceOk (voiceStep sr p v).1 := by
  unfold voiceStep
  split
  · rename_i ha
    rw [isActive_of_ok h] at ha
    have hes : v.es ≠ .idle := by have := h.active; rw [ha] at this; simpa using this.symm
    refine ⟨h.note, h.velLow, h.velHigh, frac_phaseOk _, ?_, fun hi => (envStep_idle hes hi).2⟩
    simp only [activeVoiceStep, ha]
    generalize (envStep sr p v.es v.level).1 = e
    cases e <;> rfl
  · exact h

/-! ### One frame of a pool (R193) -/

theorem mixVoices_voices (sr : Word) (p : Vector Word 8) (vs : List Voice) (sum : Word) :
    (mixVoices sr p vs sum).1 = vs.map fun v => (voiceStep sr p v).1 := by
  induction vs generalizing sum with
  | nil => rfl
  | cons v vs ih => simp [mixVoices, ih]

/-- The sum of the outputs in pool order, each added to the sum so far. -/
theorem mixVoices_sum (sr : Word) (p : Vector Word 8) (vs : List Voice) (sum : Word) :
    (mixVoices sr p vs sum).2 = vs.foldl (fun a v => add a (voiceStep sr p v).2) sum := by
  induction vs generalizing sum with
  | nil => rfl
  | cons v vs ih => simp [mixVoices, ih]

theorem voiceStep_inactive {sr : Word} {p : Vector Word 8} {v : Voice} (h : isActive v = false) :
    voiceStep sr p v = (v, zero) := by simp [voiceStep, h]

/-! ### A Synth's ranges (10_state.md R44) -/

@[simp] theorem synthNoteOn_length (note : Nat) (vel : Word) (x : Synth) :
    (synthNoteOn note vel x).voices.length = x.voices.length := by simp [synthNoteOn]

@[simp] theorem synthNoteOff_length (note : Nat) (x : Synth) :
    (synthNoteOff note x).voices.length = x.voices.length := by simp [synthNoteOff]

@[simp] theorem synthReset_length (x : Synth) : (synthReset x).voices.length = x.voices.length := by simp [synthReset]

@[simp] theorem synthFrame_p (sr : Word) (x : Synth) (fr : Frame) : (synthFrame sr x fr).1.p = x.p := rfl

theorem synthFrame_voices (sr : Word) (x : Synth) (fr : Frame) :
    (synthFrame sr x fr).1.voices = x.voices.map fun v => (voiceStep sr x.p v).1 := mixVoices_voices _ _ _ _

/-- The mono sum of the voices, from +0.0 in pool order, is added to both channels (R193). -/
theorem synthFrame_frame (sr : Word) (x : Synth) (fr : Frame) :
    (synthFrame sr x fr).2 = addToFrame fr (x.voices.foldl (fun acc v => add acc (voiceStep sr x.p v).2) zero)
      (x.voices.foldl (fun acc v => add acc (voiceStep sr x.p v).2) zero) := by
  rw [← mixVoices_sum]; rfl

theorem synthNoteOn_ok {note : Nat} {vel : Word} {x : Synth} (h : synthOk x) (hn : note ≤ 127)
    (hv : le zero vel = true ∧ le vel one = true) : synthOk (synthNoteOn note vel x) := by
  refine ⟨by simpa using h.low, by simpa using h.high, h.params, fun v hm => ?_⟩
  obtain ⟨i, hi, rfl⟩ := List.getElem_of_mem hm
  simp only [synthNoteOn, List.getElem_modify]
  have hv' := h.voices _ (List.getElem_mem (by simpa using hi))
  split
  · exact voiceNoteOn_ok hv' hn hv
  · exact hv'

theorem synthNoteOff_ok {note : Nat} {x : Synth} (h : synthOk x) : synthOk (synthNoteOff note x) := by
  refine ⟨by simpa using h.low, by simpa using h.high, h.params, fun v hm => ?_⟩
  obtain ⟨w, hw, rfl⟩ := List.mem_map.1 hm
  split
  · exact voiceNoteOff_ok (h.voices w hw)
  · exact h.voices w hw

theorem synthReset_ok {x : Synth} (h : synthOk x) : synthOk (synthReset x) := by
  refine ⟨by simpa using h.low, by simpa using h.high, h.params, fun v hm => ?_⟩
  obtain ⟨w, -, rfl⟩ := List.mem_map.1 hm
  exact freshVoice_ok

theorem polyOperand_range (p : Nat) : 1 ≤ polyOperand p ∧ polyOperand p ≤ Config.maxPolyphony := by
  unfold polyOperand Config.maxPolyphony; omega

theorem newSynth_ok (poly : Nat) : synthOk (newSynth (polyOperand poly)) := by
  obtain ⟨h1, h2⟩ := polyOperand_range poly
  refine ⟨by simpa [newSynth] using h1, by simpa [newSynth] using h2, synthDefaults_ok, fun v hm => ?_⟩
  rw [List.eq_of_mem_replicate hm]; exact freshVoice_ok

theorem synthFrame_ok {sr : Word} {x : Synth} {fr : Frame} (h : synthOk x) : synthOk (synthFrame sr x fr).1 := by
  refine ⟨?_, ?_, h.params, fun v hm => ?_⟩
  · rw [synthFrame_voices, List.length_map]; exact h.low
  · rw [synthFrame_voices, List.length_map]; exact h.high
  · rw [synthFrame_voices] at hm
    obtain ⟨w, hw, rfl⟩ := List.mem_map.1 hm
    exact voiceStep_ok (h.voices w hw)

theorem synthParamSet_ok {id : Int} {v : Word} {x y : Synth} (h : synthOk x) (hy : synthParamSet id v x = some y) :
    synthOk y := by
  obtain ⟨i, -, rfl⟩ := Option.map_eq_some_iff.1 hy
  exact ⟨h.low, h.high, paramsOk_set synthSpec_ok h.params i v, h.voices⟩

/-! ### How many voices are active (R190, R191) -/

/-- A note-on to one voice makes it active and touches no other. -/
theorem countP_modify {f : Voice → Voice} (hf : ∀ v, isActive (f v) = true) (vs : List Voice) (j : Nat)
    (hj : j < vs.length) :
    (vs.modify j f).countP isActive = vs.countP isActive + (if isActive vs[j] then 0 else 1) := by
  induction vs generalizing j with
  | nil => simp at hj
  | cons v vs ih =>
    cases j with
    | zero => simp [List.countP_cons, hf]; split <;> rfl
    | succ j =>
      simp only [List.modify_succ_cons, List.countP_cons, List.getElem_cons_succ]
      rw [ih j (by simpa using hj)]
      omega

/-- A note-on makes one more voice active, up to the whole pool. -/
theorem synthNoteOn_countP (n : Nat) (v : Word) (x : Synth) (h : 1 ≤ x.voices.length) :
    (synthNoteOn n v x).voices.countP isActive = min x.voices.length (x.voices.countP isActive + 1) := by
  have hle := List.countP_le_length (p := isActive) (l := x.voices)
  have hf : ∀ w, isActive (voiceNoteOn n v w) = true := fun _ => rfl
  rcases allocVoice_cases x.voices with ⟨hj, h1, -⟩ | ⟨h0, h1⟩
  · show (x.voices.modify _ _).countP isActive = _
    rw [countP_modify hf _ _ hj, h1]
    have : x.voices.countP isActive < x.voices.length := by
      rcases Nat.lt_or_eq_of_le hle with h | h
      · exact h
      · rw [List.countP_eq_length.1 h _ (List.getElem_mem hj)] at h1; cases h1
    rw [if_neg (by simp)]; omega
  · show (x.voices.modify _ _).countP isActive = _
    rw [countP_modify hf _ _ (by omega), List.countP_eq_length.2 h1, h1 _ (List.getElem_mem _)]
    simp

/-- `1 / SR` is finite for a rate in range (R178). -/
theorem rateStep_finite {sr : Word} (hlo : le Config.srMin sr = true) (hhi : le sr Config.srMax = true) :
    isFinite (div one sr) = true := by
  obtain ⟨-, hn, h1⟩ := le_iff.1 hlo
  obtain ⟨-, -, h2⟩ := le_iff.1 hhi
  have e1 : key Config.srMin = 1174011904 := by decide
  have e2 : key Config.srMax = 1211858944 := by decide
  rw [e1] at h1; rw [e2] at h2
  have hs : sign sr = false := by
    cases h : sign sr with
    | false => rfl
    | true => unfold key at h1; simp only [h, if_true] at h1; omega
  have hm : key sr = mag sr := by simp [key, hs]
  have hf : isFinite sr = true := decide_eq_true (by unfold infMag; omega)
  rw [div_finite (by decide) hf (by omega)]
  refine decide_eq_true ?_
  rw [mag_pack _ (roundMag_lt _ _)]
  have hmin : absUnits Config.srMin ≤ absUnits sr :=
    (mag_units_le (by decide) hf).2 (by rw [show mag Config.srMin = 1174011904 by decide]; omega)
  have hp : 0 < absUnits Config.srMin := by decide
  refine lt_of_le_of_lt (roundMag_mono (d' := absUnits Config.srMin) (n' := absUnits one * unitsPerOne) (by omega) hp
    (Nat.mul_le_mul_left _ hmin)) ?_
  decide

end Sys2Proof.Machine
end

