-- ==== Sys2Proof/Laws/Rendering.lean ====
section
/-! SUPPORT. What a frame step does to each slot and to the frame (41_render_mix.md R150 to R156). -/

namespace Sys2Proof.Machine

open Sys2Proof.Machine.F32

/-! ### The pass over the slots -/

theorem renderSlots_cons (sr : Word) (k : Fin Config.maxInstruments) (ks : List (Fin Config.maxInstruments))
    (slots : Vector Slot Config.maxInstruments) (fr : Frame) :
    renderSlots sr (k :: ks) slots fr =
      renderSlots sr ks (slots.set k (slotFrame sr slots[k] fr).1) (slotFrame sr slots[k] fr).2 := rfl

/-- A pass leaves the slots it does not visit alone. -/
theorem renderSlots_get_of_not_mem {sr : Word} {ks : List (Fin Config.maxInstruments)} {j : Fin Config.maxInstruments}
    (hj : j ∉ ks) (slots : Vector Slot Config.maxInstruments) (fr : Frame) :
    (renderSlots sr ks slots fr).1[j] = slots[j] := by
  induction ks generalizing slots fr with
  | nil => rfl
  | cons k ks ih =>
    obtain ⟨h1, h2⟩ : j ≠ k ∧ j ∉ ks := by simpa using hj
    have hk : (k : Nat) ≠ j := fun e => h1 (Fin.ext e.symm)
    rw [renderSlots_cons, ih h2]
    simp [hk]

/-- A pass is the pass over its first part, then the pass over the rest. -/
theorem renderSlots_append (sr : Word) (ks ls : List (Fin Config.maxInstruments))
    (slots : Vector Slot Config.maxInstruments) (fr : Frame) :
    renderSlots sr (ks ++ ls) slots fr =
      renderSlots sr ls (renderSlots sr ks slots fr).1 (renderSlots sr ks slots fr).2 := by
  induction ks generalizing slots fr with
  | nil => rfl
  | cons k ks ih => simp only [List.cons_append, renderSlots]; exact ih _ _

/-- What a pass gives depends on the slots it visits alone. -/
theorem renderSlots_congr {sr : Word} {ks : List (Fin Config.maxInstruments)} (hn : ks.Nodup)
    {a b : Vector Slot Config.maxInstruments} (h : ∀ k ∈ ks, a[k] = b[k]) (fr : Frame) :
    (renderSlots sr ks a fr).2 = (renderSlots sr ks b fr).2 ∧
    ∀ k ∈ ks, (renderSlots sr ks a fr).1[k] = (renderSlots sr ks b fr).1[k] := by
  induction ks generalizing a b fr with
  | nil => exact ⟨rfl, by simp⟩
  | cons k ks ih =>
    obtain ⟨hk, hn'⟩ := List.nodup_cons.1 hn
    rw [renderSlots_cons, renderSlots_cons]
    have h0 : a[k] = b[k] := h k (by simp)
    have hs : ∀ j ∈ ks, (a.set k (slotFrame sr a[k] fr).1)[j] = (b.set k (slotFrame sr b[k] fr).1)[j] := by
      intro j hj
      have hkj : (k : Nat) ≠ j := fun e => hk (by rwa [Fin.ext e])
      have := h j (by simp [hj])
      simpa [hkj] using this
    obtain ⟨h1, h2⟩ := ih hn' hs (slotFrame sr a[k] fr).2
    rw [h0] at h1 h2 ⊢
    refine ⟨h1, ?_⟩
    intro j hj
    rcases List.mem_cons.1 hj with rfl | hj
    · rw [renderSlots_get_of_not_mem hk, renderSlots_get_of_not_mem hk]
      simp
    · exact h2 j hj

/-- A property of a slot that its frame keeps is kept by the whole pass. -/
theorem renderSlots_keeps {sr : Word} {P : Slot → Prop} (hs : ∀ sl fr, P sl → P (slotFrame sr sl fr).1)
    (ks : List (Fin Config.maxInstruments)) (slots : Vector Slot Config.maxInstruments) (fr : Frame)
    (h : ∀ j : Fin Config.maxInstruments, P slots[j]) (j : Fin Config.maxInstruments) :
    P (renderSlots sr ks slots fr).1[j] := by
  induction ks generalizing slots fr with
  | nil => exact h j
  | cons k ks ih =>
    refine ih _ _ fun i => ?_
    by_cases hki : k = i
    · subst hki; simpa using hs _ _ (h k)
    · have : (k : Nat) ≠ i := fun e => hki (Fin.ext e)
      simpa [this] using h i

theorem slotOrder_nodup : slotOrder.Nodup := by decide

theorem mem_slotOrder (k : Fin Config.maxInstruments) : k ∈ slotOrder := by revert k; decide

/-! ### A slot's frame -/

theorem slotFrame_on (sr : Word) (inst : Instrument) (fr : Frame) :
    slotFrame sr (.occupied true inst) fr = (.occupied true (instrumentFrame sr inst fr).1, (instrumentFrame sr inst fr).2) :=
  rfl

theorem instrumentFrame_synth (sr : Word) (x : Synth) (fr : Frame) :
    instrumentFrame sr (.synth x) fr = (.synth (synthFrame sr x fr).1, (synthFrame sr x fr).2) := rfl

/-- What an enabled Synth does in a frame (R152, R193). -/
theorem slotFrame_synth (sr : Word) (x : Synth) (fr : Frame) :
    slotFrame sr (.occupied true (.synth x)) fr =
      (.occupied true (.synth { x with voices := x.voices.map fun v => (voiceStep sr x.p v).1 }),
        addToFrame fr (x.voices.foldl (fun acc v => add acc (voiceStep sr x.p v).2) zero)
          (x.voices.foldl (fun acc v => add acc (voiceStep sr x.p v).2) zero)) := by
  rw [slotFrame_on, instrumentFrame_synth, synthFrame_frame, ← synthFrame_voices sr x fr]
  rfl

/-- What an enabled DrumMachine does in a frame (R152, R157). -/
theorem slotFrame_drum (sr : Word) (x : Drum) (fr : Frame) :
    slotFrame sr (.occupied true (.drum x)) fr =
      (.occupied true (.drum ⟨x.dp, (Config.drumRender x.ds x.dp sr).2.2⟩),
        addToFrame fr (Config.drumRender x.ds x.dp sr).1 (Config.drumRender x.ds x.dp sr).2.1) := rfl

theorem instrumentFrame_drum (sr : Word) (x : Drum) (fr : Frame) :
    instrumentFrame sr (.drum x) fr = (.drum (drumFrame sr x fr).1, (drumFrame sr x fr).2) := rfl

theorem instrumentFrame_fx (sr : Word) (x : Fx) (fr : Frame) :
    instrumentFrame sr (.fx x) fr = (.fx (fxFrame sr x fr).1, (fxFrame sr x fr).2) := rfl

theorem instrumentFrame_ok {sr : Word} {inst : Instrument} (h : instOk inst) (fr : Frame) :
    instOk (instrumentFrame sr inst fr).1 := by
  cases inst with
  | synth x =>
    have h' : synthOk (synthFrame sr x fr).1 := synthFrame_ok h
    exact h'
  | drum x => exact True.intro
  | fx x =>
    have h' : fxOk (fxFrame sr x fr).1 := fxFrame_ok h
    exact h'

theorem slotFrame_ok {sr : Word} (sl : Slot) (fr : Frame) (h : slotOk sl) : slotOk (slotFrame sr sl fr).1 := by
  cases sl with
  | empty => exact h
  | occupied en inst =>
    cases en with
    | false => exact h
    | true => rw [slotFrame_on]; exact instrumentFrame_ok h fr

/-- A slot that is not enabled is left alone, and so is the frame (R151). -/
theorem slotFrame_skip {sr : Word} {sl : Slot} (h : isEnabled sl = false) (fr : Frame) : slotFrame sr sl fr = (sl, fr) := by
  match sl, h with
  | .empty, _ => rfl
  | .occupied false _, _ => rfl

/-- A frame step visits slot k once, on the frame that the slots below k left (R151). -/
theorem frameStep_at (sr mv : Word) (slots : Vector Slot Config.maxInstruments) (k : Fin Config.maxInstruments) :
    (renderSlots sr (slotOrder.take (k.val + 1)) slots ⟨zero, zero⟩).2 =
      (slotFrame sr slots[k] (renderSlots sr (slotOrder.take k.val) slots ⟨zero, zero⟩).2).2 ∧
    (frameStep sr mv slots).1[k] =
      (slotFrame sr slots[k] (renderSlots sr (slotOrder.take k.val) slots ⟨zero, zero⟩).2).1 := by
  have hsplit : ∀ k : Fin Config.maxInstruments, slotOrder.take (k.val + 1) = slotOrder.take k.val ++ [k] ∧
      slotOrder = slotOrder.take k.val ++ (k :: slotOrder.drop (k.val + 1)) ∧
      k ∉ slotOrder.take k.val ∧ k ∉ slotOrder.drop (k.val + 1) := by decide
  obtain ⟨h1, h2, h3, h4⟩ := hsplit k
  constructor
  · rw [h1, renderSlots_append, renderSlots_cons, renderSlots_get_of_not_mem h3]; rfl
  · rw [show (frameStep sr mv slots).1 = (renderSlots sr slotOrder slots ⟨zero, zero⟩).1 from rfl]
    conv_lhs => rw [h2, renderSlots_append, renderSlots_cons, renderSlots_get_of_not_mem h4, renderSlots_get_of_not_mem h3]
    simp

theorem frameStep_slots (sr mv : Word) (slots : Vector Slot Config.maxInstruments) :
    (frameStep sr mv slots).1 = (renderSlots sr slotOrder slots ⟨zero, zero⟩).1 := rfl

theorem frameStep_frame (sr mv : Word) (slots : Vector Slot Config.maxInstruments) :
    (frameStep sr mv slots).2 = masterFrame mv (renderSlots sr slotOrder slots ⟨zero, zero⟩).2 := rfl

theorem frameStep_ok {sr mv : Word} {slots : Vector Slot Config.maxInstruments}
    (h : ∀ k : Fin Config.maxInstruments, slotOk slots[k]) (k : Fin Config.maxInstruments) :
    slotOk (frameStep sr mv slots).1[k] := by
  rw [frameStep_slots]
  exact renderSlots_keeps (P := slotOk) (fun sl fr => slotFrame_ok sl fr) slotOrder slots ⟨zero, zero⟩ h k

/-! ### The master stage (R153, R156) -/

/-- A finite, non-negative, nonzero ceiling bounds what the signal clamp leaves, and no NaN comes out. -/
theorem sclamp_limited {x c : Word} (hc : isNaN c = false) (h0 : 0 ≤ key c) :
    isNaN (sclamp x c) = false ∧ le (abs (sclamp x c)) c = true := by
  have h := sclamp_bound (x := x) hc h0
  refine ⟨?_, h⟩
  simpa using (le_iff.1 h).1

theorem masterFrame_limited (mv : Word) (fr : Frame) :
    (isNaN (masterFrame mv fr).l = false ∧ le (abs (masterFrame mv fr).l) Config.safetyCeiling = true) ∧
    (isNaN (masterFrame mv fr).r = false ∧ le (abs (masterFrame mv fr).r) Config.safetyCeiling = true) :=
  ⟨sclamp_limited (by decide) (by decide), sclamp_limited (by decide) (by decide)⟩

@[simp] theorem sampleOf_masterFrame (mv : Word) (fr : Frame) (c : Channel) :
    sampleOf (masterFrame mv fr) c = sclamp (masterProduct mv (sampleOf fr c)) Config.safetyCeiling := by cases c <;> rfl

/-- The master stage's product in R153's own terms, beside the one case of assumption 22. -/
theorem masterProduct_eq (mv x : Word) :
    masterProduct mv x = if x = zero ∧ mag mv = 0 then zero else mul x mv := by simp [masterProduct, isZero]

/-- `+0.0 ⊗ MV` for MV in [0, 2] (R154). -/
theorem masterProduct_zero {mv : Word} (h0 : le zero mv = true) (h2 : le mv two = true) : masterProduct mv zero = zero := by
  unfold masterProduct
  split
  · rfl
  · rename_i h
    have hm : mag mv ≠ 0 := fun e => h ⟨rfl, decide_eq_true e⟩
    obtain ⟨-, hn, h0⟩ := le_iff.1 h0
    obtain ⟨-, -, h2⟩ := le_iff.1 h2
    rw [show key zero = 0 by decide] at h0
    rw [show key two = 1073741824 by decide] at h2
    have hs : sign mv = false := by
      cases e : sign mv with
      | false => rfl
      | true => simp only [key, e, if_true] at h0; omega
    have hi : isInf mv = false := by
      simp only [key, hs, Bool.false_eq_true, if_false] at h2
      exact decide_eq_false (by unfold infMag; omega)
    simp only [mul, hn, hi, hs, show isNaN zero = false by decide, show isInf zero = false by decide,
      show absUnits zero = 0 by decide, Bool.or_self, Bool.false_eq_true, if_false, Nat.zero_mul]
    decide

/-- MasterFrame of a silent mix (R154). -/
theorem masterFrame_silent {mv : Word} (h0 : le zero mv = true) (h2 : le mv two = true) :
    masterFrame mv ⟨zero, zero⟩ = ⟨zero, zero⟩ := by
  unfold masterFrame
  rw [masterProduct_zero h0 h2]
  decide

/-! ### RENDER's step (R150) -/

theorem storeFrame_eq (f : Nat) (r : Vector Slot Config.maxInstruments × Frame) (s : State) :
    storeFrame f r s = { s with slots := r.1, mem := writeFrame s.mem f r.2 } := rfl

/-- A frame, as one record update. -/
theorem renderFrame_eq (f : Nat) (s : State) :
    renderFrame f s =
      { s with slots := (frameStep s.sr s.mv s.slots).1, mem := writeFrame s.mem f (frameStep s.sr s.mv s.slots).2 } :=
  storeFrame_eq f _ s

/-- The step of frame `c.rf`, its two outcomes. -/
theorem renderStep_cases (c : RenderCount) (s : State) :
    (c.rf + 1 < c.rn ∧ renderStep c s = { renderFrame c.rf s with rend := some ⟨c.rf + 1, c.rn⟩ }) ∨
    (c.rn ≤ c.rf + 1 ∧ renderStep c s = finish (BitVec.ofNat 32 c.rn) (renderFrame c.rf s)) := by
  unfold renderStep
  by_cases h : c.rf + 1 < c.rn
  · exact .inl ⟨h, by simp only [if_pos h]⟩
  · exact .inr ⟨by omega, by simp only [if_neg h]⟩

/-- What a step of RENDER leaves alone. -/
theorem renderStep_keeps (c : RenderCount) (s : State) :
    (renderStep c s).ready = s.ready ∧ (renderStep c s).err = s.err ∧ (renderStep c s).cause = s.cause ∧
    (renderStep c s).sr = s.sr ∧ (renderStep c s).mv = s.mv ∧ (renderStep c s).argI = s.argI ∧
    (renderStep c s).argF = s.argF ∧ (renderStep c s).resultF = s.resultF ∧ (renderStep c s).turns = s.turns ∧
    (renderStep c s).readData = s.readData ∧ (renderStep c s).draws = s.draws := by
  rcases renderStep_cases c s with ⟨-, h⟩ | ⟨-, h⟩ <;> rw [h] <;> simp

/-- The slots a step of RENDER leaves. -/
@[simp] theorem renderStep_slots (c : RenderCount) (s : State) :
    (renderStep c s).slots = (frameStep s.sr s.mv s.slots).1 := by
  rcases renderStep_cases c s with ⟨-, h⟩ | ⟨-, h⟩ <;> rw [h] <;> simp

/-- The BUF a step of RENDER leaves. -/
@[simp] theorem renderStep_mem (c : RenderCount) (s : State) :
    (renderStep c s).mem = writeFrame s.mem c.rf (frameStep s.sr s.mv s.slots).2 := by
  rcases renderStep_cases c s with ⟨-, h⟩ | ⟨-, h⟩ <;> rw [h] <;> simp

/-- A step of RENDER that is not the last keeps the command and counts a frame. -/
theorem renderStep_more {c : RenderCount} (h : c.rf + 1 < c.rn) (s : State) :
    (renderStep c s).lcmd = s.lcmd ∧ (renderStep c s).rend = some ⟨c.rf + 1, c.rn⟩ ∧
    (renderStep c s).resultI = s.resultI := by
  unfold renderStep
  generalize hr : renderFrame c.rf s = r
  have h1 : r.lcmd = s.lcmd := by rw [← hr]; simp
  have h2 : r.resultI = s.resultI := by rw [← hr]; simp
  simp only [if_pos h, h1, h2, and_self]

/-- The last step of RENDER ends the command (R113, R123). -/
theorem renderStep_last {c : RenderCount} (h : c.rn ≤ c.rf + 1) (s : State) :
    (renderStep c s).lcmd = none ∧ (renderStep c s).rend = none ∧
    (renderStep c s).resultI = BitVec.ofNat 32 c.rn := by
  unfold renderStep
  generalize renderFrame c.rf s = r
  simp only [if_neg (Nat.not_lt.2 h), finish, and_self]

theorem framesOperand_pos {n : Int} (h : 0 < n) : 1 ≤ framesOperand n ∧ framesOperand n ≤ Config.maxFrames := by
  unfold framesOperand Config.maxFrames; omega

/-- The slot table after one more frame, from the other end. -/
theorem slotsAfter_succ (sr mv : Word) (n : Nat) (slots : Vector Slot Config.maxInstruments) :
    slotsAfter sr mv (n + 1) slots = (frameStep sr mv (slotsAfter sr mv n slots)).1 := by
  induction n generalizing slots with
  | zero => rfl
  | succ n ih => exact ih _

theorem slotsAfter_add (sr mv : Word) (m n : Nat) (slots : Vector Slot Config.maxInstruments) :
    slotsAfter sr mv (m + n) slots = slotsAfter sr mv n (slotsAfter sr mv m slots) := by
  induction m generalizing slots with
  | zero => simp [slotsAfter]
  | succ m ih => rw [Nat.succ_add]; exact ih _

end Sys2Proof.Machine
end

