-- ==== Sys2Proof/Laws/Commands.lean ====
section
/-! SUPPORT. What a command can do, said once (40_engine_commands.md R110 to R125). -/

namespace Sys2Proof.Machine

open Sys2Proof.Machine.F32

/-! ### The common path -/

theorem slotIndex_val (k : Fin Config.maxInstruments) : slotIndex k.val = some k := by
  unfold slotIndex; rw [dif_pos k.isLt]

theorem slotIndex_none {slot : Nat} (h : Config.maxInstruments ≤ slot) : slotIndex slot = none := by
  unfold slotIndex; rw [dif_neg (by omega)]

theorem slotIndex_some {slot : Nat} {k : Fin Config.maxInstruments} (h : slotIndex slot = some k) : slot = k.val := by
  unfold slotIndex at h
  split at h
  · exact congrArg Fin.val (Option.some.inj h)
  · cases h

theorem whenReady_of_ready {s : State} (h : s.ready = true) (run : State → State) : whenReady s run = run s := if_pos h

theorem whenReady_of_not {s : State} (h : s.ready = false) (run : State → State) : whenReady s run = noOp s := by
  simp [whenReady, h]

theorem withSlot_of_ready {s : State} (h : s.ready = true) (k : Fin Config.maxInstruments)
    (run : Fin Config.maxInstruments → State → State) : withSlot k s run = run k s := by
  rw [withSlot, whenReady_of_ready h, slotIndex_val]

theorem withSlot_of_not {s : State} (h : s.ready = false) (slot : Nat)
    (run : Fin Config.maxInstruments → State → State) : withSlot slot s run = noOp s := whenReady_of_not h _

theorem withSlot_of_range {s : State} {slot : Nat} (h : Config.maxInstruments ≤ slot)
    (run : Fin Config.maxInstruments → State → State) : withSlot slot s run = noOp s := by
  unfold withSlot whenReady
  rw [slotIndex_none h]
  split <;> rfl

/-- A slot command finds nothing, or runs on a slot of a ready engine. -/
theorem withSlot_cases (slot : Nat) (s : State) (run : Fin Config.maxInstruments → State → State) :
    withSlot slot s run = noOp s ∨
    ∃ k : Fin Config.maxInstruments, slot = k ∧ s.ready = true ∧ withSlot slot s run = run k s := by
  cases hr : s.ready with
  | false => exact .inl (withSlot_of_not hr slot run)
  | true =>
    by_cases h : slot < Config.maxInstruments
    · exact .inr ⟨⟨slot, h⟩, rfl, rfl, withSlot_of_ready hr ⟨slot, h⟩ run⟩
    · exact .inl (withSlot_of_range (by omega) run)

theorem withInstrument_of_ready {s : State} (h : s.ready = true) {k : Fin Config.maxInstruments} {en : Bool}
    {inst : Instrument} (hs : s.slots[k] = .occupied en inst)
    (run : Fin Config.maxInstruments → Bool → Instrument → State → State) :
    withInstrument k s run = run k en inst s := by
  rw [withInstrument, withSlot_of_ready h, hs]

theorem withInstrument_of_empty {s : State} {k : Fin Config.maxInstruments} (hs : s.slots[k] = .empty)
    (run : Fin Config.maxInstruments → Bool → Instrument → State → State) : withInstrument k s run = noOp s := by
  cases h : s.ready with
  | true => rw [withInstrument, withSlot_of_ready h, hs]
  | false => exact withSlot_of_not h _ _

/-- A slot command that needs an instrument finds nothing, or runs on the instrument of an occupied slot. -/
theorem withInstrument_cases (slot : Nat) (s : State)
    (run : Fin Config.maxInstruments → Bool → Instrument → State → State) :
    withInstrument slot s run = noOp s ∨
    ∃ (k : Fin Config.maxInstruments) (en : Bool) (inst : Instrument), slot = k ∧ s.ready = true ∧
      s.slots[k] = .occupied en inst ∧ withInstrument slot s run = run k en inst s := by
  rcases withSlot_cases slot s (fun k s => match s.slots[k] with
    | .empty => noOp s
    | .occupied en inst => run k en inst s) with h | ⟨k, rfl, hr, h⟩
  · exact .inl h
  · cases hs : s.slots[k] with
    | empty => exact .inl (withInstrument_of_empty hs run)
    | occupied en inst => exact .inr ⟨k, en, inst, rfl, hr, hs, withInstrument_of_ready hr hs run⟩

/-- What holds of the no-op and of the run on every occupied slot holds of the command. -/
theorem withInstrument_elim {P : State → Prop} {slot : Nat} {s : State}
    {run : Fin Config.maxInstruments → Bool → Instrument → State → State} (idle : P (noOp s))
    (found : ∀ (k : Fin Config.maxInstruments) (en : Bool) (inst : Instrument), slot = k → s.ready = true →
      s.slots[k] = .occupied en inst → P (run k en inst s)) : P (withInstrument slot s run) := by
  rcases withInstrument_cases slot s run with h | ⟨k, en, inst, hk, hr, hs, h⟩
  · rw [h]; exact idle
  · rw [h]; exact found k en inst hk hr hs

/-- What holds of the no-op and of the run on every slot holds of the command. -/
theorem withSlot_elim {P : State → Prop} {slot : Nat} {s : State} {run : Fin Config.maxInstruments → State → State}
    (idle : P (noOp s)) (found : ∀ k : Fin Config.maxInstruments, slot = k → s.ready = true → P (run k s)) :
    P (withSlot slot s run) := by
  rcases withSlot_cases slot s run with h | ⟨k, hk, hr, h⟩
  · rw [h]; exact idle
  · rw [h]; exact found k hk hr

/-! ### Instances -/

theorem instParamSet_ok {id : Int} {v : Word} {a b : Instrument} (h : instOk a) (hb : instParamSet id v a = some b) :
    instOk b := by
  cases a with
  | synth x => obtain ⟨y, hy, rfl⟩ := Option.map_eq_some_iff.1 hb; exact synthParamSet_ok h hy
  | drum x => obtain ⟨y, hy, rfl⟩ := Option.map_eq_some_iff.1 hb; trivial
  | fx x => obtain ⟨y, hy, rfl⟩ := Option.map_eq_some_iff.1 hb; exact fxParamSet_ok h hy

theorem instNoteOn_ok {note : Int} {vel : Word} {a b : Instrument} (h : instOk a)
    (hb : instNoteOn (noteOperand note) (velOperand vel) a = some b) : instOk b := by
  cases a with
  | synth x => cases hb; exact synthNoteOn_ok h (noteOperand_le note) (velOperand_range vel)
  | drum x => cases hb; trivial
  | fx x => cases hb

theorem instNoteOff_ok {note : Nat} {a b : Instrument} (h : instOk a) (hb : instNoteOff note a = some b) : instOk b := by
  cases a with
  | synth x => cases hb; exact synthNoteOff_ok h
  | drum x => cases hb; trivial
  | fx x => cases hb

theorem instReset_ok {a : Instrument} (h : instOk a) : instOk (instReset a) := by
  cases a with
  | synth x => exact synthReset_ok h
  | drum x => trivial
  | fx x => exact fxReset_ok h

/-! ### What a command can do -/

/-- The state a command leaves, by what it did. -/
inductive CommandEffect (s : State) : Instr → State → Prop
  /-- nothing to act on (R111, R112) -/
  | idle (i : Instr) : CommandEffect s i (noOp s)
  /-- a slot command stored its slot (R114 to R119, R121) -/
  | stored (i : Instr) (k : Fin Config.maxInstruments) (sl : Slot) (target : targetSlot i = some k.val)
      (ready : s.ready = true) (ok : slotOk s.slots[k] → slotOk sl) : CommandEffect s i (acted (putSlot k sl s))
  /-- REGISTER made a new DrumMachine, with a fresh draw (R157) -/
  | drum (kind poly : Nat) (k : Fin Config.maxInstruments) (ready : s.ready = true) :
      CommandEffect s (.register k kind poly)
        (acted (putSlot k (.occupied true (.drum (newDrum s.draws))) { s with draws := s.draws + 1 }))
  /-- PARAM_GET found its parameter (R120) -/
  | found (slot : Nat) (id : Int) (v : Word) (ready : s.ready = true) :
      CommandEffect s (.paramGet slot id) (acted { s with resultF := v })
  /-- INIT (R122) -/
  | init (rate : Word) :
      CommandEffect s (.init rate) (acted { s with ready := true, sr := rateOperand rate, mv := one, slots := noSlots })
  /-- a step of RENDER (R123) -/
  | render (frames : Int) (ready : s.ready = true) (pos : 0 < frames) :
      CommandEffect s (.render frames) (renderStep (s.rend.getD ⟨0, framesOperand frames⟩) s)
  /-- TEARDOWN (R124) -/
  | teardown (ready : s.ready = true) :
      CommandEffect s .teardown (acted { s with ready := false, sr := zero, mv := zero, slots := noSlots })
  /-- SET_MASTER_VOL (R125) -/
  | volume (v : Word) (ready : s.ready = true) : CommandEffect s (.setMasterVol v) (acted { s with mv := volumeOperand v })

/-- Every command answers a next state, one of these. -/
theorem exec_effect (i : Instr) (s : State) : ∃ t, exec i s = .next t ∧ CommandEffect s i t := by
  cases i with
  | paramSet slot id value =>
    refine ⟨_, rfl, withInstrument_elim (P := CommandEffect s _) (.idle _) fun k en inst hk hr hs => ?_⟩
    cases hp : instParamSet id value inst with
    | none => exact .idle _
    | some b => exact .stored _ k _ (congrArg some hk) hr fun ho => instParamSet_ok (by rwa [hs] at ho) hp
  | noteOn slot note velocity =>
    refine ⟨_, rfl, withInstrument_elim (P := CommandEffect s _) (.idle _) fun k en inst hk hr hs => ?_⟩
    cases hp : instNoteOn (noteOperand note) (velOperand velocity) inst with
    | none => exact .idle _
    | some b => exact .stored _ k _ (congrArg some hk) hr fun ho => instNoteOn_ok (by rwa [hs] at ho) hp
  | noteOff slot note =>
    refine ⟨_, rfl, withInstrument_elim (P := CommandEffect s _) (.idle _) fun k en inst hk hr hs => ?_⟩
    cases hp : instNoteOff (noteOperand note) inst with
    | none => exact .idle _
    | some b => exact .stored _ k _ (congrArg some hk) hr fun ho => instNoteOff_ok (by rwa [hs] at ho) hp
  | reset slot =>
    exact ⟨_, rfl, withInstrument_elim (P := CommandEffect s _) (.idle _) fun k en inst hk hr hs =>
      .stored _ k _ (congrArg some hk) hr fun ho => instReset_ok (by rwa [hs] at ho)⟩
  | register slot kind poly =>
    refine ⟨_, rfl, withSlot_elim (P := CommandEffect s _) (.idle _) fun k hk hr => ?_⟩
    match kind with
    | 0 => exact .stored _ k _ (congrArg some hk) hr fun _ => newSynth_ok poly
    | 1 => subst hk; exact .drum 1 poly k hr
    | 2 => exact .stored _ k _ (congrArg some hk) hr fun _ => newFx_ok
    | n + 3 => exact .idle _
  | remove slot =>
    exact ⟨_, rfl, withInstrument_elim (P := CommandEffect s _) (.idle _) fun k en inst hk hr _ =>
      .stored _ k _ (congrArg some hk) hr fun _ => True.intro⟩
  | paramGet slot id =>
    refine ⟨_, rfl, withInstrument_elim (P := CommandEffect s _) (.idle _) fun k en inst _ hr _ => ?_⟩
    cases instParamGet id inst with
    | none => exact .idle _
    | some v => exact .found slot id v hr
  | setEnable slot en =>
    exact ⟨_, rfl, withInstrument_elim (P := CommandEffect s _) (.idle _) fun k en' inst hk hr hs =>
      .stored _ k _ (congrArg some hk) hr fun ho => by rwa [hs] at ho⟩
  | init rate => exact ⟨_, rfl, .init rate⟩
  | render frames =>
    refine ⟨_, rfl, ?_⟩
    cases hr : s.ready with
    | false => rw [whenReady_of_not hr]; exact .idle _
    | true =>
      rw [whenReady_of_ready hr]
      by_cases hn : frames ≤ 0
      · rw [if_pos hn]; exact .idle _
      · rw [if_neg hn]; exact .render frames hr (by omega)
  | teardown =>
    refine ⟨_, rfl, ?_⟩
    cases hr : s.ready with
    | false => rw [whenReady_of_not hr]; exact .idle _
    | true => rw [whenReady_of_ready hr]; exact .teardown hr
  | setMasterVol v =>
    refine ⟨_, rfl, ?_⟩
    cases hr : s.ready with
    | false => rw [whenReady_of_not hr]; exact .idle _
    | true => rw [whenReady_of_ready hr]; exact .volume v hr

/-- The inversion of `exec` (the outcomes of 60_exceptions.md R281, R288). -/
theorem effect_of_exec {i : Instr} {s t : State} (h : exec i s = .next t) : CommandEffect s i t := by
  obtain ⟨u, hu, he⟩ := exec_effect i s
  rw [hu] at h; cases h; exact he

/-- What no command changes (10_state.md R36, R32): ERR and CAUSE, the operand registers, and the environment. -/
theorem exec_keeps {i : Instr} {s t : State} (h : exec i s = .next t) :
    t.err = s.err ∧ t.cause = s.cause ∧ t.argI = s.argI ∧ t.argF = s.argF ∧ t.turns = s.turns ∧ t.readData = s.readData := by
  cases effect_of_exec h with
  | render n hr hp =>
    obtain ⟨-, h2, h3, -, -, h6, h7, -, h9, h10, -⟩ := renderStep_keeps (s.rend.getD ⟨0, framesOperand n⟩) s
    exact ⟨h2, h3, h6, h7, h9, h10⟩
  | idle => simp
  | stored => simp
  | drum => simp
  | found => simp
  | init => simp
  | teardown => simp
  | volume => simp

end Sys2Proof.Machine
end

