-- ==== Sys2Proof/Laws/Encoding.lean ====
section
/-! SUPPORT. The fields of a CMD word and of an operand word, read back from what the encoder writes (30_encoding.md R91, R94). -/

namespace Sys2Proof

theorem lt_of_isByteField {n : Nat} (h : isByteField n = true) : n < 256 := by simpa [isByteField] using h

theorem range_of_isS32 {n : Int} (h : isS32 n = true) : -2147483648 ≤ n ∧ n < 2147483648 := by
  simpa [isS32] using h

/-- s32 of the operand word an integer is encoded in (R7, R92). -/
theorem toInt_ofInt_of_isS32 {n : Int} (h : isS32 n = true) : (BitVec.ofInt 32 n).toInt = n := by
  have := range_of_isS32 h
  rw [BitVec.toInt_ofInt, Int.bmod_eq_of_le] <;> omega

/-- The fields of an encoded CMD word. -/
theorem fields_cmdWord {op slot : Nat} (ho : op < 256) (hs : slot < 256) :
    rsvdField (cmdWord op slot) = 0 ∧ opField (cmdWord op slot) = op ∧ slotField (cmdWord op slot) = slot := by
  have h : (cmdWord op slot).toNat = slot * 256 + op := by
    rw [cmdWord, BitVec.toNat_ofNat, Nat.mod_eq_of_lt (by omega)]
  simp only [rsvdField, opField, slotField, h]
  omega

/-- OP is bits [7:0]. -/
theorem opField_eq (w : Word) : opField w = (w.extractLsb' 0 8).toNat := by
  simp [opField, BitVec.extractLsb'_toNat]

/-- SLOT is bits [15:8]. -/
theorem slotField_eq (w : Word) : slotField w = (w.extractLsb' 8 8).toNat := by
  simp [slotField, BitVec.extractLsb'_toNat, Nat.shiftRight_eq_div_pow]

/-- RSVD is bits [31:16]. -/
theorem rsvdField_eq (w : Word) : rsvdField w = (w.extractLsb' 16 16).toNat := by
  have := w.isLt
  simp [rsvdField, BitVec.extractLsb'_toNat, Nat.shiftRight_eq_div_pow]; omega

theorem slotField_eq_zero (w : Word) : slotField w = 0 ↔ w.extractLsb' 8 8 = 0#8 := by
  rw [slotField_eq]; exact ⟨fun h => BitVec.eq_of_toNat_eq h, fun h => by rw [h]; rfl⟩

theorem rsvdField_eq_zero (w : Word) : rsvdField w = 0 ↔ w.extractLsb' 16 16 = 0#16 := by
  rw [rsvdField_eq]; exact ⟨fun h => BitVec.eq_of_toNat_eq h, fun h => by rw [h]; rfl⟩

/-- Two operand words that agree in a field of bits agree in the number that field is. -/
theorem low16_of_extract {a b : Word} (h : a.extractLsb' 0 16 = b.extractLsb' 0 16) :
    a.toNat % 65536 = b.toNat % 65536 := by
  have := congrArg BitVec.toNat h
  simpa [BitVec.extractLsb'_toNat] using this

end Sys2Proof
end

