-- ==== Sys2Proof/Laws/Flags.lean ====
section
/-! SUPPORT. The summary words bit by bit (10_state.md R32, R33, R39), and the active predicate (42_voice_engine.md R186). -/

namespace Sys2Proof.Machine

/-- Bit k of a slot word is the flag of slot k. -/
theorem slotBits_testBit (f : Slot → Bool) (l : List Slot) (k : Nat) :
    (slotBits f l).testBit k = ((l[k]?).map f).getD false := by
  induction l generalizing k with
  | nil => simp [slotBits]
  | cons a l ih =>
    cases k with
    | zero => cases h : f a <;> simp [slotBits, bit, h, Nat.testBit_zero]
    | succ k =>
      have h : (bit (f a) + 2 * slotBits f l) / 2 = slotBits f l := by cases f a <;> simp [bit]; omega
      rw [slotBits, Nat.testBit_succ, h, ih]; simp

theorem slotBits_lt (f : Slot → Bool) (l : List Slot) : slotBits f l < 2 ^ l.length := by
  induction l with
  | nil => simp [slotBits]
  | cons a l ih =>
    have : bit (f a) ≤ 1 := by cases f a <;> simp [bit]
    simp only [slotBits, List.length_cons, pow_succ]; omega

/-- Counting the slots of the table by index. -/
theorem length_filter_slots {n : Nat} (v : Vector Slot n) (p : Slot → Bool) :
    (v.toList.filter p).length = (List.finRange n).countP fun k => p v[k] := by
  have h : v.toList = (List.finRange n).map fun k => v[k] := by
    apply List.ext_getElem
    · simp
    · intro i h1 h2; simp
  rw [h, ← List.countP_eq_length_filter, List.countP_map]
  rfl

theorem isActive_iff {v : Voice} : isActive v = true ↔ v.act = true ∧ v.es ≠ .idle := by simp [isActive]

theorem isActive_eq_false_iff {v : Voice} : isActive v = false ↔ v.act = false ∨ v.es = .idle := by
  cases h : v.act <;> simp [isActive, h]

end Sys2Proof.Machine
end

