-- ==== Sys2Proof/Laws/Port.lean ====
section
/-! SUPPORT. What one host access does, said once (20_memory.md R70 to R84), and what a step can do. -/

namespace Sys2Proof.Machine

/-- An access of an idle machine takes its turn, refused by the port or accepted. -/
theorem step_access {s : State} {a : Access} {rest : List Turn} (hb : isBusy s = false)
    (ht : s.turns = .access a :: rest) :
    (∀ e, portError a = some e → step s = .next (refuseAccess e a { s with turns := rest })) ∧
    (portError a = none → step s = .next (acceptAccess a { s with turns := rest })) := by
  have ho : overlaps { s with turns := rest } a = false := by
    have : isBusy { s with turns := rest } = false := hb
    simp [overlaps, this]
  exact ⟨fun e h => by simp [step, turnStep, ht, hostAccess, ho, h], fun h => by
    simp [step, turnStep, ht, hostAccess, ho, h]⟩

/-- The port takes a full, aligned word. -/
theorem portError_word (kind : AccessKind) {off : BitVec 16} (h : off.toNat % 4 = 0) :
    portError ⟨kind, off, 32, 0xF#4⟩ = none := by simp [portError, isFullWord, h]

/-- A 32-bit write to an aligned offset of an idle machine. -/
theorem step_wr {s : State} {off : BitVec 16} {v : Word} {rest : List Turn} (hb : isBusy s = false)
    (ht : s.turns = wr off v :: rest) (ha : off.toNat % 4 = 0) :
    step s = .next (portWrite off.toNat v { s with turns := rest }) :=
  (step_access hb ht).2 (portError_word _ ha)

/-- A 32-bit read of an aligned offset of an idle machine. -/
theorem step_rd {s : State} {off : BitVec 16} {rest : List Turn} (hb : isBusy s = false)
    (ht : s.turns = rd off :: rest) (ha : off.toNat % 4 = 0) :
    step s = .next { s with turns := rest, readData := portRead s off.toNat } :=
  (step_access hb ht).2 (portError_word _ ha)

/-- A core step always answers a next state. -/
theorem coreStep_next (s : State) : ∃ t, coreStep s = .next t := by
  unfold coreStep
  cases s.lcmd with
  | none => exact ⟨_, rfl⟩
  | some c =>
    dsimp only
    cases decode c with
    | ok i => obtain ⟨t, h, -⟩ := exec_effect i s; exact ⟨t, h⟩
    | error e => exact ⟨_, rfl⟩

/-- What a core step can do: nothing while no command is latched, and otherwise run the instruction the latched command spells;
a latched word that spells none raises its error. -/
theorem coreStep_cases {s t : State} (h : coreStep s = .next t) :
    (s.lcmd = none ∧ t = s) ∨
    (∃ c i, s.lcmd = some c ∧ decode c = .ok i ∧ exec i s = .next t) ∨
    (∃ c e, s.lcmd = some c ∧ decode c = .error e ∧ t = raiseErr e { s with lcmd := none, rend := none }) := by
  unfold coreStep at h
  cases hl : s.lcmd with
  | none => rw [hl] at h; cases h; exact .inl ⟨rfl, rfl⟩
  | some c =>
    rw [hl] at h
    dsimp only at h
    cases hd : decode c with
    | ok i => rw [hd] at h; exact .inr (.inl ⟨c, i, rfl, hd, h⟩)
    | error e => rw [hd] at h; cases h; exact .inr (.inr ⟨c, e, rfl, hd, rfl⟩)

/-- What a step can do: the core's step, with its turn taken or with a wait that goes on, the end of a wait, or one access that
overlaps no command. -/
theorem step_cases {s t : State} (h : step s = .next t) :
    (s.turns = [] ∧ coreStep s = .next t) ∨
    (∃ rest, s.turns = .core :: rest ∧ coreStep { s with turns := rest } = .next t) ∨
    (∃ rest, s.turns = .waitIdle :: rest ∧ isBusy s = true ∧ coreStep s = .next t) ∨
    (∃ rest, s.turns = .waitIdle :: rest ∧ isBusy s = false ∧ t = { s with turns := rest, readData := statusWord s }) ∨
    (∃ a rest, s.turns = .access a :: rest ∧ overlaps s a = false ∧
      ((∃ e, portError a = some e ∧ t = refuseAccess e a { s with turns := rest }) ∨
        (portError a = none ∧ t = acceptAccess a { s with turns := rest }))) := by
  unfold step turnStep at h
  cases ht : s.turns with
  | nil => rw [ht] at h; exact .inl ⟨rfl, h⟩
  | cons turn rest =>
    rw [ht] at h
    cases turn with
    | core => exact .inr (.inl ⟨rest, rfl, h⟩)
    | waitIdle =>
      dsimp only [waitStep] at h
      cases hb : isBusy s with
      | true => rw [hb] at h; exact .inr (.inr (.inl ⟨rest, rfl, rfl, h⟩))
      | false => rw [hb] at h; cases h; exact .inr (.inr (.inr (.inl ⟨rest, rfl, rfl, rfl⟩)))
    | access a =>
      dsimp only [hostAccess] at h
      cases ho : overlaps { s with turns := rest } a with
      | true => rw [ho] at h; cases h
      | false =>
        rw [ho] at h
        refine .inr (.inr (.inr (.inr ⟨a, rest, rfl, ho, ?_⟩)))
        cases hp : portError a with
        | none => rw [hp] at h; cases h; exact .inr ⟨rfl, rfl⟩
        | some e => rw [hp] at h; cases h; exact .inl ⟨e, rfl, rfl⟩

/-- What a write to an aligned offset can do: store a BUF word, clear the error, decode a command, store an operand, or nothing. -/
theorem portWrite_cases (off : Nat) (v : Word) (s : State) :
    (inBuf off = true ∧ portWrite off v s = { s with mem := writeWord s.mem off v }) ∨
    (off = 0x004 ∧ portWrite off v s = clearErr v s) ∨
    (off = 0x010 ∧ portWrite off v s = writeCmd v s) ∨
    (off = 0x014 ∧ portWrite off v s = { s with argI := v }) ∨
    (off = 0x018 ∧ portWrite off v s = { s with argF := v }) ∨
    (inBuf off = false ∧ off ∉ [0x004, 0x010, 0x014, 0x018] ∧ portWrite off v s = s) := by
  unfold portWrite
  cases hb : inBuf off with
  | true => exact .inl ⟨rfl, rfl⟩
  | false =>
    simp only [Bool.false_eq_true, if_false]
    split
    · exact .inr (.inl ⟨rfl, rfl⟩)
    · exact .inr (.inr (.inl ⟨rfl, rfl⟩))
    · exact .inr (.inr (.inr (.inl ⟨rfl, rfl⟩)))
    · exact .inr (.inr (.inr (.inr (.inl ⟨rfl, rfl⟩))))
    · rename_i h1 h2 h3 h4
      refine .inr (.inr (.inr (.inr (.inr ⟨by simp, ?_, rfl⟩))))
      simp only [List.mem_cons, List.not_mem_nil, or_false, not_or]
      exact ⟨h1, h2, h3, h4⟩

/-- A BUF word's four bytes lie in BUF. -/
theorem inBuf_word {off : Nat} (h : inBuf off = true) (ha : off % 4 = 0) {a : Nat} (h1 : off ≤ a) (h2 : a < off + 4) :
    inBuf a = true := by
  rw [inBuf, Bool.and_eq_true, decide_eq_true_eq, decide_eq_true_eq] at h ⊢
  unfold bufBase Config.maxFrames at h ⊢
  omega

/-- An access the port accepts has an aligned offset. -/
theorem aligned_of_portError {a : Access} (h : portError a = none) : a.offset.toNat % 4 = 0 := by
  unfold portError at h
  split at h
  · cases h
  · split at h
    · cases h
    · omega

/-- A run of one step and more, of any machine. -/
theorem run_succ_of (M : Host.Core) {s t : M.State} (h : M.step s = .next t) (n : Nat) : M.run (n + 1) s = M.run n t := by
  simp only [Host.Core.run, h]

/-- A run of one step and more. -/
theorem run_succ {s t : State} (h : step s = .next t) (n : Nat) : core.run (n + 1) s = core.run n t := run_succ_of core h n

/-- A run of no step. -/
theorem run_zero (s : State) : core.run 0 s = .next s := rfl

/-- A run is its first part, then the rest, of any machine. -/
theorem run_add_of (M : Host.Core) {s t : M.State} {m : Nat} (h : M.run m s = .next t) (n : Nat) :
    M.run (m + n) s = M.run n t := by
  induction m generalizing s with
  | zero => cases h; rw [Nat.zero_add]
  | succ m ih =>
    rw [Nat.succ_add]
    cases hs : M.step s with
    | next u => rw [run_succ_of M hs] at h ⊢; exact ih h
    | fault r => simp only [Host.Core.run, hs] at h; cases h
    | refused r => simp only [Host.Core.run, hs] at h; cases h

/-- A run is its first part, then the rest. -/
theorem run_add {s t : State} {m : Nat} (h : core.run m s = .next t) (n : Nat) : core.run (m + n) s = core.run n t :=
  run_add_of core h n

end Sys2Proof.Machine
end

