-- ==== Sys2Proof/Laws/Invariant.lean ====
section
/-! SUPPORT. What keeps the invariant of the machine (`Sys2Proof.Machine.Inv`), update by update. -/

namespace Sys2Proof.Machine

theorem noSlots_ok (k : Fin Config.maxInstruments) : slotOk noSlots[k] := by simp [noSlots, slotOk]

/-- SR's and MV's clamps (30_encoding.md R94). -/
theorem rateOperand_range (v : Word) :
    F32.le Config.srMin (rateOperand v) = true ∧ F32.le (rateOperand v) Config.srMax = true :=
  F32.pclamp_range (by decide) (by decide)

theorem volumeOperand_range (v : Word) :
    F32.le F32.zero (volumeOperand v) = true ∧ F32.le (volumeOperand v) F32.two = true :=
  F32.pclamp_range (by decide) (by decide)

/-- The end of a command keeps the invariant. -/
theorem inv_finish {s : State} (r : Word) (h : Inv s) : Inv (finish r s) :=
  ⟨h.memCanonical, h.memInBuf, h.causeClear, h.causeSet, h.notReady, h.rate, h.volume, h.slots, fun c hc => (by cases hc),
    fun r hr => (by cases hr)⟩

/-- Storing a slot that is as its rule describes it keeps the invariant of a ready engine. -/
theorem inv_putSlot {s : State} {k : Fin Config.maxInstruments} {sl : Slot} (h : Inv s) (hr : s.ready = true)
    (ho : slotOk sl) : Inv (putSlot k sl s) := by
  refine ⟨h.memCanonical, h.memInBuf, h.causeClear, h.causeSet, fun hn => ?_, h.rate, h.volume, fun j => ?_, h.latched,
    h.rendering⟩
  · rw [putSlot_ready, hr] at hn; cases hn
  · by_cases e : k = j
    · subst e; simpa using ho
    · rw [putSlot_get_of_ne e]; exact h.slots j

/-- Frame f's bytes lie in BUF. -/
theorem inBuf_frame {f a : Nat} (hf : f < Config.maxFrames) (h1 : frameOffset f ≤ a) (h2 : a < frameOffset f + 8) :
    inBuf a = true := by
  unfold frameOffset bufBase at h1 h2
  have : f < 4096 := hf
  exact inBuf_iff.2 (by omega)

/-- Storing a frame and its slots keeps the invariant of a ready engine. -/
theorem inv_frame {s : State} {f : Nat} (h : Inv s) (ready : s.ready = true) (hf : f < Config.maxFrames)
    (sl : Vector Slot Config.maxInstruments) (fr : Frame) (rend : Option RenderCount) (lcmd : Option Command) (res : Word)
    (h0 : ∀ k : Fin Config.maxInstruments, slotOk sl[k]) (h1 : ∀ c, lcmd = some c → ∃ i, decode c = .ok i)
    (h2 : ∀ r, rend = some r → renderOk { s with lcmd := lcmd } r) :
    Inv { s with slots := sl, mem := writeFrame s.mem f fr, rend := rend, lcmd := lcmd, resultI := res } := by
  have e1 : Memory.wf (writeFrame s.mem f fr) = true := Memory.wf_writeFrame f fr h.memCanonical
  have e2 : ∀ c ∈ writeFrame s.mem f fr, inBuf c.1 = true := fun cell hc => by
    rcases mem_writeFrame hc with h3 | h3
    · exact inBuf_frame hf h3.1 h3.2
    · exact h.memInBuf _ h3
  generalize writeFrame s.mem f fr = m at e1 e2
  refine ⟨e1, e2, h.causeClear, h.causeSet, fun hn => ?_, h.rate, h.volume, h0, h1, h2⟩
  have : s.ready = false := hn
  rw [ready] at this; cases this

/-- The environment's turns and what a read returned are no part of the invariant. -/
theorem inv_turns {s : State} (turns : List Turn) (rd : Word) (h : Inv s) : Inv { s with turns := turns, readData := rd } :=
  ⟨h.memCanonical, h.memInBuf, h.causeClear, h.causeSet, h.notReady, h.rate, h.volume, h.slots, h.latched, h.rendering⟩

/-- Raising an error keeps the invariant. -/
theorem inv_raise {s : State} (e : ErrCode) (h : Inv s) : Inv (raiseErr e s) := by
  refine ⟨h.memCanonical, h.memInBuf, fun hn => (by cases hn), fun _ => ?_, h.notReady, h.rate, h.volume, h.slots, h.latched,
    h.rendering⟩
  show 1 ≤ (errCode e).toNat ∧ (errCode e).toNat ≤ 5
  cases e <;> decide

end Sys2Proof.Machine
end

