-- ==== Sys2Proof/Laws/PerInstr.lean ====
section
/-! SUPPORT. Statements about every instruction as syntax: the CMD word its encoding has, against the opcode table's rows
(30_encoding.md R91, R93; opcode_table.json). -/

namespace Sys2Proof.Laws.OpcodeRow

/-- The `match` of the instruction's row of opcode_table.json. -/
def matchOf : Instr → Word
  | .paramSet _ _ _ => 0x00000000#32
  | .noteOn _ _ _ => 0x00000001#32
  | .noteOff _ _ => 0x00000002#32
  | .reset _ => 0x00000003#32
  | .register _ _ _ => 0x00000004#32
  | .remove _ => 0x00000005#32
  | .paramGet _ _ => 0x00000006#32
  | .setEnable _ _ => 0x00000007#32
  | .init _ => 0x00000010#32
  | .render _ => 0x00000011#32
  | .teardown => 0x00000012#32
  | .setMasterVol _ => 0x00000013#32

/-- The `mask` of the instruction's row: a slot command's row leaves the SLOT field free. -/
def maskOf : Instr → Word
  | .paramSet _ _ _ => 0xFFFF00FF#32
  | .noteOn _ _ _ => 0xFFFF00FF#32
  | .noteOff _ _ => 0xFFFF00FF#32
  | .reset _ => 0xFFFF00FF#32
  | .register _ _ _ => 0xFFFF00FF#32
  | .remove _ => 0xFFFF00FF#32
  | .paramGet _ _ => 0xFFFF00FF#32
  | .setEnable _ _ => 0xFFFF00FF#32
  | .init _ => 0xFFFFFFFF#32
  | .render _ => 0xFFFFFFFF#32
  | .teardown => 0xFFFFFFFF#32
  | .setMasterVol _ => 0xFFFFFFFF#32

/-- A well-formed instruction's CMD word matches its row under the row's mask. -/
def Statement (i : Instr) : Prop := i.wellFormed = true → (encode i).word &&& maskOf i = matchOf i

/-- A slot command's word matches its row whatever the slot is. -/
theorem slotWord_matches : ∀ (op : Fin 8) (slot : Fin 256), cmdWord op slot &&& 0xFFFF00FF#32 = BitVec.ofNat 32 op := by
  decide +kernel

/-- An engine command's word is its row's match. -/
theorem engineWord_matches (w : Word) : w &&& 0xFFFFFFFF#32 = w := by
  rw [show (0xFFFFFFFF#32 : Word) = BitVec.allOnes 32 from rfl, BitVec.and_allOnes]

theorem isByteField_lt {n : Nat} (h : isByteField n = true) : n < 256 := by simpa [isByteField] using h

theorem paramSet (slot : Nat) (id : Int) (value : Word) : Statement (.paramSet slot id value) := fun h =>
  slotWord_matches 0 ⟨slot, isByteField_lt (Bool.and_eq_true _ _ ▸ h).1⟩

theorem noteOn (slot : Nat) (note : Int) (velocity : Word) : Statement (.noteOn slot note velocity) := fun h =>
  slotWord_matches 1 ⟨slot, isByteField_lt (Bool.and_eq_true _ _ ▸ h).1⟩

theorem noteOff (slot : Nat) (note : Int) : Statement (.noteOff slot note) := fun h =>
  slotWord_matches 2 ⟨slot, isByteField_lt (Bool.and_eq_true _ _ ▸ h).1⟩

theorem reset (slot : Nat) : Statement (.reset slot) := fun h => slotWord_matches 3 ⟨slot, isByteField_lt h⟩

theorem register (slot kind poly : Nat) : Statement (.register slot kind poly) := fun h => by
  simp only [Instr.wellFormed, Bool.and_eq_true] at h
  exact slotWord_matches 4 ⟨slot, isByteField_lt h.1.1⟩

theorem remove (slot : Nat) : Statement (.remove slot) := fun h => slotWord_matches 5 ⟨slot, isByteField_lt h⟩

theorem paramGet (slot : Nat) (id : Int) : Statement (.paramGet slot id) := fun h =>
  slotWord_matches 6 ⟨slot, isByteField_lt (Bool.and_eq_true _ _ ▸ h).1⟩

theorem setEnable (slot : Nat) (en : Bool) : Statement (.setEnable slot en) := fun h =>
  slotWord_matches 7 ⟨slot, isByteField_lt h⟩

theorem init (rate : Word) : Statement (.init rate) := fun _ => engineWord_matches _

theorem render (frames : Int) : Statement (.render frames) := fun _ => engineWord_matches _

theorem teardown : Statement .teardown := fun _ => engineWord_matches _

theorem setMasterVol (volume : Word) : Statement (.setMasterVol volume) := fun _ => engineWord_matches _

end Sys2Proof.Laws.OpcodeRow
end

