-- ==== Sys2Proof/Tests/Slice0.lean ====
section
/-! SUPPORT. Tests on fixed values, their expected results taken from spec/ (95_test_vectors.md and the rules' examples), and for
every obligation with hypotheses a witness that meets them. -/

namespace Sys2Proof.Tests

open Sys2Proof.Machine Sys2Proof.Machine.F32

/-! ### Small states -/

/-- A ready engine at 44100 Hz (R122) with one entry in a slot. -/
def readyAt (k : Fin 16) (sl : Slot) : State :=
  { State.reset with ready := true, sr := 0x472C4400#32, mv := one, slots := noSlots.set k sl }

def synthSlot : Slot := .occupied true (.synth (newSynth 2))
def drumSlot : Slot := .occupied true (.drum ⟨Vector.replicate 7 zero, 0⟩)
def fxSlot : Slot := .occupied true (.fx newFx)

/-- A voice that sounds. -/
def soundingVoice : Voice := { freshVoice with note := 60, vel := one, act := true, level := half, es := .sustain }

/-- A Synth whose first voice sounds and whose second is idle. -/
def soundingSlot : Slot := .occupied true (.synth { newSynth 2 with voices := [soundingVoice, freshVoice] })

/-- An idle machine with turns to come. -/
def idleWith (turns : List Turn) : State := { readyAt 0 synthSlot with turns := turns }

/-- A machine whose core has a command to run. -/
def busyWith (c : Command) (turns : List Turn) : State := { readyAt 0 synthSlot with lcmd := some c, turns := turns }

/-- A command's next state. -/
def after (i : Instr) (s : State) : State :=
  match exec i s with
  | .next t => t
  | .fault _ => s
  | .refused _ => s

/-- A step's next state. -/
def stepped (s : State) : State :=
  match step s with
  | .next t => t
  | .fault _ => s
  | .refused _ => s

/-- FX parameters: the defaults with some replaced. -/
def fxWith (l : List (Fin 29 × Word)) : FxParams := l.foldl (fun p e => p.set e.1 e.2) fxDefaults

/-! ### WellFormed refuses (R91, R92, R94) -/

theorem test_wf_slot_field : (Instr.paramSet 256 0 zero).wellFormed = false ∧ (Instr.noteOn 256 0 zero).wellFormed = false ∧
    (Instr.noteOff 256 0).wellFormed = false ∧ (Instr.reset 256).wellFormed = false ∧
    (Instr.register 256 0 0).wellFormed = false ∧ (Instr.remove 256).wellFormed = false ∧
    (Instr.paramGet 256 0).wellFormed = false ∧ (Instr.setEnable 256 true).wellFormed = false := by decide

theorem test_wf_integer_above : (Instr.paramSet 0 2147483648 zero).wellFormed = false ∧
    (Instr.noteOn 0 2147483648 zero).wellFormed = false ∧ (Instr.noteOff 0 2147483648).wellFormed = false ∧
    (Instr.paramGet 0 2147483648).wellFormed = false ∧ (Instr.render 2147483648).wellFormed = false := by decide

theorem test_wf_integer_below : (Instr.paramSet 0 (-2147483649) zero).wellFormed = false ∧
    (Instr.noteOn 0 (-2147483649) zero).wellFormed = false ∧ (Instr.noteOff 0 (-2147483649)).wellFormed = false ∧
    (Instr.paramGet 0 (-2147483649)).wellFormed = false ∧ (Instr.render (-2147483649)).wellFormed = false := by decide

theorem test_wf_register_fields : (Instr.register 0 256 0).wellFormed = false ∧ (Instr.register 0 0 256).wellFormed = false := by
  decide

/-! ### Decoding: words written out from R91 and R93, bits [31:16] RSVD, [15:8] SLOT, [7:0] OP -/

theorem test_decode_param_set : decode ⟨0b0000000000000000_00000000_00000000#32, 2#32, 0x47435000#32⟩ = .ok (.paramSet 0 2 0x47435000#32) := by decide
theorem test_decode_note_on : decode ⟨0b0000000000000000_00000000_00000001#32, 0x3C#32, 0x3F4CCCCD#32⟩ = .ok (.noteOn 0 60 0x3F4CCCCD#32) := by decide
theorem test_decode_note_off : decode ⟨0b0000000000000000_00000101_00000010#32, 0xFFFFFFFD#32, 9#32⟩ = .ok (.noteOff 5 (-3)) := by decide
theorem test_decode_reset : decode ⟨0b0000000000000000_00010000_00000011#32, 7#32, 9#32⟩ = .ok (.reset 16) := by decide
theorem test_decode_register : decode ⟨0b0000000000000000_00000001_00000100#32, 0xABCD0402#32, 9#32⟩ = .ok (.register 1 2 4) := by decide
theorem test_decode_remove : decode ⟨0b0000000000000000_00000011_00000101#32, 7#32, 9#32⟩ = .ok (.remove 3) := by decide
theorem test_decode_param_get : decode ⟨0b0000000000000000_00000001_00000110#32, 4#32, 9#32⟩ = .ok (.paramGet 1 4) := by decide
theorem test_decode_set_enable : decode ⟨0b0000000000000000_11111111_00000111#32, 3#32, 9#32⟩ = .ok (.setEnable 255 true) := by decide
theorem test_decode_init : decode ⟨0b0000000000000000_00000000_00010000#32, 7#32, 0x472C4400#32⟩ = .ok (.init 0x472C4400#32) := by decide
theorem test_decode_render : decode ⟨0b0000000000000000_00000000_00010001#32, 0xFFFFFFFB#32, 9#32⟩ = .ok (.render (-5)) := by decide
theorem test_decode_teardown : decode ⟨0b0000000000000000_00000000_00010010#32, 7#32, 9#32⟩ = .ok .teardown := by decide
theorem test_decode_set_master_vol : decode ⟨0b0000000000000000_00000000_00010011#32, 7#32, 0x40400000#32⟩ = .ok (.setMasterVol 0x40400000#32) := by decide

/-- V3 to V7 and R97's bounds: the first check that fails names the error. -/
theorem test_decode_refuses : (decode ⟨0x00010011#32, 0#32, 0#32⟩ = .error .rsvdBits) ∧ (decode ⟨0x00000008#32, 0#32, 0#32⟩ = .error .undefOp) ∧
    (decode ⟨0x0000000F#32, 0#32, 0#32⟩ = .error .undefOp) ∧ (decode ⟨0x00000014#32, 0#32, 0#32⟩ = .error .undefOp) ∧
    (decode ⟨0x000000FF#32, 0#32, 0#32⟩ = .error .undefOp) ∧ (decode ⟨0x00000111#32, 0#32, 0#32⟩ = .error .engineSlot) ∧
    (decode ⟨0x00FF0008#32, 0#32, 0#32⟩ = .error .rsvdBits) ∧ (decode ⟨0x00000510#32, 0#32, 0#32⟩ = .error .engineSlot) := by decide

/-- An opcode-table word of 32 bits, and one of 96 with its operand words above the CMD word. -/
theorem test_decode_table_word : decodeTableWord 32 0x00000305 = some (.remove 3) ∧
    decodeTableWord 96 0x3F4CCCCD_0000003C_00000001 = some (.noteOn 0 60 0x3F4CCCCD#32) ∧ decodeTableWord 32 0x08 = none := by decide

/-! ### Commands: at most two tests each -/

/-- V37 (R114): CUTOFF 50000 stores 20000. -/
theorem test_param_set_clamps : (after (.paramSet 0 2 0x47435000#32) (readyAt 0 synthSlot)).resultI = 1#32 ∧
    (after (.paramGet 0 2) (after (.paramSet 0 2 0x47435000#32) (readyAt 0 synthSlot))).resultF = 0x469C4000#32 := by decide
/-- V42, V43 (R211): CRUSH_BITS 3.7 stores 3.0, and a boolean written NaN stores 0.0. -/
theorem test_param_set_kinds : (after (.paramGet 1 4) (after (.paramSet 1 4 0x406CCCCD#32) (readyAt 1 fxSlot))).resultF = 0x40400000#32 ∧
    (after (.paramGet 1 0) (after (.paramSet 1 0 0x7FC00000#32) (readyAt 1 fxSlot))).resultF = 0#32 := by decide
/-- R115's example: SLOT_INFO[0].ACTIVE becomes 1. -/
theorem test_note_on_active : slotInfo (after (.noteOn 0 60 0x3F4CCCCD#32) (readyAt 0 synthSlot)).slots[0] = 0x0000012C#32 := by decide
/-- V41 (R227): no note support. -/
theorem test_note_on_fx : (after (.noteOn 1 60 one) (readyAt 1 fxSlot)).resultI = 0#32 := by decide
/-- V73 (R116), and program P4: a voice in Release is still active. -/
theorem test_note_off : (after (.noteOff 0 61) (readyAt 0 soundingSlot)) = { readyAt 0 soundingSlot with resultI := 1#32 } ∧
    slotInfo (after (.noteOff 0 60) (readyAt 0 soundingSlot)).slots[0] = 0x0000012C#32 := by decide
/-- R117's example: ACTIVE 0 after RESET. -/
theorem test_reset_silences : slotInfo (after (.reset 0) (readyAt 0 soundingSlot)).slots[0] = 0x0000002C#32 := by decide
/-- V29 to V32 (R118). -/
theorem test_register : slotInfo (after (.register 1 2 4) (readyAt 0 synthSlot)).slots[1] = 0x0000000E#32 ∧
    slotInfo (after (.register 0 0 4) (readyAt 0 .empty)).slots[0] = 0x0000004C#32 ∧
    slotInfo (after (.register 0 0 0) (readyAt 0 .empty)).slots[0] = 0x0000001C#32 ∧
    slotInfo (after (.register 0 0 15) (readyAt 0 .empty)).slots[0] = 0x0000008C#32 := by decide
/-- V33, V34 (R118): a Sampler fails and the Synth stays; slot 16 does not exist. -/
theorem test_register_fails : after (.register 3 3 0) (readyAt 3 synthSlot) = readyAt 3 synthSlot ∧
    after (.register 16 0 1) (readyAt 3 synthSlot) = readyAt 3 synthSlot := by decide
/-- V44, V45 (R119). -/
theorem test_remove : (after (.remove 3) (readyAt 3 synthSlot)).slots = noSlots ∧ (after (.remove 3) (readyAt 3 synthSlot)).resultI = 1#32 ∧
    (after (.remove 4) (readyAt 3 synthSlot)).resultI = 0#32 := by decide
/-- V40 (R120): RESULT_F stays. -/
theorem test_param_get_unknown : after (.paramGet 0 9) { readyAt 0 synthSlot with resultF := 5#32, resultI := 1#32 } =
    { readyAt 0 synthSlot with resultF := 5#32, resultI := 0#32 } := by decide
/-- V48 (R121). -/
theorem test_set_enable : (slotInfo (after (.setEnable 0 false) (readyAt 0 soundingSlot)).slots[0]) = 0x00000124#32 := by decide
/-- V23 to V25 (R122). -/
theorem test_init_rate : (after (.init 0x447A0000#32) State.reset).sr = 0x45FA0000#32 ∧ (after (.init 0x49742400#32) State.reset).sr = 0x483B8000#32 ∧
    (after (.init 0x7FC00000#32) State.reset).sr = 0x472C4400#32 := by decide
/-- V50 (R154, R310): nothing present; word 0 and 1 are +0.0 and word 2 keeps what the host wrote. -/
theorem test_render_silence : (after (.render 1) { readyAt 0 .empty with mem := writeWord [] 0x8008 half }).mem =
    writeWord (writeWord (writeWord [] 0x8000 zero) 0x8004 zero) 0x8008 half := by decide
/-- Program P5 (R264, R260): the first two samples of a rectangular dither on silence. -/
theorem test_render_dither :
    (dither (fxWith [(26, one)]) .left freshHistory zero).2 = 0x361EE0B0#32 ∧
    (dither (fxWith [(26, one)]) .right (dither (fxWith [(26, one)]) .left freshHistory zero).1 zero).2 = 0xB647DEC4#32 := by decide
/-- V47 (R124). -/
theorem test_teardown_twice : (after .teardown (readyAt 0 synthSlot)).resultI = 1#32 ∧
    after .teardown (after .teardown (readyAt 0 synthSlot)) = State.reset := by decide
/-- V26 to V28 (R125). -/
theorem test_set_master_vol : (after (.setMasterVol 0x40400000#32) (readyAt 0 .empty)).mv = 0x40000000#32 ∧
    (after (.setMasterVol 0xBF800000#32) (readyAt 0 .empty)).mv = 0#32 ∧
    (after (.setMasterVol 0x7FC00000#32) (readyAt 0 .empty)).mv = 0x3F800000#32 := by decide

/-! ### The stages of a frame, from the vectors of 95_test_vectors.md sections 2.4 to 2.8 -/

/-- W2, V63, V64 to V67, V71's envelope, and the Attack, Decay and Release steps of the exact table. -/
theorem test_voice_vectors : [1, 2, 3].map (fun w => wave w quarter) = [0xBF000000#32, one, zero] ∧
    frac (add 0x3F7E0000#32 0x3C800000#32) = 0x3C000000#32 ∧ filterAlpha 0x472C4400#32 synthDefaults = 0x3F3D7F87#32 ∧
    filterAlpha 0x46000000#32 synthDefaults = 0x3F70552F#32 ∧ filterOut (synthDefaults.set 3 one) half one = 0x3F266666#32 ∧
    attackStep (div one 0x46000000#32) 0x3A000000#32 threeQuarters = (.decay, one) ∧
    decayStep (div one 0x46000000#32) 0x3A000000#32 half 0x3F200000#32 = (.sustain, half) ∧
    releaseStep (div one 0x46000000#32) half 0x3A000000#32 0x3E000000#32 = (.idle, zero) := by decide

/-- A non-finite phase sum propagates to a NaN (93 U17), and R154's product is +0.0 at both zeros of MV. -/
theorem test_nonfinite_phase_and_silence : isNaN (frac infinity) = true ∧ isNaN (frac 0x7FC00000#32) = true ∧
    [zero, neg zero, one, two].map (fun mv => masterFrame mv ⟨zero, zero⟩) = List.replicate 4 ⟨zero, zero⟩ := by
  refine ⟨isNaN_frac_of_not_finite (by decide), isNaN_frac_of_not_finite (by decide), by decide⟩

/-- V90, V91, V96, V101 to V103, V110 to V113, V120, V124. -/
theorem test_fx_vectors : dcCoeff 0x472C4400#32 fxDefaults = 0x3F7F4541#32 ∧
    (runStage (dcStep 0x472C4400#32 fxDefaults) freshChannel [one, one, one]).2 = [one, 0x3F7F4541#32, 0x3F7E8B0A#32] ∧
    smoothCoeff fxDefaults[15] 0x472C4400#32 = 0x3B144581#32 ∧ smoothCoeff fxDefaults[16] 0x472C4400#32 = 0x396DB7EB#32 ∧
    width (fxWith [(18, two)]) ⟨one, zero⟩ = ⟨oneAndHalf, 0xBF000000#32⟩ ∧ width fxDefaults ⟨one, 0x30800000#32⟩ = ⟨one, 0x30800000#32⟩ ∧
    [0x3FC00000#32, 0xC0000000#32, 0x7FC00000#32, 0xFF800000#32].map (fun x => sclamp x fxDefaults[20]) =
      [0x3F7D70A4#32, 0xBF7D70A4#32, zero, 0xBF7D70A4#32] ∧
    tpOffsets.map (herm zero one one zero) = [one, 0x3F8C0000#32, 0x3F900000#32, 0x3F8C0000#32] ∧
    tpAttack 0x472C4400#32 fxDefaults = 0x3BB8B667#32 ∧ tpRelease 0x472C4400#32 fxDefaults = 0x38EDBED1#32 ∧
    (runStage (crush (fxWith [(4, four)])) freshChannel [0x3E99999A#32, 0xBD000000#32, 0x3F7851EC#32]).2 =
      [0x3EA00000#32, 0xBD800000#32, one] ∧
    quant 0xBF400000#32 1 = 0xBF800000#32 := by decide

/-- V134: noise-shaped dither at 8 bits, its first output and error. -/
theorem test_dither_vectors : (dither (fxWith [(26, two), (27, 0x41000000#32)]) .left freshHistory 0x3E99999A#32).2 = 0x3E9A0000#32 ∧
    (dither (fxWith [(26, two), (27, 0x41000000#32)]) .left freshHistory 0x3E99999A#32).1.left.nsErr = 0x38CB6000#32 := by decide

/-! ### The port (V3, V8 to V18) -/

theorem test_port_errors : statusWord (stepped { State.reset with turns := [wr cmdOffset 0x00010011#32] }) = 0x00000204#32 ∧
    statusWord (stepped { State.reset with turns := [rd 0x006#16] }) = 0x00000404#32 ∧
    statusWord (stepped { State.reset with turns := [.access ⟨.read, 0x003#16, 16, 0x3#4⟩] }) = 0x00000504#32 ∧
    (stepped { State.reset with turns := [.access ⟨.write 7#32, 0x014#16, 8, 0x1#4⟩] }).argI = 0#32 := by decide

theorem test_port_status_clear : stepped { State.reset with err := true, cause := 2#4, turns := [wr 0x004#16 3#32] } =
      { State.reset with err := true, cause := 2#4 } ∧
    stepped { State.reset with err := true, cause := 4#4, turns := [wr 0x004#16 4#32] } = State.reset := by decide

/-- V18: the bytes of a BUF word. -/
theorem test_port_byte_order : (stepped { State.reset with turns := [wr 0x8000#16 0x3F800000#32] }).mem =
    [(0x8000, 0x00#8), (0x8001, 0x00#8), (0x8002, 0x80#8), (0x8003, 0x3F#8)] := by decide

/-! ### Witnesses: concrete states and operands that meet each obligation's hypotheses -/

theorem witness_DecodeOfEncode : [Instr.paramSet 255 (-2147483648) zero, .noteOn 0 2147483647 one, .noteOff 255 (-1), .reset 0,
    .register 255 255 255, .remove 16, .paramGet 0 28, .setEnable 15 true, .init zero, .render 2147483647, .teardown,
    .setMasterVol two].all Instr.wellFormed = true := by decide

theorem witness_CmdWriteChecksInOrder : ∀ w ∈ [0x00010000#32, 0x00FF0008#32, 0x00000008#32, 0x00000014#32, 0x00000110#32,
    0x00000013#32, 0x0000FF07#32], isBusy (idleWith [wr cmdOffset w]) = false ∧ (idleWith [wr cmdOffset w]).turns = wr cmdOffset w :: [] :=
  fun _ _ => ⟨rfl, rfl⟩

theorem witness_UnusedOperandsIgnored : (0x00000003#32 : Word).extractLsb' 0 8 ∈ [0x03#8, 0x05#8, 0x12#8] ∧
    (0x0000FF11#32 : Word).extractLsb' 0 8 ∈ [0x02#8, 0x04#8, 0x06#8, 0x07#8, 0x11#8] ∧
    (0x00000013#32 : Word).extractLsb' 0 8 ∈ [0x10#8, 0x13#8] ∧
    ((0x00000104#32 : Word).extractLsb' 0 8 = 0x04#8 ∧ (0xFFFF0402#32 : Word).extractLsb' 0 16 = (0x00000402#32 : Word).extractLsb' 0 16) ∧
    ((0x00000107#32 : Word).extractLsb' 0 8 = 0x07#8 ∧ (0xFFFFFFFE#32 : Word).getLsbD 0 = (0#32 : Word).getLsbD 0) := by decide

/-- The command REMOVE of slot 0. -/
def removeCmd : Command := ⟨0x00000005#32, 0#32, 0#32⟩

theorem witness_StepRunsDecodedCommand :
    ((busyWith removeCmd []).lcmd = some removeCmd ∧ decode removeCmd = .ok (.remove 0) ∧ (busyWith removeCmd []).turns = []) ∧
    (busyWith removeCmd [.core]).turns = .core :: [] ∧ (busyWith removeCmd [.waitIdle]).turns = .waitIdle :: [] ∧
    decodeTableWord 32 0x00000305 = some (.remove 3) ∧ (State.reset.lcmd = none ∧ State.reset.turns = []) := by decide

theorem witness_OverlappingAccessFaults : ∀ a ∈ [(⟨.read, 0x000#16, 32, 0xF#4⟩ : Access), ⟨.read, 0x004#16, 32, 0xF#4⟩, ⟨.read, 0x008#16, 32, 0xF#4⟩,
    ⟨.write 0#32, 0x004#16, 32, 0xF#4⟩, ⟨.read, 0x8000#16, 32, 0xF#4⟩],
    isBusy (busyWith removeCmd [.access a]) = true ∧ (busyWith removeCmd [.access a]).turns = .access a :: [] := by decide

theorem witness_StepStopsOnOverlapOnly : step (busyWith removeCmd [.access ⟨.read, 0x008#16, 32, 0xF#4⟩]) = .fault .hostOverlap := rfl

theorem witness_PortRefusesWidthThenAlignment :
    (∀ a ∈ [(⟨.read, 0x014#16, 8, 0x1#4⟩ : Access), ⟨.write 1#32, 0x015#16, 16, 0x3#4⟩, ⟨.read, 0x014#16, 32, 0x7#4⟩],
      isBusy (idleWith [.access a]) = false ∧ (idleWith [.access a]).turns = .access a :: [] ∧ (a.width ≠ 32 ∨ a.lanes ≠ 0xF#4)) ∧
    (∀ a ∈ [(⟨.read, 0x001#16, 32, 0xF#4⟩ : Access), ⟨.write 1#32, 0xFFFF#16, 32, 0xF#4⟩],
      isBusy (idleWith [.access a]) = false ∧ (idleWith [.access a]).turns = .access a :: [] ∧
      a.width = 32 ∧ a.lanes = 0xF#4 ∧ a.offset.toNat % 4 ≠ 0) := by decide

theorem witness_StatusFieldsAndClear : (busyWith removeCmd [rd 0x004#16]).turns = rd 0x004#16 :: [] ∧
    (∀ v ∈ [0#32, 4#32, 0xFFFFFFFB#32], isBusy (idleWith [wr 0x004#16 v]) = false ∧ (idleWith [wr 0x004#16 v]).turns = wr 0x004#16 v :: []) :=
  ⟨rfl, fun _ _ => ⟨rfl, rfl⟩⟩

theorem witness_RegisterReads : ∀ e ∈ [(0x000#16, 0x4E584F01#32), (0x00C#16, 0x472C4400#32), (0x010#16, 0#32), (0x014#16, 0#32), (0x018#16, 0#32),
      (0x01C#16, 0#32), (0x020#16, 0#32), (0x024#16, one)],
    isBusy (idleWith [rd e.1, rd e.1]) = false ∧ (idleWith [rd e.1, rd e.1]).turns = rd e.1 :: rd e.1 :: [] ∧
    (idleWith [rd e.1, rd e.1]).sr = 0x472C4400#32 ∧ (idleWith [rd e.1, rd e.1]).mv = one ∧
    (idleWith [rd e.1, rd e.1]).argI = 0#32 ∧ (idleWith [rd e.1, rd e.1]).resultI = 0#32 :=
  fun _ _ => ⟨rfl, rfl, rfl, rfl, rfl, rfl⟩

/-- A machine that is not initialised, with an error pending and turns to come, meets the invariant. -/
theorem notReady_inv (turns : List Turn) : Inv { State.reset with err := true, cause := 5#4, turns := turns } :=
  ⟨rfl, by simp [State.reset], fun h => (by cases h), fun _ => (show 1 ≤ (5#4 : BitVec 4).toNat ∧ (5#4 : BitVec 4).toNat ≤ 5 by decide),
    fun _ => ⟨rfl, rfl, rfl⟩, fun h => (by cases h), fun h => (by cases h), noSlots_ok, fun c h => (by cases h), fun r h => (by cases h)⟩

theorem witness_SlotSummaryRegisters :
    (∀ off ∈ [0x008#16, 0x028#16, 0x02C#16], isBusy (idleWith [rd off]) = false ∧ (idleWith [rd off]).turns = rd off :: [] ∧
      (idleWith [wr off 1#32]).turns = wr off 1#32 :: []) ∧
    (Inv { State.reset with err := true, cause := 5#4, turns := [rd 0x008#16] } ∧
      ({ State.reset with err := true, cause := 5#4, turns := [rd 0x008#16] } : State).ready = false) :=
  ⟨fun _ _ => ⟨rfl, rfl, rfl⟩, notReady_inv _, rfl⟩

theorem newSynth2_ok : slotOk synthSlot := newSynth_ok 2

theorem fxSlot_ok : slotOk fxSlot := newFx_ok

/-- A slot of each kind, the first and the last slot among them. -/
theorem witness_SlotInfoFields : ∀ sl ∈ [Slot.empty, synthSlot, drumSlot, fxSlot], ∀ k ∈ [(0 : Fin 16), 15],
    isBusy { readyAt k sl with turns := [rd (BitVec.ofNat 16 (0x040 + 4 * k.val))] } = false ∧ slotOk (readyAt k sl).slots[k] ∧
    ({ readyAt k sl with turns := [rd (BitVec.ofNat 16 (0x040 + 4 * k.val))] } : State).turns =
      rd (BitVec.ofNat 16 (0x040 + 4 * k.val)) :: [] := by
  intro sl hsl k _
  refine ⟨rfl, ?_, rfl⟩
  have h : (readyAt k sl).slots[k] = sl := by simp [readyAt]
  rw [h]
  simp only [List.mem_cons, List.not_mem_nil, or_false] at hsl
  rcases hsl with rfl | rfl | rfl | rfl
  · exact True.intro
  · exact newSynth2_ok
  · exact True.intro
  · exact fxSlot_ok

theorem witness_BufferWordsReadBack : ∀ j ∈ [0, 8191], j < 8192 ∧ isBusy (idleWith []) = false ∧
    (idleWith [wr (BitVec.ofNat 16 (0x8000 + 4 * j)) 7#32]).turns = wr (BitVec.ofNat 16 (0x8000 + 4 * j)) 7#32 :: [] ∧
    (idleWith [rd (BitVec.ofNat 16 (0x8000 + 4 * j))]).turns = rd (BitVec.ofNat 16 (0x8000 + 4 * j)) :: [] := by decide

theorem witness_IgnoredWritesAndReservedReads :
    (∀ off : BitVec 16, isBusy (idleWith [wr off 1#32]) = false ∧ (idleWith [wr off 1#32]).turns = wr off 1#32 :: [] ∧
      isBusy (idleWith [rd off]) = false ∧ (idleWith [rd off]).turns = rd off :: []) ∧
    [0x000#16, 0x02C#16, 0x030#16, 0x07C#16, 0x7FFC#16].all (fun off => decide (off.toNat % 4 = 0 ∧
      (off ∈ [0x000#16, 0x008#16, 0x00C#16, 0x01C#16, 0x020#16, 0x024#16, 0x028#16, 0x02C#16] ∨
        (0x030 ≤ off.toNat ∧ off.toNat < 0x8000)))) = true ∧
    [0x030#16, 0x03C#16, 0x080#16, 0x7FFC#16].all (fun off => decide (off.toNat % 4 = 0 ∧
      ((0x030 ≤ off.toNat ∧ off.toNat < 0x040) ∨ (0x080 ≤ off.toNat ∧ off.toNat < 0x8000)))) = true :=
  ⟨fun _ => ⟨rfl, rfl, rfl, rfl⟩, by decide, by decide⟩

/-- The host sequence of R79 for SET_MASTER_VOL. -/
def hostSequence : List Turn := [wr argIOffset 0#32, wr argFOffset two, wr cmdOffset 0x00000013#32, .waitIdle]

def hostLatched : State :=
  { idleWith [.waitIdle] with argI := 0#32, argF := two, lcmd := some ⟨0x00000013#32, 0#32, two⟩ }

theorem witness_HostSequenceRunsCommand : isBusy (idleWith hostSequence) = false ∧
    (idleWith hostSequence).turns = hostSequence ∧ decode ⟨0x00000013#32, 0#32, two⟩ = .ok (.setMasterVol two) ∧
    exec (.setMasterVol two) hostLatched = .next (after (.setMasterVol two) hostLatched) ∧
    isBusy (after (.setMasterVol two) hostLatched) = false := ⟨rfl, rfl, by decide, rfl, by decide⟩

theorem witness_UninitialisedOnlyWritesZero : State.reset.ready = false ∧ ∀ rate, Instr.render 128 ≠ .init rate :=
  ⟨rfl, fun _ => by simp⟩

theorem witness_AbsentSlotOnlyWritesZero : (targetSlot (.register 16 0 1) = some 16 ∧ 16 ≤ 16) ∧
    (targetSlot (.noteOn 255 60 one) = some 255 ∧ 16 ≤ 255) ∧
    (targetSlot (.remove 15) = some 15 ∧ (∀ n kind poly, Instr.remove 15 ≠ .register n kind poly) ∧
      ∃ k : Fin 16, k.val = 15 ∧ (readyAt 0 synthSlot).slots[k] = .empty) :=
  ⟨⟨rfl, le_rfl⟩, ⟨rfl, by decide⟩, rfl, fun _ _ _ => by simp, 15, rfl, by decide⟩

theorem witness_SlotCommandFrame : (targetSlot (.remove 0) = some 0 ∧ ∃ t, exec (.remove 0) (readyAt 0 synthSlot) = .next t) ∧
    (targetSlot (.paramGet 0 1) = some 0 ∧ ∃ t, exec (.paramGet 0 1) (readyAt 0 synthSlot) = .next t) ∧
    (∀ n id, Instr.remove 0 ≠ .paramGet n id) := ⟨⟨rfl, _, rfl⟩, ⟨rfl, _, rfl⟩, fun _ _ => by simp⟩

theorem witness_SynthParamSetAndGet : ∀ k ∈ [(0 : Fin 16), 15], (readyAt k synthSlot).ready = true ∧
    (readyAt k synthSlot).slots[k] = .occupied true (.synth (newSynth 2)) ∧ ((-1 : Int) < 0 ∧ (8 : Int) ≤ 8) := by decide

theorem witness_DrumParamSetAndGet : (readyAt 0 drumSlot).ready = true ∧ (readyAt 0 drumSlot).slots[(0 : Fin 16)] = drumSlot ∧
    (∀ i ∈ [(0 : Fin 7), 3, 4, 6], ∃ id : Int, id = (if i.val < 4 then (i.val : Int) else i.val + 6)) ∧
    (∀ id ∈ [(-1 : Int), 4, 9, 13], id ∉ [(0 : Int), 1, 2, 3, 10, 11, 12]) :=
  ⟨rfl, by decide, fun _ _ => ⟨_, rfl⟩, by decide⟩

theorem witness_FxParamSetAndGet : (readyAt 0 fxSlot).ready = true ∧ (readyAt 0 fxSlot).slots[(0 : Fin 16)] = .occupied true (.fx newFx) ∧
    ((-1 : Int) < 0 ∧ (29 : Int) ≤ 29) := by decide

/-- A pool with an inactive voice, and one in which every voice is active. -/
theorem witness_NoteOnTakesFirstInactiveVoice : ((readyAt 0 soundingSlot).ready = true ∧ (readyAt 0 soundingSlot).slots[(0 : Fin 16)] = soundingSlot) ∧
    (readyAt 0 (.occupied true (.synth { newSynth 1 with voices := [soundingVoice] }))).slots[(0 : Fin 16)] =
      .occupied true (.synth { newSynth 1 with voices := [soundingVoice] }) := by decide

theorem witness_NoteOffReleasesMatchingVoices : (readyAt 0 soundingSlot).ready = true ∧ (readyAt 0 soundingSlot).slots[(0 : Fin 16)] = soundingSlot ∧
    ([soundingVoice, freshVoice][0]? = some soundingVoice ∧ soundingVoice.act = true ∧ soundingVoice.es ≠ .idle ∧
      (soundingVoice.note : Int) = min 127 (max 0 60)) ∧
    ([soundingVoice, freshVoice][1]? = some freshVoice ∧
      ¬ (freshVoice.act = true ∧ freshVoice.es ≠ .idle ∧ (freshVoice.note : Int) = min 127 (max 0 60))) := by decide

theorem witness_NotesToDrumAndFx : (readyAt 0 drumSlot).ready = true ∧ (readyAt 0 drumSlot).slots[(0 : Fin 16)] = drumSlot ∧
    (readyAt 15 fxSlot).slots[(15 : Fin 16)] = fxSlot := by decide

theorem witness_ResetZeroesHistory : (readyAt 0 soundingSlot).ready = true ∧ (readyAt 0 soundingSlot).slots[(0 : Fin 16)] = soundingSlot ∧
    (readyAt 0 drumSlot).slots[(0 : Fin 16)] = drumSlot ∧ (readyAt 0 fxSlot).slots[(0 : Fin 16)] = fxSlot := by decide

theorem witness_RegisterReplacesSlot : (readyAt 0 synthSlot).ready = true ∧ ∀ kind ∈ [3, 4, 255], 3 ≤ kind := by decide

theorem witness_RemoveEmptiesSlot : (readyAt 15 synthSlot).ready = true ∧
    (readyAt 15 synthSlot).slots[(15 : Fin 16)] = .occupied true (.synth (newSynth 2)) := by decide

theorem witness_SetEnableKeepsInstance : (readyAt 0 fxSlot).ready = true ∧
    (readyAt 0 fxSlot).slots[(0 : Fin 16)] = .occupied true (.fx newFx) := by decide

theorem witness_TeardownReleasesEngine : (readyAt 0 synthSlot).ready = true := rfl

theorem witness_MasterVolumeIsClamped : (readyAt 0 .empty).ready = true := rfl

/-- INIT at 192000 Hz on the engine at 44100 Hz. -/
def initCmd : Command := ⟨0x00000010#32, 0#32, 0x483B8000#32⟩

theorem witness_RateChangesByInitOrTeardown : step (busyWith initCmd []) = .next (stepped (busyWith initCmd [])) ∧
    (stepped (busyWith initCmd [])).sr ≠ (busyWith initCmd []).sr := ⟨rfl, by decide⟩

theorem witness_RenderStepWritesItsFrame : (readyAt 0 .empty).ready = true ∧ (0 : Int) ≤ 0 ∧ (0 : Int) < 1 ∧
    ∃ rf rn : Nat, (rf, rn) = (match (readyAt 0 .empty).rend with | some c => (c.rf, c.rn) | none => (0, min (Int.toNat 5000) 4096)) :=
  ⟨rfl, le_rfl, by decide, _, _, rfl⟩

/-- On the first step and in the middle of a RENDER. -/
theorem witness_RenderedSamplesAreBounded : (readyAt 0 synthSlot).ready = true ∧ (0 : Int) < 1 ∧
    0 = ((readyAt 0 synthSlot).rend.getD ⟨0, framesOperand 1⟩).rf ∧
    4095 = ({ readyAt 0 synthSlot with rend := some ⟨4095, 4096⟩ }.rend.getD ⟨0, framesOperand 5000⟩).rf :=
  ⟨rfl, by decide, rfl, rfl⟩

/-- RENDER of a number of frames. -/
def renderCmd (n : Word) : Command := ⟨0x00000011#32, n, 0#32⟩

/-- A RENDER of 5000 frames, which is cut to 4096, latched. -/
theorem witness_RenderNeverFails : (busyWith (renderCmd 5000#32) []).ready = true ∧ (busyWith (renderCmd 5000#32) []).turns = [] ∧
    (busyWith (renderCmd 5000#32) []).lcmd = some (renderCmd 5000#32) ∧ decode (renderCmd 5000#32) = .ok (.render 5000) ∧ (0 : Int) < 5000 ∧
    (busyWith (renderCmd 5000#32) []).rend = none := by decide

theorem witness_BlockSizeInvariance : 0 < 1 ∧ 0 < 4095 ∧ 1 + 4095 ≤ 4096 ∧ (idleWith []).ready = true ∧ (idleWith []).turns = [] ∧
    decode (renderCmd 4096#32) = .ok (.render ((1 + 4095 : Nat) : Int)) ∧ decode (renderCmd 1#32) = .ok (.render ((1 : Nat) : Int)) ∧
    decode (renderCmd 4095#32) = .ok (.render ((4095 : Nat) : Int)) := by decide

/-- Slots 0, 1, 2, 3 and 15 of one table: an enabled Synth, DrumMachine and FxProcessor, a disabled FxProcessor and an empty slot;
and the two cases of the master product. -/
theorem witness_SlotsRunInAscendingOrder :
    ∀ slots, slots = ((((readyAt 0 soundingSlot).slots.set 1 drumSlot).set 2 fxSlot).set 3 (.occupied false (.fx newFx))) →
      (∃ x, slots[(0 : Fin 16)] = .occupied true (.synth x)) ∧
      (∃ x, slots[(1 : Fin 16)] = .occupied true (.drum x) ∧
        ∃ yl yr ds, Config.drumRender x.ds x.dp 0x472C4400#32 = (yl, yr, ds)) ∧
      (∃ x, slots[(2 : Fin 16)] = .occupied true (.fx x)) ∧
      (∀ inst, slots[(3 : Fin 16)] ≠ .occupied true inst) ∧ (∀ inst, slots[(15 : Fin 16)] ≠ .occupied true inst) ∧
      (mag (neg zero) = 0 ∧ mag two ≠ 0) := by
  rintro slots rfl
  exact ⟨⟨_, rfl⟩, ⟨_, rfl, _, _, _, rfl⟩, ⟨_, rfl⟩, nofun, nofun, by decide⟩

/-- Two slot tables that differ above slot 0, which holds a Synth. -/
theorem witness_SlotsAreIsolated :
    (∀ j : Fin 16, j ≤ 0 → (readyAt 0 synthSlot).slots[j] = ((readyAt 0 synthSlot).slots.set 5 fxSlot)[j]) ∧
    (readyAt 0 synthSlot).slots ≠ (readyAt 0 synthSlot).slots.set 5 fxSlot ∧
    (∀ en x, (readyAt 0 synthSlot).slots[(0 : Fin 16)] ≠ .occupied en (.fx x)) := by
  refine ⟨by decide, by decide, fun en x h => ?_⟩
  have h0 : (readyAt 0 synthSlot).slots[(0 : Fin 16)] = .occupied true (.synth (newSynth 2)) := by decide
  rw [h0] at h
  cases h

theorem witness_DisabledSlotIsSkipped : isEnabled (readyAt 0 (.occupied false (.synth (newSynth 2)))).slots[(0 : Fin 16)] = false ∧
    isEnabled (readyAt 0 synthSlot).slots[(15 : Fin 16)] = false := by decide

/-- The bounds of MV's range, and -0.0. -/
theorem witness_SilentMixIsZero : [zero, two, neg zero].all (fun mv => le zero mv && le mv two) = true ∧
    ∀ k : Fin 16, isEnabled (readyAt 0 (.occupied false (.fx newFx))).slots[k] = false := ⟨by decide, by decide⟩

theorem witness_PolyphonyLimit : (readyAt 0 synthSlot).ready = true ∧
    (readyAt 0 synthSlot).slots[(0 : Fin 16)] = .occupied true (.synth (newSynth 2)) ∧ 1 ≤ (newSynth 2).voices.length ∧
    [((60 : Int), one), (64, one)].length = (newSynth 2).voices.length := by decide

theorem witness_InactiveVoicesAreSilent : ∀ v ∈ [freshVoice, { soundingVoice with act := false }, { freshVoice with act := true }],
    v.act = false ∨ v.es = .idle := by decide

/-- Each comparison of the Attack and Release arms, both ways (the exact table: SR 8192, A = R = 2^-11, S 0.5). -/
theorem witness_EnvelopeArms : le one (add threeQuarters (div (div one 0x46000000#32) 0x3A000000#32)) = true ∧
    le one (add zero (div (div one 0x46000000#32) 0x3A000000#32)) = false ∧
    le (sub 0x3E000000#32 (div (mul half (div one 0x46000000#32)) 0x3A000000#32)) zero = true ∧
    le (sub half (div (mul half (div one 0x46000000#32)) 0x3A000000#32)) zero = false := by decide

/-- A sounding voice, each waveform number, and phase sums at the ends of R21's range and outside the finite values. 0x3D5C0000 is
R173's inc for note 69 at SR 8192. -/
theorem witness_ActiveVoiceFrame : soundingVoice.act = true ∧ soundingVoice.es ≠ .idle ∧
    (∃ w out, voiceStep 0x472C4400#32 synthDefaults soundingVoice = (w, out)) ∧
    [zero, one, two, 0x40400000#32].map (fun w => wholePart (synthDefaults.set 0 w)[0]) = [0, 1, 2, 3] ∧
    [zero, add 0x3F7FFFFF#32 0x3D5C0000#32, 0x7F7FFFFF#32].all (fun u => isFinite u && le zero u) = true ∧
    [add half infinity, 0x7FC00000#32].all (fun u => !isFinite u) = true :=
  ⟨rfl, by decide, ⟨_, _, rfl⟩, by decide, by decide, by decide⟩

/-- V71: SR 8192, SUSTAIN 0, level 0.25. -/
theorem witness_ReleaseNeverEndsAtZeroSustain : le Config.srMin 0x46000000#32 = true ∧ le 0x46000000#32 Config.srMax = true ∧
    (∀ i : Fin 8, paramOk (synthSpec i) (synthDefaults.set 6 zero)[i]) ∧ mag (synthDefaults.set 6 zero)[6] = 0 ∧
    isFinite quarter = true ∧ lt zero quarter = true := by
  refine ⟨by decide, by decide, ?_, by decide, by decide, by decide⟩
  unfold paramOk
  decide

theorem witness_NumericsProfileProperties : ((-126 : Int) ≤ -126 ∧ (-126 : Int) ≤ 127) ∧ ((-126 : Int) ≤ 127 ∧ (127 : Int) ≤ 127) ∧
    isNaN half = false ∧ isNaN 0x7FC00000#32 = true := by decide

theorem witness_FxOutputIsLimited : ∀ i : Fin 29, paramOk (fxSpec i) newFx.fp[i] := fxDefaults_ok

/-- An FxProcessor with every stage off, and one with a stage on in its turn: what each clause asks for. -/
theorem witness_DisabledStagesStandStill :
    (∀ x : Fx, x = newFx → ∃ h : FxHistory, h = (fxFrame 0x472C4400#32 x ⟨one, one⟩).1.hist ∧
      (x.hist.left, h.left) ∈ [(x.hist.left, h.left), (x.hist.right, h.right)]) ∧
    ((fxWith [(0, zero)])[0] ≠ one ∧ fxDefaults[2] ≠ one ∧ (fxWith [(3, one)])[2] ≠ one ∧ wholePart (fxWith [(3, one)])[3] ≠ 0 ∧
      wholePart fxDefaults[3] = 0 ∧ (fxWith [(12, zero)])[12] ≠ one ∧ fxDefaults[21] ≠ one ∧ fxDefaults[25] ≠ one ∧
      (fxWith [(25, one)])[25] = one ∧ wholePart (fxWith [(26, one)])[26] = 1) := by
  refine ⟨fun x hx => ⟨_, rfl, by simp⟩, ?_⟩
  decide

/-- Every enable off, WIDTH and FX_GAIN 1.0. -/
def bypassed : FxParams := fxWith [(0, zero), (7, zero), (9, zero), (12, zero)]

/-- Each condition of the chain's first clause, met and not: the enables, the two lo-fi stages, a crossing, the width, the ditherers. -/
theorem witness_FxFrameRunsStagesInOrder :
    (∀ i ∈ [0, 2, 7, 9, 12, 21, 25].map (Fin.ofNat 29), (fxWith [(i, one)])[i] = one ∧ (fxWith [(i, zero)])[i] ≠ one) ∧
    wholePart fxDefaults[3] = 0 ∧ wholePart (fxWith [(3, one)])[3] ≠ 0 ∧
    le one (add freshChannel.crPhase fxDefaults[5]) = true ∧ le one (add freshChannel.crPhase (fxWith [(5, half)])[5]) = false ∧
    eq fxDefaults[18] one = true ∧ eq (fxWith [(18, two)])[18] one = false ∧
    [zero, one, two].map (fun w => wholePart (fxWith [(26, w)])[26]) = [0, 1, 2] := by decide

theorem witness_FxFrameRunsStagesInOrder_bypassed : (∀ i : Fin 29, paramOk (fxSpec i) bypassed[i]) ∧ bypassed[0] = zero ∧ bypassed[2] = zero ∧
    bypassed[7] = zero ∧ bypassed[9] = zero ∧ bypassed[12] = zero ∧ bypassed[21] = zero ∧ bypassed[25] = zero ∧ bypassed[18] = one ∧
    bypassed[19] = one := by
  refine ⟨?_, by decide⟩
  unfold paramOk
  decide

theorem witness_DcBlockerStaysPoisoned : isFinite freshChannel.dcX1 = true ∧ isFinite freshChannel.dcY1 = true ∧
    isFinite infinity = false ∧ isFinite 0x7FC00000#32 = false := by decide

theorem witness_DecimatorHoldsEveryNth : (∀ i : Fin 29, paramOk (fxSpec i) fxDefaults[i]) ∧ freshChannel.dmCnt = 0 ∧
    0 < [one, two, three].length := ⟨fxDefaults_ok, rfl, by decide⟩

theorem witness_QuantizationIsProjection : (1 ≤ 1 ∧ 1 ≤ 24) ∧ (1 ≤ 24 ∧ 24 ≤ 24) ∧ isNaN 0xBE800000#32 = false ∧ isNaN infinity = false ∧
    isNaN 0x7FC00000#32 = true := by decide

theorem witness_TpdfOffsetBelowHalfStep : (8 ≤ 8 ∧ 8 ≤ 24) ∧ (8 ≤ 24 ∧ 24 ≤ 24) ∧
    ∃ d, d = tpdfOffset (pow2 (-16)) (prngValue (prngNext Config.prngSeed)) (prngValue 0#31) := ⟨by decide, by decide, _, rfl⟩

/-- A ready engine with a Synth and a latched REMOVE meets the invariant. -/
theorem busy_inv (turns : List Turn) : Inv (busyWith removeCmd turns) := by
  refine ⟨rfl, by simp [busyWith, readyAt, State.reset], fun _ => rfl, fun h => (by cases h), fun h => (by cases h), fun _ => ?_, fun _ => ?_,
    fun k => ?_, fun c h => ?_, fun r h => (by cases h)⟩
  · show le Config.srMin 0x472C4400#32 = true ∧ le 0x472C4400#32 Config.srMax = true; decide
  · show le zero one = true ∧ le one two = true; decide
  · show slotOk (noSlots.set 0 synthSlot)[k]
    by_cases hk : k = 0
    · subst hk; exact newSynth2_ok
    · have h : (0 : Nat) ≠ k := fun e => hk (Fin.ext e.symm)
      have : (noSlots.set 0 synthSlot)[k] = noSlots[k] := by simp [h]
      rw [this]; exact noSlots_ok k
  · cases h; exact ⟨.remove 0, by decide⟩

theorem witness_StepKeepsInvariant : Inv (busyWith removeCmd []) ∧ step (busyWith removeCmd []) = .next (stepped (busyWith removeCmd [])) :=
  ⟨busy_inv [], rfl⟩

theorem witness_LatchedCommandCompletes : Inv (busyWith removeCmd []) ∧ isBusy (busyWith removeCmd []) = true ∧
    (busyWith removeCmd []).turns = [] := ⟨busy_inv [], rfl, rfl⟩

end Sys2Proof.Tests
end

section
/-! PROOFS. The core's step on a latched command (00_scope.md R6; 40_engine_commands.md R110). -/

namespace Sys2Proof.Machine

/-! ### Which step is the core's -/

/-- With no turn left the core steps. -/
theorem step_of_turns_nil {s : State} (ht : s.turns = []) : step s = coreStep s := by simp [step, turnStep, ht]

/-- A `core` turn is taken by the core's step. -/
theorem step_of_core_turn {s : State} {rest : List Turn} (ht : s.turns = .core :: rest) :
    step s = coreStep { s with turns := rest } := by simp [step, turnStep, ht]

/-- A `waitIdle` turn stays while a command is latched, and the core steps. -/
theorem step_of_waitIdle_turn {s : State} {rest : List Turn} (hb : isBusy s = true) (ht : s.turns = .waitIdle :: rest) :
    step s = coreStep s := by simp [step, turnStep, ht, waitStep, hb]

/-- A placed table word is what the core steps on, the environment's turns untouched. -/
theorem step_withFetchWord (s : State) (nbits w : Nat) :
    step (s.withFetchWord nbits w) = coreStep { s with lcmd := some (commandOfBits nbits w), rend := none } :=
  step_of_core_turn rfl

/-! ### What the core's step does -/

/-- The core runs the instruction that the latched command spells. -/
theorem coreStep_of_decode {s : State} {c : Command} {i : Instr} (hc : s.lcmd = some c) (hd : decode c = .ok i) :
    coreStep s = exec i s := by simp [coreStep, hc, hd]

/-- With no command latched the core is idle. -/
theorem coreStep_of_no_command {s : State} (hc : s.lcmd = none) : coreStep s = .next s := by simp [coreStep, hc]

theorem isBusy_of_command {s : State} {c : Command} (hc : s.lcmd = some c) : isBusy s = true := by simp [isBusy, hc]

/-- The table decoder answers an instruction exactly where the command's decoder does. -/
theorem decodeTableWord_eq_some {nbits w : Nat} {i : Instr} :
    decodeTableWord nbits w = some i ↔ decode (commandOfBits nbits w) = .ok i := by
  unfold decodeTableWord
  cases decode (commandOfBits nbits w) <;> simp

/-- Settles O5: each kind of step in which the core acts is a core step, and a core step runs what the latched command
decodes to. -/
theorem stepRunsDecodedCommand : Obligations.StepRunsDecodedCommand := by
  refine ⟨fun s c i hc hd => ⟨fun ht => ?_, fun rest ht => ?_, fun rest ht => ?_⟩, fun s nbits w i hd => ?_, fun s hc ht => ?_⟩
  · exact (step_of_turns_nil ht).trans (coreStep_of_decode hc hd)
  · exact (step_of_core_turn ht).trans (coreStep_of_decode hc hd)
  · exact (step_of_waitIdle_turn (isBusy_of_command hc) ht).trans (coreStep_of_decode hc hd)
  · exact (step_withFetchWord s nbits w).trans (coreStep_of_decode rfl (decodeTableWord_eq_some.1 hd))
  · exact (step_of_turns_nil ht).trans (coreStep_of_no_command hc)

end Sys2Proof.Machine
end

section
/-! PROOFS. The numerics profile has its named properties, whatever the OPEN functions are (00_scope.md R16). -/

namespace Sys2Proof.Machine.F32

@[simp] theorem abs_neg (x : Word) : abs (neg x) = abs x := ext_sign_mag (by simp) (by simp)

@[simp] theorem abs_abs (x : Word) : abs (abs x) = abs x := ext_sign_mag (by simp) (by simp)

theorem abs_of_sign_false {x : Word} (h : sign x = false) : abs x = x := ext_sign_mag (by simp [h]) (by simp)

/-- Two values that are no NaN are ordered (R13). -/
theorem le_of_lt_eq_false {a b : Word} (ha : isNaN a = false) (hb : isNaN b = false) (h : lt b a = false) :
    le a b = true := by
  simp only [lt, ha, hb, Bool.not_false, Bool.true_and, decide_eq_false_iff_not, not_lt] at h
  exact le_iff.2 ⟨ha, hb, h⟩

/-- The whole part of f32(n) is the magnitude of n, where f32(n) is exact (R17). -/
theorem wholePart_ofInt {n : Int} (h : n.natAbs < 2 ^ 24) : wholePart (ofInt n) = n.natAbs := by
  obtain ⟨-, -, hu⟩ := ofInt_exact h
  rw [wholePart_eq, hu, Nat.mul_div_cancel _ unitsPerOne_pos]

theorem isWhole_ofInt {n : Int} (h : n.natAbs < 2 ^ 24) : isWhole (ofInt n) = true := by
  obtain ⟨hf, -, hu⟩ := ofInt_exact h
  simp [isWhole, hf, hu]

end Sys2Proof.Machine.F32

namespace Sys2Proof.Machine.Num

open Sys2Proof.Machine.F32

/-! ### P5: a NaN for a NaN -/

@[simp] theorem isNaN_nanOr (op : Config.NanSource) (raw x : Word) : isNaN (nanOr op raw x) = true := by
  unfold nanOr
  split
  · assumption
  · exact isNaN_nanResult op x x

theorem isNaN_sin {x : Word} (h : isNaN x = true) : isNaN (sin x) = true := by simp [sin, h]

theorem isNaN_tanh {x : Word} (h : isNaN x = true) : isNaN (tanh x) = true := by simp [tanh, h]

theorem isNaN_exp {x : Word} (h : isNaN x = true) : isNaN (exp x) = true := by simp [exp, h]

theorem isNaN_log10 {x : Word} (h : isNaN x = true) : isNaN (log10 x) = true := by simp [log10, h]

theorem isNaN_pow10 {x : Word} (h : isNaN x = true) : isNaN (pow10 x) = true := by simp [pow10, h]

theorem isNaN_exp2 {x : Word} (h : isNaN x = true) : isNaN (exp2 x) = true := by simp [exp2, h]

/-! ### P1: powers of 2 -/

theorem exponentOf_ofInt {n : Int} (h1 : -126 ≤ n) (h2 : n ≤ 127) : exponentOf (ofInt n) = some n := by
  have hn : n.natAbs < 2 ^ 24 := by omega
  obtain ⟨-, hs, -⟩ := ofInt_exact hn
  have hk : (if sign (ofInt n) then -(wholePart (ofInt n) : Int) else wholePart (ofInt n)) = n := by
    rw [hs, wholePart_ofInt hn]
    by_cases h : n < 0
    · rw [decide_eq_true h, if_pos rfl]; omega
    · rw [decide_eq_false h, if_neg Bool.false_ne_true]; omega
  simp [exponentOf, hk, isWhole_ofInt hn, h1, h2]

theorem exp2_ofInt {n : Int} (h1 : -126 ≤ n) (h2 : n ≤ 127) : exp2 (ofInt n) = pow2 n := by
  obtain ⟨hf, -, -⟩ := ofInt_exact (show n.natAbs < 2 ^ 24 by omega)
  simp [exp2, finite_not_nan hf, exponentOf_ofInt h1 h2]

/-! ### P2 and P3: values at +0.0 -/

theorem pow10_zero : pow10 zero = one := rfl

theorem sin_zero : sin zero = zero := rfl

theorem exp_zero : exp zero = one := rfl

theorem tanh_zero : tanh zero = zero := rfl

/-! ### P4: the hyperbolic tangent -/

/-- The magnitude's answer is a number of at most 1.0, whatever the OPEN function gives. -/
theorem le_abs_tanhMag_one (x : Word) : le (abs (tanhMag x)) one = true := by
  unfold tanhMag
  split
  · decide
  · split
    · decide
    · split
      · decide
      next h =>
        rw [Bool.not_eq_true, Bool.or_eq_false_iff] at h
        obtain ⟨hn, hl⟩ := h
        exact le_of_lt_eq_false (by rwa [isNaN_abs]) (by decide) hl

/-- An argument's sign is passed on to the magnitude's answer. -/
theorem tanh_of_not_nan {x : Word} (hx : isNaN x = false) :
    tanh x = if sign x then neg (tanhMag (abs x)) else tanhMag (abs x) := by
  cases hs : sign x
  · simp [tanh, hx, hs, abs_of_sign_false hs]
  · simp [tanh, hx, hs]

theorem tanh_neg {x : Word} (hx : isNaN x = false) : tanh (neg x) = neg (tanh x) := by
  rw [tanh_of_not_nan (by rwa [isNaN_neg]), tanh_of_not_nan hx, sign_neg, abs_neg]
  cases sign x <;> simp

theorem abs_tanh {x : Word} (hx : isNaN x = false) : abs (tanh x) = abs (tanhMag (abs x)) := by
  rw [tanh_of_not_nan hx]
  cases sign x <;> simp

theorem le_abs_tanh_one {x : Word} (hx : isNaN x = false) : le (abs (tanh x)) one = true := by
  rw [abs_tanh hx]; exact le_abs_tanhMag_one _

theorem tanh_infinity : tanh infinity = one := rfl

/-- Settles O48: P1 from the exact whole numbers, P4 from the magnitude's bound and the sign passed on, and the rest from
the values imposed on the OPEN functions. -/
theorem numericsProfileProperties : Obligations.NumericsProfileProperties := by
  refine ⟨fun n h1 h2 => exp2_ofInt h1 h2, pow10_zero, ⟨sin_zero, tanh_zero, exp_zero⟩,
    fun x hx => ⟨tanh_neg hx, le_abs_tanh_one hx⟩, ⟨tanh_infinity, ?_⟩, fun x hx f hf => ?_⟩
  · rw [tanh_neg (by decide), tanh_infinity]
  · simp only [List.mem_cons, List.not_mem_nil, or_false] at hf
    rcases hf with rfl | rfl | rfl | rfl | rfl | rfl
    · exact isNaN_sin hx
    · exact isNaN_tanh hx
    · exact isNaN_exp hx
    · exact isNaN_log10 hx
    · exact isNaN_pow10 hx
    · exact isNaN_exp2 hx

end Sys2Proof.Machine.Num
end

section
/-! PROOFS. Every step keeps the machine's invariant, and the reset state meets it (10_state.md R32 to R48, R60). -/

namespace Sys2Proof.Machine

open Sys2Proof.Machine.F32

/-! ### The updates of a command -/

/-- An update of RESULT_F and the draw counter is none of the invariant's business. -/
theorem inv_resultF_draws {s : State} (v : Word) (n : Nat) (h : Inv s) : Inv { s with resultF := v, draws := n } :=
  ⟨h.memCanonical, h.memInBuf, h.causeClear, h.causeSet, h.notReady, h.rate, h.volume, h.slots, h.latched, h.rendering⟩

/-- INIT's master volume lies in MV's range. -/
theorem unityVolume_range : le zero one = true ∧ le one two = true := by decide

/-- An engine with no command that is just initialised: SR clamped, MV 1.0 and every slot empty (R122). -/
theorem inv_init {s : State} (rate : Word) (h : Inv s) :
    Inv (acted { s with ready := true, sr := rateOperand rate, mv := one, slots := noSlots }) :=
  ⟨h.memCanonical, h.memInBuf, h.causeClear, h.causeSet, fun hn => (by cases hn), fun _ => rateOperand_range rate,
    fun _ => unityVolume_range, noSlots_ok, fun _ hc => (by cases hc), fun _ hr => (by cases hr)⟩

/-- An engine just torn down holds nothing (R124). -/
theorem inv_teardown {s : State} (h : Inv s) :
    Inv (acted { s with ready := false, sr := zero, mv := zero, slots := noSlots }) :=
  ⟨h.memCanonical, h.memInBuf, h.causeClear, h.causeSet, fun _ => ⟨rfl, rfl, rfl⟩, fun hr => (by cases hr),
    fun hr => (by cases hr), noSlots_ok, fun _ hc => (by cases hc), fun _ hr => (by cases hr)⟩

/-- A master volume in range keeps the invariant of a ready engine (R125). -/
theorem inv_masterVolume {s : State} (v : Word) (ready : s.ready = true) (h : Inv s) :
    Inv { s with mv := volumeOperand v } :=
  ⟨h.memCanonical, h.memInBuf, h.causeClear, h.causeSet, fun hn => absurd (hn.symm.trans ready) Bool.false_ne_true, h.rate,
    fun _ => volumeOperand_range v, h.slots, h.latched, h.rendering⟩

/-! ### RENDER -/

/-- Whether the RENDER is in progress or starts with this step, RN is what its operand asks for and RF is below it (R123). -/
theorem renderCount_range {s : State} {c : Command} {n : Int} (h : Inv s) (hc : s.lcmd = some c)
    (hd : decode c = .ok (.render n)) (pos : 0 < n) :
    (s.rend.getD ⟨0, framesOperand n⟩).rn = framesOperand n ∧
    (s.rend.getD ⟨0, framesOperand n⟩).rf < framesOperand n := by
  cases hr : s.rend with
  | none => exact ⟨rfl, (framesOperand_pos pos).1⟩
  | some r =>
    obtain ⟨-, hlt, c', n', hc', hd', -, hrn⟩ := h.rendering r hr
    obtain rfl : c' = c := Option.some.inj (hc'.symm.trans hc)
    obtain rfl : n' = n := by simpa [hd] using hd'.symm
    exact ⟨hrn, hrn ▸ hlt⟩

/-- A step of RENDER keeps the invariant: its frame lies in BUF, and it ends the command or leaves frames to render. -/
theorem inv_renderStep {s : State} {c : Command} {n : Int} (h : Inv s) (hc : s.lcmd = some c)
    (hd : decode c = .ok (.render n)) (ready : s.ready = true) (pos : 0 < n) :
    Inv (renderStep (s.rend.getD ⟨0, framesOperand n⟩) s) := by
  obtain ⟨hrn, hrf⟩ := renderCount_range h hc hd pos
  generalize s.rend.getD ⟨0, framesOperand n⟩ = r at hrn hrf ⊢
  have hf : r.rf < Config.maxFrames := hrf.trans_le (framesOperand_pos pos).2
  have hframe := renderFrame_eq r.rf s
  -- `@`, and the outcome a variable from here on: otherwise Lean evaluates the whole frame to state what its slots obey
  have hslots := @frameStep_ok s.sr s.mv s.slots h.slots
  generalize frameStep s.sr s.mv s.slots = out at hframe hslots
  rcases renderStep_cases r s with ⟨hmore, he⟩ | ⟨-, he⟩
  · rw [he, hframe]
    refine inv_frame h ready hf _ _ _ s.lcmd s.resultI hslots h.latched fun r' hr' => ?_
    cases hr'
    exact ⟨ready, hmore, c, n, hc, hd, pos, hrn⟩
  · rw [he, hframe]
    exact inv_frame h ready hf _ _ none none _ hslots (fun _ hc => (by cases hc)) fun _ hr => (by cases hr)

/-! ### The core's step -/

/-- A command keeps the invariant, whatever it does. -/
theorem inv_effect {s t : State} {c : Command} {i : Instr} (h : Inv s) (hc : s.lcmd = some c) (hd : decode c = .ok i)
    (he : CommandEffect s i t) : Inv t := by
  cases he with
  | idle => exact inv_finish _ h
  | stored _ k sl _ ready ok => exact inv_finish _ (inv_putSlot h ready (ok (h.slots k)))
  | drum _ _ k ready => exact inv_finish _ (inv_putSlot (inv_resultF_draws s.resultF _ h) ready True.intro)
  | found _ _ v => exact inv_finish _ (inv_resultF_draws v s.draws h)
  | init rate => exact inv_init rate h
  | render n ready pos => exact inv_renderStep h hc hd ready pos
  | teardown => exact inv_teardown h
  | volume v ready => exact inv_finish _ (inv_masterVolume v ready h)

/-- The core's step keeps the invariant; a latched word that spells no command cannot be. -/
theorem inv_coreStep {s t : State} (h : Inv s) (ht : coreStep s = .next t) : Inv t := by
  rcases coreStep_cases ht with ⟨-, rfl⟩ | ⟨c, i, hc, hd, he⟩ | ⟨c, e, hc, hd, -⟩
  · exact h
  · exact inv_effect h hc hd (effect_of_exec he)
  · obtain ⟨i, hi⟩ := h.latched c hc
    cases hi.symm.trans hd

/-! ### The host's accesses -/

/-- Clearing the error clears its cause with it (R32). -/
theorem inv_clearErr {s : State} (v : Word) (h : Inv s) : Inv (clearErr v s) := by
  unfold clearErr
  split
  · exact ⟨h.memCanonical, h.memInBuf, fun _ => rfl, fun he => (by cases he), h.notReady, h.rate, h.volume, h.slots,
      h.latched, h.rendering⟩
  · exact h

/-- A CMD write raises an error, or latches a command that decodes, with no RENDER in progress (R96). -/
theorem inv_writeCmd {s : State} (w : Word) (h : Inv s) : Inv (writeCmd w s) := by
  unfold writeCmd
  split
  · exact inv_raise _ h
  next i hd =>
    exact ⟨h.memCanonical, h.memInBuf, h.causeClear, h.causeSet, h.notReady, h.rate, h.volume, h.slots,
      fun c hc => ⟨i, Option.some.inj hc ▸ hd⟩, fun _ hr => (by cases hr)⟩

/-- The operand registers are no part of the invariant: a latched command holds its own copies (R90). -/
theorem inv_operands {s : State} (a f : Word) (h : Inv s) : Inv { s with argI := a, argF := f } :=
  ⟨h.memCanonical, h.memInBuf, h.causeClear, h.causeSet, h.notReady, h.rate, h.volume, h.slots, h.latched, h.rendering⟩

/-- Storing an aligned word of BUF keeps its form and stays inside it. -/
theorem inv_bufWord {s : State} {off : Nat} (v : Word) (hb : inBuf off = true) (ha : off % 4 = 0) (h : Inv s) :
    Inv { s with mem := writeWord s.mem off v } :=
  ⟨Memory.wf_writeWord off v h.memCanonical,
    fun cell hm => (mem_writeWord hm).elim (fun ⟨h1, h2⟩ => inBuf_word hb ha h1 h2) (h.memInBuf cell),
    h.causeClear, h.causeSet, h.notReady, h.rate, h.volume, h.slots, h.latched, h.rendering⟩

theorem inv_portWrite {s : State} {off : Nat} (v : Word) (ha : off % 4 = 0) (h : Inv s) : Inv (portWrite off v s) := by
  rcases portWrite_cases off v s with ⟨hb, he⟩ | ⟨-, he⟩ | ⟨-, he⟩ | ⟨-, he⟩ | ⟨-, he⟩ | ⟨-, -, he⟩
  · rw [he]; exact inv_bufWord v hb ha h
  · rw [he]; exact inv_clearErr v h
  · rw [he]; exact inv_writeCmd v h
  · rw [he]; exact inv_operands v s.argF h
  · rw [he]; exact inv_operands s.argI v h
  · rw [he]; exact h

theorem inv_refuseAccess {s : State} (e : ErrCode) (a : Access) (h : Inv s) : Inv (refuseAccess e a s) := by
  unfold refuseAccess
  split
  · exact inv_turns s.turns 0#32 (inv_raise e h)
  · exact inv_raise e h

theorem inv_acceptAccess {s : State} {a : Access} (hp : portError a = none) (h : Inv s) : Inv (acceptAccess a s) := by
  unfold acceptAccess
  split
  · exact inv_turns s.turns _ h
  · exact inv_portWrite _ (aligned_of_portError hp) h

/-- Settles O59: a step is the core's, the end of a wait or an access, and each keeps the invariant. -/
theorem stepKeepsInvariant : Obligations.StepKeepsInvariant := by
  intro s t h ht
  have hturn : ∀ rest, Inv { s with turns := rest } := fun rest => inv_turns rest s.readData h
  rcases step_cases ht with ⟨-, hk⟩ | ⟨rest, -, hk⟩ | ⟨rest, -, -, hk⟩ | ⟨rest, -, -, rfl⟩ |
    ⟨a, rest, -, -, ⟨e, -, rfl⟩ | ⟨hp, rfl⟩⟩
  · exact inv_coreStep h hk
  · exact inv_coreStep (hturn rest) hk
  · exact inv_coreStep h hk
  · exact inv_turns rest _ h
  · exact inv_refuseAccess e a (hturn rest)
  · exact inv_acceptAccess hp (hturn rest)

/-- Settles O58: the memory is empty, the engine is not initialised, and nothing is latched. -/
theorem resetMeetsInvariant : Obligations.ResetMeetsInvariant :=
  ⟨rfl, fun _ hm => (by cases hm), fun _ => rfl, fun he => (by cases he), fun _ => ⟨rfl, rfl, rfl⟩, fun hr => (by cases hr),
    fun hr => (by cases hr), noSlots_ok, fun _ hc => (by cases hc), fun _ hr => (by cases hr)⟩

end Sys2Proof.Machine
end

section
/-! PROOFS. What the registers of the host port read: the plain registers, STATUS and the slots' summaries (10_state.md R31 to
R41). -/

namespace Sys2Proof.Machine

/-! ### Fields of a word -/

/-- A bit of a word below 2^32, as arithmetic. -/
theorem getLsbD_ofNat_eq {n i : Nat} (hi : i < 32) : (BitVec.ofNat 32 n).getLsbD i = decide (n / 2 ^ i % 2 = 1) := by
  rw [BitVec.getLsbD_ofNat, decide_eq_true hi, Bool.true_and, Nat.testBit_eq_decide_div_mod_eq]

/-- A field of bits of a number's word: the quotient by its place. -/
theorem extractLsb'_ofNat_eq {n i l : Nat} (h : i + l ≤ 32) :
    (BitVec.ofNat 32 n).extractLsb' i l = BitVec.ofNat l (n / 2 ^ i) := by
  apply BitVec.eq_of_getLsbD_eq
  intro j hj
  rw [BitVec.getLsbD_extractLsb', BitVec.getLsbD_ofNat, BitVec.getLsbD_ofNat, Nat.testBit_div_two_pow,
    decide_eq_true (show i + j < 32 by omega), Nat.add_comm i j, Bool.true_and]

theorem bit_le_one (b : Bool) : bit b ≤ 1 := by cases b <;> decide

theorem decide_bit (b : Bool) : decide (bit b = 1) = b := by cases b <;> rfl

/-- A flag that stands at bit i of a number, with `low` below it and `high` above. -/
theorem getLsbD_of_flag {n i low high : Nat} {b : Bool} (hi : i < 32) (hlow : low < 2 ^ i)
    (hn : n = low + 2 ^ i * (bit b + 2 * high)) : (BitVec.ofNat 32 n).getLsbD i = b := by
  have hq : n / 2 ^ i = bit b + 2 * high := by
    rw [hn, Nat.add_mul_div_left _ _ (Nat.two_pow_pos i), Nat.div_eq_of_lt hlow, Nat.zero_add]
  rw [getLsbD_ofNat_eq hi, hq, Nat.add_mul_mod_self_left, Nat.mod_eq_of_lt (Nat.lt_succ_of_le (bit_le_one b)), decide_bit]

/-- A field that stands at bit i of a number, with `low` below it and `high` above. -/
theorem extractLsb'_of_field {n i l low field high : Nat} (h : i + l ≤ 32) (hlow : low < 2 ^ i)
    (hn : n = low + 2 ^ i * (field + 2 ^ l * high)) :
    (BitVec.ofNat 32 n).extractLsb' i l = BitVec.ofNat l field := by
  have hq : n / 2 ^ i = field + 2 ^ l * high := by
    rw [hn, Nat.add_mul_div_left _ _ (Nat.two_pow_pos i), Nat.div_eq_of_lt hlow, Nat.zero_add]
  rw [extractLsb'_ofNat_eq h, hq]
  apply BitVec.eq_of_toNat_eq
  rw [BitVec.toNat_ofNat, BitVec.toNat_ofNat, Nat.add_mul_mod_self_left]

/-- No bit from i on is set in the word of a number below 2^i. -/
theorem extractLsb'_of_lt {n i l : Nat} (h : i + l ≤ 32) (hn : n < 2 ^ i) :
    (BitVec.ofNat 32 n).extractLsb' i l = 0#l :=
  extractLsb'_of_field (field := 0) (high := 0) h hn (by simp)

/-! ### The plain registers (R31, R34 to R38) -/

/-- Two reads of one aligned offset of an idle machine return the same value, and nothing else changes (R75). -/
theorem step_rd_twice {s : State} {off : BitVec 16} {rest : List Turn} (hb : isBusy s = false)
    (ht : s.turns = rd off :: rd off :: rest) (ha : off.toNat % 4 = 0) :
    step s = .next { s with turns := rd off :: rest, readData := portRead s off.toNat } ∧
    step { s with turns := rd off :: rest, readData := portRead s off.toNat } =
      .next { s with turns := rest, readData := portRead s off.toNat } :=
  ⟨step_rd hb ht ha,
    step_rd (s := { s with turns := rd off :: rest, readData := portRead s off.toNat }) hb rfl ha⟩

/-- Settles O10: the port reads each plain register at its offset, and a second read finds the same state. -/
theorem registerReads : Obligations.RegisterReads := by
  intro s rest off v hb hmem ht
  obtain ⟨hv, ha⟩ : portRead s off.toNat = v ∧ off.toNat % 4 = 0 := by
    simp only [List.mem_cons, Prod.mk.injEq, List.not_mem_nil, or_false] at hmem
    rcases hmem with ⟨rfl, rfl⟩ | ⟨rfl, rfl⟩ | ⟨rfl, rfl⟩ | ⟨rfl, rfl⟩ | ⟨rfl, rfl⟩ | ⟨rfl, rfl⟩ | ⟨rfl, rfl⟩ |
      ⟨rfl, rfl⟩ <;> exact ⟨rfl, rfl⟩
  exact hv ▸ step_rd_twice hb ht ha

/-! ### STATUS (R32) -/

/-- A read of ID or STATUS takes its turn whether a command is latched or not (R84). -/
theorem step_allowed {s : State} {a : Access} {rest : List Turn} (ha : allowedWhileBusy a = true)
    (hp : portError a = none) (ht : s.turns = .access a :: rest) :
    step s = .next (acceptAccess a { s with turns := rest }) := by
  simp [step, turnStep, ht, hostAccess, overlaps, ha, hp]

theorem step_rd_status {s : State} {rest : List Turn} (ht : s.turns = rd 0x004#16 :: rest) :
    step s = .next { s with turns := rest, readData := statusWord s } :=
  step_allowed (by decide) (portError_word _ rfl) ht

/-- The fields of STATUS. -/
theorem statusWord_fields (s : State) :
    (statusWord s).getLsbD 0 = s.ready ∧ (statusWord s).getLsbD 1 = isBusy s ∧ (statusWord s).getLsbD 2 = s.err ∧
    (statusWord s).extractLsb' 3 5 = 0#5 ∧ (statusWord s).extractLsb' 8 4 = s.cause ∧
    (statusWord s).extractLsb' 12 20 = 0#20 := by
  have hr := bit_le_one s.ready
  have hb := bit_le_one (isBusy s)
  have he := bit_le_one s.err
  have hc := s.cause.isLt
  unfold statusWord
  refine ⟨?_, ?_, ?_, ?_, ?_, ?_⟩
  · exact getLsbD_of_flag (low := 0) (high := bit (isBusy s) + 2 * bit s.err + 128 * s.cause.toNat) (by omega) (by omega)
      (by omega)
  · exact getLsbD_of_flag (low := bit s.ready) (high := bit s.err + 64 * s.cause.toNat) (by omega) (by omega) (by omega)
  · exact getLsbD_of_flag (low := bit s.ready + 2 * bit (isBusy s)) (high := 32 * s.cause.toNat) (by omega) (by omega)
      (by omega)
  · exact extractLsb'_of_field (low := bit s.ready + 2 * bit (isBusy s) + 4 * bit s.err) (field := 0)
      (high := s.cause.toNat) (by omega) (by omega) (by omega)
  · rw [extractLsb'_of_field (low := bit s.ready + 2 * bit (isBusy s) + 4 * bit s.err) (field := s.cause.toNat)
      (high := 0) (by omega) (by omega) (by omega), BitVec.ofNat_toNat, BitVec.setWidth_eq]
  · exact extractLsb'_of_lt (by omega) (by omega)

/-- Settles O9: the read is one that BUSY allows, STATUS has its fields, and a write is `clearErr`. -/
theorem statusFieldsAndClear : Obligations.StatusFieldsAndClear :=
  ⟨fun s _ ht => ⟨statusWord s, step_rd_status ht, statusWord_fields s⟩, fun _ _ _ hb ht => step_wr hb ht rfl⟩

/-! ### The slots' summaries (R33, R39) -/

theorem countP_finRange_le {n : Nat} (p : Fin n → Bool) : (List.finRange n).countP p ≤ n := by
  simpa using List.countP_le_length (p := p) (l := List.finRange n)

/-- INSTR_COUNT is how many slots are present. -/
theorem instrCount_toNat (s : State) :
    (instrCount s).toNat = (List.finRange 16).countP fun k => isPresent s.slots[k] := by
  have hle := countP_finRange_le fun k : Fin Config.maxInstruments => isPresent s.slots[k]
  rw [instrCount, length_filter_slots, BitVec.toNat_ofNat]
  exact Nat.mod_eq_of_lt (hle.trans_lt (by decide))

/-- No slot is present in an engine that is not initialised. -/
theorem instrCount_of_not_ready {s : State} (h : Inv s) (hr : s.ready = false) : instrCount s = 0#32 := by
  obtain ⟨-, -, hs⟩ := h.notReady hr
  rw [instrCount, hs]
  decide

/-- Bit k of a slot word is the flag of slot k, and bits [31:16] are 0. -/
theorem slotBits_word (f : Slot → Bool) (slots : Vector Slot Config.maxInstruments) :
    (∀ k : Fin 16, (BitVec.ofNat 32 (slotBits f slots.toList)).getLsbD k = f slots[k]) ∧
    (BitVec.ofNat 32 (slotBits f slots.toList)).extractLsb' 16 16 = 0#16 := by
  constructor
  · intro k
    rw [BitVec.getLsbD_ofNat, decide_eq_true (by omega), Bool.true_and, slotBits_testBit]
    simp
  · exact extractLsb'_of_lt (by omega) ((slotBits_lt f slots.toList).trans_eq (by rw [Vector.length_toList]))

/-- The slots' summaries ignore a write. -/
theorem portWrite_summary {off : BitVec 16} (h : off ∈ [0x008#16, 0x028#16, 0x02C#16]) (v : Word) (s : State) :
    portWrite off.toNat v s = s ∧ off.toNat % 4 = 0 := by
  simp only [List.mem_cons, List.not_mem_nil, or_false] at h
  rcases h with rfl | rfl | rfl <;> exact ⟨rfl, rfl⟩

/-- Settles O11: INSTR_COUNT counts, the two slot words hold a flag for each slot, and the port ignores writes to them. -/
theorem slotSummaryRegisters : Obligations.SlotSummaryRegisters := by
  intro s rest hb
  refine ⟨fun ht => ⟨instrCount s, step_rd hb ht rfl, instrCount_toNat s, ?_, instrCount_of_not_ready⟩,
    fun ht => ⟨slotPresentWord s, step_rd hb ht rfl, slotBits_word isPresent s.slots⟩,
    fun ht => ⟨slotEnableWord s, step_rd hb ht rfl, slotBits_word isEnabled s.slots⟩, fun off v hoff ht => ?_⟩
  · rw [instrCount_toNat]; exact countP_finRange_le _
  · obtain ⟨hw, ha⟩ := portWrite_summary hoff v { s with turns := rest }
    rw [step_wr hb ht ha, hw]

/-! ### SLOT_INFO (R41) -/

/-- SLOT_INFO[k]'s place in the window. -/
theorem slotInfoOffset_toNat (k : Fin 16) : (BitVec.ofNat 16 (0x040 + 4 * k.val)).toNat = 0x040 + 4 * k.val := by
  rw [BitVec.toNat_ofNat]; omega

theorem portRead_slotInfo (s : State) (k : Fin 16) : portRead s (0x040 + 4 * k.val) = slotInfo s.slots[k] := by
  have hk : (0x040 + 4 * k.val - 0x040) / 4 = k.val := by omega
  unfold portRead
  rw [not_inBuf_of_lt (by omega), if_neg Bool.false_ne_true, if_pos (by omega), hk]
  simp

theorem typeCode_le (inst : Instrument) : typeCode inst ≤ 2 := by cases inst <;> simp [typeCode]

/-- The fields of an occupied slot's SLOT_INFO, for counts of voices that fit. -/
theorem slotInfo_fields {en : Bool} {inst : Instrument} (hp : polyOf inst < 16) (ha : activeOf inst < 16) :
    (slotInfo (.occupied en inst)).extractLsb' 12 20 = 0#20 ∧
    (slotInfo (.occupied en inst)).extractLsb' 0 2 = BitVec.ofNat 2 (typeCode inst) ∧
    (slotInfo (.occupied en inst)).getLsbD 2 = true ∧ (slotInfo (.occupied en inst)).getLsbD 3 = en ∧
    (slotInfo (.occupied en inst)).extractLsb' 4 4 = BitVec.ofNat 4 (polyOf inst) ∧
    (slotInfo (.occupied en inst)).extractLsb' 8 4 = BitVec.ofNat 4 (activeOf inst) := by
  have he := bit_le_one en
  have ht := typeCode_le inst
  have h1 : bit true = 1 := rfl
  unfold slotInfo
  refine ⟨?_, ?_, ?_, ?_, ?_, ?_⟩
  · exact extractLsb'_of_lt (by omega) (by omega)
  · exact extractLsb'_of_field (low := 0) (high := 1 + 2 * bit en + 4 * polyOf inst + 64 * activeOf inst) (by omega)
      (by omega) (by omega)
  · exact getLsbD_of_flag (low := typeCode inst) (high := bit en + 2 * polyOf inst + 32 * activeOf inst) (by omega)
      (by omega) (by omega)
  · exact getLsbD_of_flag (low := typeCode inst + 4) (high := polyOf inst + 16 * activeOf inst) (by omega) (by omega)
      (by omega)
  · exact extractLsb'_of_field (low := typeCode inst + 4 + 8 * bit en) (high := activeOf inst) (by omega) (by omega)
      (by omega)
  · exact extractLsb'_of_field (low := typeCode inst + 4 + 8 * bit en + 16 * polyOf inst) (high := 0) (by omega)
      (by omega) (by omega)

/-- An instrument without voices has 0 in both counts. -/
theorem slotInfo_voiceless {en : Bool} {inst : Instrument} (hp : polyOf inst = 0) (ha : activeOf inst = 0) :
    (slotInfo (.occupied en inst)).extractLsb' 4 8 = 0#8 := by
  have he := bit_le_one en
  have ht := typeCode_le inst
  rw [slotInfo, hp, ha]
  exact extractLsb'_of_lt (by omega) (by omega)

/-- The counts of a Synth's voices fit SLOT_INFO's fields (R44). -/
theorem synthOk_counts {x : Synth} (h : synthOk x) : x.voices.length < 16 ∧ activeCount x.voices < 16 := by
  have hhigh : x.voices.length ≤ 8 := h.high
  have hle := List.length_filter_le isActive x.voices
  unfold activeCount
  omega

/-- Settles O12: the port reads SLOT_INFO[k] from slot k, and each type's counts fit their fields. -/
theorem slotInfoFields : Obligations.SlotInfoFields := by
  intro s k rest hb hok ht
  have hoff := slotInfoOffset_toNat k
  have hstep := step_rd hb ht (by omega)
  rw [hoff, portRead_slotInfo] at hstep
  refine ⟨slotInfo s.slots[k], hstep, ?_⟩
  have h16 : 0 < 16 := by decide
  match hs : s.slots[k], hok with
  | .empty, _ => exact ⟨rfl, rfl⟩
  | .occupied en (.synth x), hok =>
    obtain ⟨hp, ha⟩ := synthOk_counts hok
    obtain ⟨h0, htype, hpres, hen, hpoly, hact⟩ := slotInfo_fields (en := en) (inst := .synth x) hp ha
    refine ⟨h0, htype, hpres, hen, ?_, ?_⟩
    · rw [hpoly, BitVec.toNat_ofNat]; exact Nat.mod_eq_of_lt hp
    · rw [hact, BitVec.toNat_ofNat]; exact (Nat.mod_eq_of_lt ha).trans List.countP_eq_length_filter.symm
  | .occupied en (.drum x), _ =>
    obtain ⟨h0, htype, hpres, hen, -, -⟩ := slotInfo_fields (en := en) (inst := .drum x) h16 h16
    exact ⟨h0, htype, hpres, hen, slotInfo_voiceless rfl rfl⟩
  | .occupied en (.fx x), _ =>
    obtain ⟨h0, htype, hpres, hen, -, -⟩ := slotInfo_fields (en := en) (inst := .fx x) h16 h16
    exact ⟨h0, htype, hpres, hen, slotInfo_voiceless rfl rfl⟩

end Sys2Proof.Machine
end

section
/-! PROOFS. What a slot's frame depends on (10_state.md R40; 41_render_mix.md R151, R152). -/

namespace Sys2Proof.Machine

open Sys2Proof.Machine.F32

/-- The slots visited before slot k are those below it. -/
theorem mem_take_slotOrder : ∀ i k : Fin Config.maxInstruments, i ∈ slotOrder.take k.val → i < k := by decide

/-- The frame that reaches slot k depends on the slots below k alone. -/
theorem frameBefore_congr {sr : Word} {a b : Vector Slot Config.maxInstruments} {k : Fin Config.maxInstruments}
    (h : ∀ i : Fin Config.maxInstruments, i < k → a[i] = b[i]) (fr : Frame) :
    (renderSlots sr (slotOrder.take k.val) a fr).2 = (renderSlots sr (slotOrder.take k.val) b fr).2 :=
  (renderSlots_congr (slotOrder_nodup.sublist (List.take_sublist _ _)) (fun i hi => h i (mem_take_slotOrder i k hi)) fr).1

/-- A slot that holds no FxProcessor leaves the same slot whatever frame reaches it: a Synth and a DrumMachine only add to it
(R152). -/
theorem slotFrame_slot_of_not_fx {sl : Slot} (h : ∀ en x, sl ≠ .occupied en (.fx x)) (sr : Word) (fr fr' : Frame) :
    (slotFrame sr sl fr).1 = (slotFrame sr sl fr').1 := by
  match sl with
  | .empty => rfl
  | .occupied false _ => rfl
  | .occupied true (.synth x) => rw [slotFrame_synth, slotFrame_synth]
  | .occupied true (.drum x) => rw [slotFrame_drum, slotFrame_drum]
  | .occupied true (.fx x) => exact absurd rfl (h true x)

/-- Settles O40: a slot's frame is given by the slot and the frame that reaches it, which depends on the slots below; without an
FxProcessor in it, by the slot alone. -/
theorem slotsAreIsolated : Obligations.SlotsAreIsolated := by
  intro sr mv mv' a b k
  constructor
  · intro h j hj
    rw [(frameStep_at sr mv a j).2, (frameStep_at sr mv' b j).2, h j hj,
      frameBefore_congr fun i hi => h i (hi.le.trans hj)]
  · intro h hfx
    rw [(frameStep_at sr mv a k).2, (frameStep_at sr mv' b k).2, ← h]
    exact slotFrame_slot_of_not_fx hfx _ _ _

end Sys2Proof.Machine
end

section
/-! PROOFS. What the port answers to an access that overlaps a command or that it refuses, to the words of BUF, and to read-only
and reserved offsets (20_memory.md R70 to R84). -/

namespace Sys2Proof.Machine

/-! ### Overlapping accesses (R84, R287) -/

/-- What may be accessed while a command is latched is read, at the offset of ID or of STATUS. -/
theorem read_of_allowedWhileBusy {a : Access} (h : allowedWhileBusy a = true) :
    a.kind = .read ∧ (a.offset = 0x000#16 ∨ a.offset = 0x004#16) := by
  simp only [allowedWhileBusy, Bool.and_eq_true, Bool.or_eq_true, beq_iff_eq] at h
  obtain ⟨⟨hk, -⟩, ho⟩ := h
  exact ⟨hk, ho⟩

/-- Any other access stops the machine while a command is latched. -/
theorem step_overlap {s : State} {a : Access} {rest : List Turn} (hb : isBusy s = true)
    (ha : allowedWhileBusy a = false) (ht : s.turns = .access a :: rest) : step s = .fault .hostOverlap := by
  have ho : overlaps { s with turns := rest } a = true := by
    have hb' : isBusy { s with turns := rest } = true := hb
    simp [overlaps, hb', ha]
  simp [step, turnStep, ht, hostAccess, ho]

theorem step_rd_id {s : State} {rest : List Turn} (ht : s.turns = rd 0x000#16 :: rest) :
    step s = .next { s with turns := rest, readData := Config.idValue } :=
  step_allowed (by decide) (portError_word _ rfl) ht

/-- Settles O6: what is no read of ID or STATUS is not allowed while BUSY = 1, and the two reads are. -/
theorem overlappingAccessFaults : Obligations.OverlappingAccessFaults := by
  refine fun s a rest hb ht => ⟨fun hn => ?_, fun ha => ?_, fun ha => ?_⟩
  · exact step_overlap hb (Bool.eq_false_iff.2 fun h => hn (read_of_allowedWhileBusy h)) ht
  · subst ha; exact step_rd_id ht
  · subst ha; exact step_rd_status ht

/-! ### Refused accesses (R72, R73) -/

/-- The width and the lanes are checked before the alignment (R284). -/
theorem portError_of_partial {a : Access} (h : a.width ≠ 32 ∨ a.lanes ≠ 0xF#4) : portError a = some .busSize := by
  have hf : isFullWord a = false := by
    rcases h with h | h <;> simp [isFullWord, h]
  simp [portError, hf]

theorem portError_of_misaligned {a : Access} (hw : a.width = 32) (hl : a.lanes = 0xF#4) (ho : a.offset.toNat % 4 ≠ 0) :
    portError a = some .busAlign := by simp [portError, isFullWord, hw, hl, ho]

/-- A refused read returns 0, and nothing else changes but the error. -/
theorem step_refused_read {s : State} {a : Access} {e : ErrCode} {rest : List Turn} (hb : isBusy s = false)
    (ht : s.turns = .access a :: rest) (hp : portError a = some e) (hk : a.kind = .read) :
    step s = .next { s with turns := rest, err := true, cause := errCode e, readData := 0#32 } := by
  rw [(step_access hb ht).1 e hp, refuseAccess, hk]; rfl

/-- A refused write stores nothing. -/
theorem step_refused_write {s : State} {a : Access} {e : ErrCode} {v : Word} {rest : List Turn} (hb : isBusy s = false)
    (ht : s.turns = .access a :: rest) (hp : portError a = some e) (hk : a.kind = .write v) :
    step s = .next { s with turns := rest, err := true, cause := errCode e } := by
  rw [(step_access hb ht).1 e hp, refuseAccess, hk]; rfl

/-- Settles O8: the port's error is given by the access, and a refusal does to a read and to a write what R72 says. -/
theorem portRefusesWidthThenAlignment : Obligations.PortRefusesWidthThenAlignment := by
  refine fun s a rest hb ht => ⟨fun h => ?_, fun hw hl ho => ?_⟩
  · have hp := portError_of_partial h
    cases hk : a.kind with
    | read => exact step_refused_read hb ht hp hk
    | write v => exact step_refused_write hb ht hp hk
  · have hp := portError_of_misaligned hw hl ho
    cases hk : a.kind with
    | read => exact step_refused_read hb ht hp hk
    | write v => exact step_refused_write hb ht hp hk

/-! ### The words of BUF (R71, R77) -/

theorem bufWordOffset_toNat {j : Nat} (hj : j < 8192) : (BitVec.ofNat 16 (0x8000 + 4 * j)).toNat = 0x8000 + 4 * j := by
  rw [BitVec.toNat_ofNat]; omega

theorem inBuf_bufWord {j : Nat} (hj : j < 8192) : inBuf (0x8000 + 4 * j) = true := inBuf_iff.2 (by omega)

theorem portRead_of_inBuf {off : Nat} (h : inBuf off = true) (s : State) : portRead s off = readWord s.mem off := if_pos h

theorem portWrite_of_inBuf {off : Nat} (h : inBuf off = true) (v : Word) (s : State) :
    portWrite off v s = { s with mem := writeWord s.mem off v } := if_pos h

/-- Byte b of a stored word is its bits [8b+7:8b]. -/
theorem readByte_writeWord_at (m : Memory) (off : Nat) (v : Word) (b : Fin 4) :
    readByte (writeWord m off v) (off + b.val) = v.extractLsb' (8 * b.val) 8 := by
  obtain ⟨h0, h1, h2, h3⟩ := readByte_writeWord m off v
  match b with
  | 0 => exact h0
  | 1 => exact h1
  | 2 => exact h2
  | 3 => exact h3

/-- Two words of BUF at different indices do not meet. -/
theorem readWord_writeWord_bufWord (m : Memory) (j k : Nat) (v : Word) :
    readWord (writeWord m (0x8000 + 4 * j) v) (0x8000 + 4 * k) = if k = j then v else readWord m (0x8000 + 4 * k) := by
  by_cases h : k = j
  · rw [if_pos h, h, readWord_writeWord_self]
  · rw [if_neg h, readWord_writeWord_of_ne m (by omega)]

/-- Settles O13: the port stores the word at its offset, and the laws of `writeWord` say what each byte and word then is. -/
theorem bufferWordsReadBack : Obligations.BufferWordsReadBack := by
  intro s j rest hb hj
  have hoff := bufWordOffset_toNat hj
  have hbuf := inBuf_bufWord hj
  have hal : (BitVec.ofNat 16 (0x8000 + 4 * j)).toNat % 4 = 0 := by omega
  refine ⟨fun v ht => ⟨writeWord s.mem (0x8000 + 4 * j) v, ?_, readByte_writeWord_at _ _ v,
    fun k _ => readWord_writeWord_bufWord _ j k v, fun a ha => readByte_writeWord_of_ne _ ha v⟩, fun ht => ?_⟩
  · rw [step_wr hb ht hal, hoff, portWrite_of_inBuf hbuf]
  · rw [step_rd hb ht hal, hoff, portRead_of_inBuf hbuf]

/-! ### Read-only and reserved offsets (R76) -/

/-- A write outside BUF, STATUS, CMD, ARG_I and ARG_F is ignored. -/
theorem portWrite_ignored {off : Nat} (hb : inBuf off = false) (h : off ∉ [0x004, 0x010, 0x014, 0x018]) (v : Word)
    (s : State) : portWrite off v s = s := by
  simp only [List.mem_cons, List.not_mem_nil, or_false, not_or] at h
  obtain ⟨h1, h2, h3, h4⟩ := h
  rcases portWrite_cases off v s with ⟨hb', -⟩ | ⟨ho, -⟩ | ⟨ho, -⟩ | ⟨ho, -⟩ | ⟨ho, -⟩ | ⟨-, -, he⟩
  · exact absurd (hb'.symm.trans hb) (by decide)
  · exact absurd ho h1
  · exact absurd ho h2
  · exact absurd ho h3
  · exact absurd ho h4
  · exact he

/-- A reserved offset reads 0. -/
theorem portRead_reserved {off : Nat} (h : (0x030 ≤ off ∧ off < 0x040) ∨ (0x080 ≤ off ∧ off < 0x8000)) (s : State) :
    portRead s off = 0#32 := by
  unfold portRead
  rw [not_inBuf_of_lt (by omega), if_neg Bool.false_ne_true, if_neg (by omega)]
  split
  case h_12 => rfl
  all_goals omega

/-- The read-only registers lie below BUF, and none is STATUS, CMD, ARG_I or ARG_F. -/
theorem readOnly_not_stored {off : BitVec 16}
    (h : off ∈ [0x000#16, 0x008#16, 0x00C#16, 0x01C#16, 0x020#16, 0x024#16, 0x028#16, 0x02C#16]) :
    off.toNat < 0x8000 ∧ off.toNat ∉ [0x004, 0x010, 0x014, 0x018] := by
  simp only [List.mem_cons, List.not_mem_nil, or_false] at h
  rcases h with rfl | rfl | rfl | rfl | rfl | rfl | rfl | rfl <;> decide

/-- Settles O14: each offset named is none that the port stores to, and a reserved one is none that it reads. -/
theorem ignoredWritesAndReservedReads : Obligations.IgnoredWritesAndReservedReads := by
  refine fun s off rest hb ha => ⟨fun v hoff ht => ?_, fun hoff ht => ?_⟩
  · obtain ⟨hbuf, hne⟩ : off.toNat < 0x8000 ∧ off.toNat ∉ [0x004, 0x010, 0x014, 0x018] := by
      rcases hoff with hmem | hrange
      · exact readOnly_not_stored hmem
      · simp only [List.mem_cons, List.not_mem_nil, or_false, not_or]; omega
    rw [step_wr hb ht ha, portWrite_ignored (not_inBuf_of_lt hbuf) hne]
  · rw [step_rd hb ht ha, portRead_reserved hoff]

end Sys2Proof.Machine
end

section
/-! PROOFS. The host's sequence of a command, and the end of every command (20_memory.md R79, R83; 30_encoding.md R103;
70_reset_and_hazards.md R311). -/

namespace Sys2Proof.Machine

/-! ### The turns of a host sequence (R103) -/

theorem step_wr_argI {s : State} {v : Word} {rest : List Turn} (hb : isBusy s = false)
    (ht : s.turns = wr argIOffset v :: rest) : step s = .next { s with turns := rest, argI := v } := step_wr hb ht rfl

theorem step_wr_argF {s : State} {v : Word} {rest : List Turn} (hb : isBusy s = false)
    (ht : s.turns = wr argFOffset v :: rest) : step s = .next { s with turns := rest, argF := v } := step_wr hb ht rfl

/-- A CMD write latches a word that spells a command, with the operands as they stand (R90, R96). -/
theorem writeCmd_of_decode {s : State} {w : Word} {i : Instr} (hd : decode ⟨w, s.argI, s.argF⟩ = .ok i) :
    writeCmd w s = { s with lcmd := some ⟨w, s.argI, s.argF⟩, rend := none } := by simp [writeCmd, hd]

theorem step_wr_cmd {s : State} {w : Word} {i : Instr} {rest : List Turn} (hb : isBusy s = false)
    (ht : s.turns = wr cmdOffset w :: rest) (hd : decode ⟨w, s.argI, s.argF⟩ = .ok i) :
    step s = .next { s with turns := rest, lcmd := some ⟨w, s.argI, s.argF⟩, rend := none } :=
  (step_wr hb ht rfl).trans (congrArg _ (writeCmd_of_decode (s := { s with turns := rest }) hd))

/-- A wait ends with the read of STATUS that finds BUSY = 0. -/
theorem step_waitIdle_ends {s : State} {rest : List Turn} (hb : isBusy s = false) (ht : s.turns = .waitIdle :: rest) :
    step s = .next { s with turns := rest, readData := statusWord s } := by simp [step, turnStep, ht, waitStep, hb]

/-- The three writes of a host sequence latch its command (R79, R90). -/
theorem run_hostWrites {s : State} {w a f : Word} {i : Instr} {rest : List Turn} (hb : isBusy s = false)
    (ht : s.turns = wr argIOffset a :: wr argFOffset f :: wr cmdOffset w :: rest) (hd : decode ⟨w, a, f⟩ = .ok i) :
    core.run 3 s = .next { s with turns := rest, argI := a, argF := f, lcmd := some ⟨w, a, f⟩, rend := none } := by
  have hI := step_wr_argI hb ht
  have hF := step_wr_argF (s := { s with turns := wr argFOffset f :: wr cmdOffset w :: rest, argI := a }) hb rfl
  have hC := step_wr_cmd (s := { s with turns := wr cmdOffset w :: rest, argI := a, argF := f }) hb rfl hd
  exact (run_succ hI 2).trans ((run_succ hF 1).trans (run_succ hC 0))

/-- A wait on a command that ends in one core step runs it, then reads STATUS (R103, R110). -/
theorem run_waitIdle {s t : State} {c : Command} {i : Instr} {rest : List Turn} (hc : s.lcmd = some c)
    (ht : s.turns = .waitIdle :: rest) (hd : decode c = .ok i) (he : exec i s = .next t) (hb : isBusy t = false) :
    core.run 2 s = .next { t with turns := rest, readData := statusWord t } := by
  obtain ⟨-, -, -, -, hturns, -⟩ := exec_keeps he
  have hstep : step s = .next t :=
    (step_of_waitIdle_turn (isBusy_of_command hc) ht).trans ((coreStep_of_decode hc hd).trans he)
  exact (run_succ hstep 1).trans (run_succ (step_waitIdle_ends hb (hturns.trans ht)) 0)

/-- Settles O15: three writes latch the command, the wait lets the core run it and then reads STATUS. -/
theorem hostSequenceRunsCommand : Obligations.HostSequenceRunsCommand :=
  fun _ _ _ _ _ _ _ hb ht hd he hbt => (run_add (run_hostWrites hb ht hd) 2).trans (run_waitIdle rfl rfl hd he hbt)

/-! ### How many steps a command can still take (R83, R311) -/

/-- A bound on the core steps to the end of the latched command: the frames left of a RENDER in progress, and as many as a RENDER
can have before the first step. -/
def stepsLeft (s : State) : Nat :=
  match s.lcmd, s.rend with
  | none, _ => 0
  | some _, none => Config.maxFrames
  | some _, some r => r.rn - r.rf

theorem stepsLeft_of_no_command {s : State} (h : s.lcmd = none) : stepsLeft s = 0 := by simp [stepsLeft, h]

theorem stepsLeft_of_rend {s : State} {c : Command} {r : RenderCount} (hc : s.lcmd = some c) (hr : s.rend = some r) :
    stepsLeft s = r.rn - r.rf := by simp [stepsLeft, hc, hr]

theorem stepsLeft_of_no_rend {s : State} {c : Command} (hc : s.lcmd = some c) (hr : s.rend = none) :
    stepsLeft s = Config.maxFrames := by simp [stepsLeft, hc, hr]

/-- A latched command has a step left, and at most MAX_FRAMES of them. -/
theorem stepsLeft_range {s : State} {c : Command} (h : Inv s) (hc : s.lcmd = some c) :
    0 < stepsLeft s ∧ stepsLeft s ≤ Config.maxFrames := by
  cases hr : s.rend with
  | none => rw [stepsLeft_of_no_rend hc hr]; decide
  | some r =>
    obtain ⟨-, hlt, _, n, -, -, hpos, hrn⟩ := h.rendering r hr
    have hle : framesOperand n ≤ Config.maxFrames := (framesOperand_pos hpos).2
    rw [stepsLeft_of_rend hc hr]
    omega

/-- The frames that the RENDER in progress, or the one that starts, has left. -/
theorem framesLeft_le_stepsLeft {s : State} {c : Command} (n : Int) (hc : s.lcmd = some c) :
    (s.rend.getD ⟨0, framesOperand n⟩).rn - (s.rend.getD ⟨0, framesOperand n⟩).rf ≤ stepsLeft s := by
  cases hr : s.rend with
  | none => rw [stepsLeft_of_no_rend hc hr]; exact Nat.min_le_right _ _
  | some r => rw [stepsLeft_of_rend hc hr]; exact le_rfl

/-- A step of RENDER ends the command, or leaves it with a frame less. -/
theorem stepsLeft_renderStep {s : State} {c : Command} (r : RenderCount) (hc : s.lcmd = some c)
    (hle : r.rn - r.rf ≤ stepsLeft s) (hpos : 0 < stepsLeft s) : stepsLeft (renderStep r s) < stepsLeft s := by
  rcases Nat.lt_or_ge (r.rf + 1) r.rn with hmore | hlast
  · obtain ⟨hl, hr, -⟩ := renderStep_more hmore s
    rw [stepsLeft_of_rend (hl.trans hc) hr]
    show r.rn - (r.rf + 1) < _
    omega
  · obtain ⟨hl, -, -⟩ := renderStep_last hlast s
    rw [stepsLeft_of_no_command hl]
    exact hpos

/-- Every command but RENDER has ended after its step. -/
theorem stepsLeft_effect {s t : State} {c : Command} {i : Instr} (hc : s.lcmd = some c) (hpos : 0 < stepsLeft s)
    (he : CommandEffect s i t) : stepsLeft t < stepsLeft s := by
  cases he with
  | render n => exact stepsLeft_renderStep _ hc (framesLeft_le_stepsLeft n hc) hpos
  | _ => exact hpos

/-- With no turn left, a step on a latched command takes it nearer to its end. -/
theorem step_toward_end {s : State} {c : Command} (h : Inv s) (hc : s.lcmd = some c) (ht : s.turns = []) :
    ∃ t, step s = .next t ∧ Inv t ∧ t.turns = [] ∧ stepsLeft t < stepsLeft s := by
  obtain ⟨i, hd⟩ := h.latched c hc
  obtain ⟨t, hx, he⟩ := exec_effect i s
  obtain ⟨-, -, -, -, hturns, -⟩ := exec_keeps hx
  exact ⟨t, (step_of_turns_nil ht).trans ((coreStep_of_decode hc hd).trans hx), inv_effect h hc hd he, hturns.trans ht,
    stepsLeft_effect hc (stepsLeft_range h hc).1 he⟩

/-- A run with no turn left ends its command within the steps that bound it. -/
theorem run_to_idle {k : Nat} {s : State} (h : Inv s) (ht : s.turns = []) (hk : stepsLeft s ≤ k) :
    ∃ n t, n ≤ k ∧ core.run n s = .next t ∧ isBusy t = false := by
  induction k generalizing s with
  | zero =>
    cases hc : s.lcmd with
    | none => exact ⟨0, s, le_rfl, run_zero s, by simp [isBusy, hc]⟩
    | some c => exact absurd (stepsLeft_range h hc).1 (by omega)
  | succ k ih =>
    cases hc : s.lcmd with
    | none => exact ⟨0, s, Nat.zero_le _, run_zero s, by simp [isBusy, hc]⟩
    | some c =>
      obtain ⟨t, hs, hi, htt, hlt⟩ := step_toward_end h hc ht
      obtain ⟨n, u, hn, hu, hb⟩ := ih hi htt (by omega)
      exact ⟨n + 1, u, Nat.succ_le_succ hn, (run_succ hs n).trans hu, hb⟩

/-- Settles O60: a latched command has at most 4096 steps left, and each step leaves fewer. -/
theorem latchedCommandCompletes : Obligations.LatchedCommandCompletes := by
  intro s h hb ht
  obtain ⟨c, hc⟩ := Option.isSome_iff_exists.1 hb
  exact run_to_idle h ht (stepsLeft_range h hc).2

end Sys2Proof.Machine
end

section
/-! PROOFS. The decoder one opcode at a time, the round trip with the encoder, and the operand bits no command reads
(30_encoding.md R91 to R97). -/

namespace Sys2Proof

/-! ### What the decoder answers, by the fields of the CMD word -/

/-- A reserved bit is refused before anything else is looked at (R96). -/
theorem decode_of_rsvd {c : Command} (h : rsvdField c.word ≠ 0) : decode c = .error .rsvdBits := if_pos h

section Unreserved

variable {c : Command} (hr : rsvdField c.word = 0)
include hr

theorem decode_paramSet (ho : opField c.word = 0x00) :
    decode c = .ok (.paramSet (slotField c.word) c.argI.toInt c.argF) := by simp [decode, hr, ho]

theorem decode_noteOn (ho : opField c.word = 0x01) :
    decode c = .ok (.noteOn (slotField c.word) c.argI.toInt c.argF) := by simp [decode, hr, ho]

theorem decode_noteOff (ho : opField c.word = 0x02) :
    decode c = .ok (.noteOff (slotField c.word) c.argI.toInt) := by simp [decode, hr, ho]

theorem decode_reset (ho : opField c.word = 0x03) : decode c = .ok (.reset (slotField c.word)) := by
  simp [decode, hr, ho]

theorem decode_register (ho : opField c.word = 0x04) :
    decode c = .ok (.register (slotField c.word) (c.argI.toNat % 256) (c.argI.toNat / 256 % 256)) := by
  simp [decode, hr, ho]

theorem decode_remove (ho : opField c.word = 0x05) : decode c = .ok (.remove (slotField c.word)) := by
  simp [decode, hr, ho]

theorem decode_paramGet (ho : opField c.word = 0x06) :
    decode c = .ok (.paramGet (slotField c.word) c.argI.toInt) := by simp [decode, hr, ho]

theorem decode_setEnable (ho : opField c.word = 0x07) :
    decode c = .ok (.setEnable (slotField c.word) (c.argI.getLsbD 0)) := by simp [decode, hr, ho]

theorem decode_init (ho : opField c.word = 0x10) : decode c = engineCommand c.word (.init c.argF) := by
  simp [decode, hr, ho]

theorem decode_render (ho : opField c.word = 0x11) : decode c = engineCommand c.word (.render c.argI.toInt) := by
  simp [decode, hr, ho]

theorem decode_teardown (ho : opField c.word = 0x12) : decode c = engineCommand c.word .teardown := by
  simp [decode, hr, ho]

theorem decode_setMasterVol (ho : opField c.word = 0x13) :
    decode c = engineCommand c.word (.setMasterVol c.argF) := by simp [decode, hr, ho]

/-- An opcode outside the table is refused (R93, R96). -/
theorem decode_of_undefined (ho : ¬(opField c.word ≤ 0x07 ∨ (0x10 ≤ opField c.word ∧ opField c.word ≤ 0x13))) :
    decode c = .error .undefOp := by
  unfold decode
  rw [if_neg (not_not.2 hr)]
  split
  case h_13 => rfl
  all_goals omega

/-- An opcode of a slot command decodes whatever the other bits are. -/
theorem exists_decode_slotCommand (ho : opField c.word ≤ 0x07) : ∃ i, decode c = .ok i := by
  have hop : opField c.word = 0x00 ∨ opField c.word = 0x01 ∨ opField c.word = 0x02 ∨ opField c.word = 0x03 ∨
      opField c.word = 0x04 ∨ opField c.word = 0x05 ∨ opField c.word = 0x06 ∨ opField c.word = 0x07 := by omega
  rcases hop with h | h | h | h | h | h | h | h
  · exact ⟨_, decode_paramSet hr h⟩
  · exact ⟨_, decode_noteOn hr h⟩
  · exact ⟨_, decode_noteOff hr h⟩
  · exact ⟨_, decode_reset hr h⟩
  · exact ⟨_, decode_register hr h⟩
  · exact ⟨_, decode_remove hr h⟩
  · exact ⟨_, decode_paramGet hr h⟩
  · exact ⟨_, decode_setEnable hr h⟩

/-- An opcode of an engine command leaves only the check of SLOT. -/
theorem exists_decode_engineCommand (hlow : 0x10 ≤ opField c.word) (hhigh : opField c.word ≤ 0x13) :
    ∃ i, decode c = engineCommand c.word i := by
  have hop : opField c.word = 0x10 ∨ opField c.word = 0x11 ∨ opField c.word = 0x12 ∨ opField c.word = 0x13 := by omega
  rcases hop with h | h | h | h
  · exact ⟨_, decode_init hr h⟩
  · exact ⟨_, decode_render hr h⟩
  · exact ⟨_, decode_teardown hr h⟩
  · exact ⟨_, decode_setMasterVol hr h⟩

end Unreserved

theorem engineCommand_of_slot_zero {w : Word} (h : slotField w = 0) (i : Instr) : engineCommand w i = .ok i := if_pos h

theorem engineCommand_of_slot_ne {w : Word} (h : slotField w ≠ 0) (i : Instr) :
    engineCommand w i = .error .engineSlot := if_neg h

/-- A word that passes the three checks of R96 decodes. -/
theorem exists_decode_of_checks {c : Command} (hr : rsvdField c.word = 0)
    (ho : opField c.word ≤ 0x07 ∨ (0x10 ≤ opField c.word ∧ opField c.word ≤ 0x13))
    (hs : 0x10 ≤ opField c.word → slotField c.word = 0) : ∃ i, decode c = .ok i := by
  rcases ho with hop | ⟨hlow, hhigh⟩
  · exact exists_decode_slotCommand hr hop
  · obtain ⟨i, hd⟩ := exists_decode_engineCommand hr hlow hhigh
    exact ⟨i, hd.trans (engineCommand_of_slot_zero (hs hlow) i)⟩

/-! ### The round trip (R90 to R94) -/

/-- Both bytes of REGISTER's operand are read back from the word they are packed in. -/
theorem register_operand_bytes {kind poly : Nat} (hk : kind < 256) (hp : poly < 256) :
    (BitVec.ofNat 32 (poly * 256 + kind)).toNat % 256 = kind ∧
    (BitVec.ofNat 32 (poly * 256 + kind)).toNat / 256 % 256 = poly := by
  rw [BitVec.toNat_ofNat]
  omega

/-- SET_ENABLE's operand is read back from bit 0 of its word. -/
theorem enable_operand_bit (en : Bool) : (if en then 1#32 else 0#32 : Word).getLsbD 0 = en := by cases en <;> rfl

/-- Settles O1: the encoder's CMD word has the instruction's opcode and slot in its fields, and each operand word is read back
in the range that well-formedness gives. -/
theorem decodeOfEncode : Obligations.DecodeOfEncode := by
  intro i h
  cases i <;> simp only [Instr.wellFormed, Bool.and_eq_true] at h
  case paramSet slot id value =>
    obtain ⟨hslot, hid⟩ := h
    obtain ⟨hr, ho, hs⟩ := fields_cmdWord (op := 0x00) (by decide) (lt_of_isByteField hslot)
    rw [encode, decode_paramSet hr ho, hs, toInt_ofInt_of_isS32 hid]
  case noteOn slot note velocity =>
    obtain ⟨hslot, hnote⟩ := h
    obtain ⟨hr, ho, hs⟩ := fields_cmdWord (op := 0x01) (by decide) (lt_of_isByteField hslot)
    rw [encode, decode_noteOn hr ho, hs, toInt_ofInt_of_isS32 hnote]
  case noteOff slot note =>
    obtain ⟨hslot, hnote⟩ := h
    obtain ⟨hr, ho, hs⟩ := fields_cmdWord (op := 0x02) (by decide) (lt_of_isByteField hslot)
    rw [encode, decode_noteOff hr ho, hs, toInt_ofInt_of_isS32 hnote]
  case reset slot =>
    obtain ⟨hr, ho, hs⟩ := fields_cmdWord (op := 0x03) (by decide) (lt_of_isByteField h)
    rw [encode, decode_reset hr ho, hs]
  case register slot kind poly =>
    obtain ⟨⟨hslot, hkind⟩, hpoly⟩ := h
    obtain ⟨hr, ho, hs⟩ := fields_cmdWord (op := 0x04) (by decide) (lt_of_isByteField hslot)
    obtain ⟨hk, hp⟩ := register_operand_bytes (lt_of_isByteField hkind) (lt_of_isByteField hpoly)
    rw [encode, decode_register hr ho, hs, hk, hp]
  case remove slot =>
    obtain ⟨hr, ho, hs⟩ := fields_cmdWord (op := 0x05) (by decide) (lt_of_isByteField h)
    rw [encode, decode_remove hr ho, hs]
  case paramGet slot id =>
    obtain ⟨hslot, hid⟩ := h
    obtain ⟨hr, ho, hs⟩ := fields_cmdWord (op := 0x06) (by decide) (lt_of_isByteField hslot)
    rw [encode, decode_paramGet hr ho, hs, toInt_ofInt_of_isS32 hid]
  case setEnable slot en =>
    obtain ⟨hr, ho, hs⟩ := fields_cmdWord (op := 0x07) (by decide) (lt_of_isByteField h)
    rw [encode, decode_setEnable hr ho, hs, enable_operand_bit]
  case init rate =>
    obtain ⟨hr, ho, hs⟩ := fields_cmdWord (op := 0x10) (slot := 0) (by decide) (by decide)
    rw [encode, decode_init hr ho, engineCommand_of_slot_zero hs]
  case render frames =>
    obtain ⟨hr, ho, hs⟩ := fields_cmdWord (op := 0x11) (slot := 0) (by decide) (by decide)
    rw [encode, decode_render hr ho, engineCommand_of_slot_zero hs, toInt_ofInt_of_isS32 h]
  case teardown =>
    obtain ⟨hr, ho, hs⟩ := fields_cmdWord (op := 0x12) (slot := 0) (by decide) (by decide)
    rw [encode, decode_teardown hr ho, engineCommand_of_slot_zero hs]
  case setMasterVol volume =>
    obtain ⟨hr, ho, hs⟩ := fields_cmdWord (op := 0x13) (slot := 0) (by decide) (by decide)
    rw [encode, decode_setMasterVol hr ho, engineCommand_of_slot_zero hs]

/-! ### Operands that are not read (R92, R94) -/

/-- Two triples with one CMD word decode alike if they do where its reserved bits are 0. -/
theorem decode_congr {w a b f g : Word} (h : rsvdField w = 0 → decode ⟨w, a, f⟩ = decode ⟨w, b, g⟩) :
    decode ⟨w, a, f⟩ = decode ⟨w, b, g⟩ := by
  by_cases hr : rsvdField w = 0
  · exact h hr
  · exact (decode_of_rsvd hr).trans (decode_of_rsvd hr).symm

/-- An opcode in bits [7:0] is the number the decoder matches on. -/
theorem extract_op_eq_iff {w : Word} {op : BitVec 8} : w.extractLsb' 0 8 = op ↔ opField w = op.toNat := by
  rw [opField_eq, BitVec.toNat_inj]

/-- REGISTER reads only the low 16 bits of ARG_I. -/
theorem decode_register_congr {w a b f g : Word} (ho : opField w = 0x04)
    (hab : a.extractLsb' 0 16 = b.extractLsb' 0 16) : decode ⟨w, a, f⟩ = decode ⟨w, b, g⟩ := by
  have hlow := low16_of_extract hab
  have hkind : a.toNat % 256 = b.toNat % 256 := by omega
  have hpoly : a.toNat / 256 % 256 = b.toNat / 256 % 256 := by omega
  refine decode_congr fun hr => ?_
  rw [decode_register hr ho, decode_register hr ho, hkind, hpoly]

/-- SET_ENABLE reads only bit 0 of ARG_I. -/
theorem decode_setEnable_congr {w a b f g : Word} (ho : opField w = 0x07) (hab : a.getLsbD 0 = b.getLsbD 0) :
    decode ⟨w, a, f⟩ = decode ⟨w, b, g⟩ := by
  refine decode_congr fun hr => ?_
  rw [decode_setEnable hr ho, decode_setEnable hr ho, hab]

/-- Settles O3: the decoder's answer for each opcode names the operand bits it depends on. -/
theorem unusedOperandsIgnored : Obligations.UnusedOperandsIgnored := by
  intro w a b f g
  simp only [List.mem_cons, List.not_mem_nil, or_false, extract_op_eq_iff, BitVec.reduceToNat]
  refine ⟨fun h => decode_congr fun hr => ?_, fun h => decode_congr fun hr => ?_, fun h => decode_congr fun hr => ?_,
    decode_register_congr, decode_setEnable_congr⟩
  · rcases h with ho | ho | ho
    · rw [decode_reset hr ho, decode_reset hr ho]
    · rw [decode_remove hr ho, decode_remove hr ho]
    · rw [decode_teardown hr ho, decode_teardown hr ho]
  · rcases h with ho | ho | ho | ho | ho
    · rw [decode_noteOff hr ho, decode_noteOff hr ho]
    · rw [decode_register hr ho, decode_register hr ho]
    · rw [decode_paramGet hr ho, decode_paramGet hr ho]
    · rw [decode_setEnable hr ho, decode_setEnable hr ho]
    · rw [decode_render hr ho, decode_render hr ho]
  · rcases h with ho | ho
    · rw [decode_init hr ho, decode_init hr ho]
    · rw [decode_setMasterVol hr ho, decode_setMasterVol hr ho]

/-! ### Written-out words -/

/-- Settles O4: the fields of each word are numerals, and the decoder's answer for its opcode assembles the operands. -/
theorem writtenOutWords : Obligations.WrittenOutWords :=
  ⟨decode_paramSet rfl rfl, decode_noteOn rfl rfl, decode_register rfl rfl, decode_setEnable rfl rfl,
    (decode_render rfl rfl).trans (engineCommand_of_slot_zero rfl _), decode_of_rsvd (by decide),
    decode_of_undefined rfl (by decide), (decode_teardown rfl rfl).trans (engineCommand_of_slot_ne (by decide) _)⟩

end Sys2Proof
end

section
/-! PROOFS. The checks of a CMD write, and slot commands that find no instrument (30_encoding.md R96, R98;
40_engine_commands.md R111, R112). -/

namespace Sys2Proof.Machine

/-! ### The checks of a CMD write (R96) -/

/-- A CMD write of a word that spells no command raises its error and has no other effect. -/
theorem step_wr_cmd_error {s : State} {w : Word} {e : ErrCode} {rest : List Turn} (hb : isBusy s = false)
    (ht : s.turns = wr cmdOffset w :: rest) (hd : decode ⟨w, s.argI, s.argF⟩ = .error e) :
    step s = .next { s with turns := rest, err := true, cause := errCode e } := by
  have hw : writeCmd w { s with turns := rest } = raiseErr e { s with turns := rest } := by simp [writeCmd, hd]
  exact (step_wr hb ht rfl).trans (congrArg _ hw)

/-- Settles O2: the first check that the word fails names the error of its decoding, and a word that passes all three decodes. -/
theorem cmdWriteChecksInOrder : Obligations.CmdWriteChecksInOrder := by
  intro s w rest hb ht
  simp only [← opField_eq, Ne, ← rsvdField_eq_zero, ← slotField_eq_zero]
  split
  next hrsvd => exact step_wr_cmd_error hb ht (decode_of_rsvd hrsvd)
  next hrsvd =>
    have hr : rsvdField w = 0 := not_not.1 hrsvd
    split
    next hundef => exact step_wr_cmd_error hb ht (decode_of_undefined hr hundef)
    next hdef =>
      have hop := not_not.1 hdef
      split
      next h =>
        obtain ⟨hlow, hslot⟩ := h
        have hhigh : opField w ≤ 0x13 := by omega
        obtain ⟨i, hd⟩ := exists_decode_engineCommand (c := ⟨w, s.argI, s.argF⟩) hr hlow hhigh
        exact step_wr_cmd_error hb ht (hd.trans (engineCommand_of_slot_ne hslot i))
      next h =>
        have hslot : 0x10 ≤ opField w → slotField w = 0 := fun hlow => not_not.1 fun hne => h ⟨hlow, hne⟩
        obtain ⟨i, hd⟩ := exists_decode_of_checks (c := ⟨w, s.argI, s.argF⟩) hr hop hslot
        exact step_wr_cmd hb ht hd

/-! ### Slot commands that find no instrument (R98, R112) -/

/-- A slot command runs on the slot it addresses. -/
theorem exec_slotCommand {i : Instr} {slot : Nat} (h : targetSlot i = some slot) (s : State) :
    ∃ run, exec i s = .next (withSlot slot s run) := by
  cases i <;> cases h <;> exact ⟨_, rfl⟩

/-- A slot command other than REGISTER runs on the instrument of the slot it addresses. -/
theorem exec_instrumentCommand {i : Instr} {slot : Nat} (h : targetSlot i = some slot)
    (hn : ∀ n kind poly, i ≠ .register n kind poly) (s : State) :
    ∃ run, exec i s = .next (withInstrument slot s run) := by
  cases i <;> cases h
  case register kind poly => exact absurd rfl (hn slot kind poly)
  all_goals exact ⟨_, rfl⟩

/-- Settles O17: out of range the common path finds no slot, and in an empty slot it finds no instrument. -/
theorem absentSlotOnlyWritesZero : Obligations.AbsentSlotOnlyWritesZero := by
  intro i s slot ht habsent
  rcases habsent with hrange | ⟨hn, k, rfl, hempty⟩
  · obtain ⟨run, he⟩ := exec_slotCommand ht s
    exact he.trans (congrArg _ (withSlot_of_range hrange run))
  · obtain ⟨run, he⟩ := exec_instrumentCommand ht hn s
    exact he.trans (congrArg _ (withInstrument_of_empty hempty run))

end Sys2Proof.Machine
end

section
/-! PROOFS. The commands one at a time on a ready engine, and what every slot command leaves alone (40_engine_commands.md R111 to
R125). -/

namespace Sys2Proof.Machine

open Sys2Proof.Machine.F32

/-! ### RENDER (R123, R150) -/

/-- A RENDER of no frames finds nothing to do; any other steps the one in progress, or its own first frame. -/
theorem exec_render_of_ready {s : State} (ready : s.ready = true) (n : Int) :
    exec (.render n) s =
      .next (if n ≤ 0 then noOp s else renderStep (s.rend.getD ⟨0, framesOperand n⟩) s) :=
  congrArg _ (whenReady_of_ready ready _)

/-- A step of RENDER, as one record update for each of its two outcomes. -/
theorem renderStep_eq (c : RenderCount) (s : State) :
    renderStep c s =
      if c.rf + 1 < c.rn then
        { s with slots := (frameStep s.sr s.mv s.slots).1, mem := writeFrame s.mem c.rf (frameStep s.sr s.mv s.slots).2,
                 rend := some ⟨c.rf + 1, c.rn⟩ }
      else
        { s with slots := (frameStep s.sr s.mv s.slots).1, mem := writeFrame s.mem c.rf (frameStep s.sr s.mv s.slots).2,
                 rend := none, lcmd := none, resultI := BitVec.ofNat 32 c.rn } := by
  have hframe := renderFrame_eq c.rf s
  rcases renderStep_cases c s with ⟨hmore, he⟩ | ⟨hlast, he⟩
  · rw [he, hframe, if_pos hmore]
  · rw [he, hframe, if_neg (Nat.not_lt.2 hlast), finish]

/-- The two words of a stored frame, each at its offset (R42). -/
theorem readWord_writeFrame (m : Memory) (f : Nat) (fr : Frame) :
    readWord (writeFrame m f fr) (frameOffset f) = fr.l ∧ readWord (writeFrame m f fr) (frameOffset f + 4) = fr.r :=
  Frame.mk.inj (readFrame_writeFrame_self m f fr)

/-- Settles O35: the step is one record update that stores the frame, and the laws of `writeFrame` say what BUF then reads. -/
theorem renderStepWritesItsFrame : Obligations.RenderStepWritesItsFrame := by
  intro s n ready
  have hstep := exec_render_of_ready ready n
  refine ⟨fun hn => by rw [hstep, if_pos hn]; rfl, fun hn rf rn hcount => ?_⟩
  have hc : s.rend.getD ⟨0, framesOperand n⟩ = ⟨rf, rn⟩ := by
    cases hr : s.rend <;> rw [hr] at hcount <;> cases hcount <;> rfl
  rw [if_neg (Int.not_le.2 hn), hc, renderStep_eq] at hstep
  obtain ⟨hl, hr⟩ := readWord_writeFrame s.mem rf (frameStep s.sr s.mv s.slots).2
  exact ⟨_, hstep, hl, hr, fun _ ha => readByte_writeFrame_of_ne s.mem ha _⟩

/-! ### The common path (R111, R112) -/

/-- Settles O16: of what a command can do, only the no-op and INIT's effect are open to an engine that is not ready. -/
theorem uninitialisedOnlyWritesZero : Obligations.UninitialisedOnlyWritesZero := by
  intro i s hr hi
  obtain ⟨t, ht, he⟩ := exec_effect i s
  have hno : s.ready ≠ true := by simp [hr]
  rw [ht]
  cases he with
  | idle => rfl
  | init rate => exact absurd rfl (hi rate)
  | stored _ _ _ _ ready => exact absurd ready hno
  | drum _ _ _ ready => exact absurd ready hno
  | found _ _ _ ready => exact absurd ready hno
  | render _ ready => exact absurd ready hno
  | teardown ready => exact absurd ready hno
  | volume _ ready => exact absurd ready hno

/-- The state a slot command leaves, as one record update: of the slots, it may change the one it addresses, and only PARAM_GET
writes RESULT_F. -/
theorem slotCommand_update {i : Instr} {s t : State} {slot : Nat} (target : targetSlot i = some slot)
    (he : CommandEffect s i t) :
    ∃ (result resultF : Word) (slots : Vector Slot Config.maxInstruments) (draws : Nat),
      t = { s with resultI := result, resultF := resultF, slots := slots, draws := draws, lcmd := none, rend := none } ∧
      (result = 0#32 ∨ result = 1#32) ∧ ((∀ n id, i ≠ .paramGet n id) → resultF = s.resultF) ∧
      ∀ j : Fin Config.maxInstruments, j.val ≠ slot → slots[j] = s.slots[j] := by
  have hother : ∀ (k : Fin Config.maxInstruments) (sl : Slot) (j : Fin Config.maxInstruments), j.val ≠ k.val →
      (s.slots.set k sl)[j] = s.slots[j] := fun k sl j hj => putSlot_get_of_ne (fun e => hj (congrArg Fin.val e.symm)) sl s
  cases he with
  | idle => exact ⟨0#32, s.resultF, s.slots, s.draws, rfl, .inl rfl, fun _ => rfl, fun _ _ => rfl⟩
  | stored _ k sl hk =>
    obtain rfl : k.val = slot := Option.some.inj (hk.symm.trans target)
    exact ⟨1#32, s.resultF, s.slots.set k sl, s.draws, rfl, .inr rfl, fun _ => rfl, hother k sl⟩
  | drum _ _ k =>
    obtain rfl : k.val = slot := Option.some.inj target
    exact ⟨1#32, s.resultF, s.slots.set k _, s.draws + 1, rfl, .inr rfl, fun _ => rfl, hother k _⟩
  | found n id v => exact ⟨1#32, v, s.slots, s.draws, rfl, .inr rfl, fun h => absurd rfl (h n id), fun _ _ => rfl⟩
  | init => cases target
  | render => cases target
  | teardown => cases target
  | volume => cases target

/-- Settles O18: the fields that a slot command's record update does not name are as before, BUF's bytes among them. -/
theorem slotCommandFrame : Obligations.SlotCommandFrame := by
  intro i s t slot target ht
  obtain ⟨result, resultF, slots, draws, rfl, hresult, hF, hslots⟩ := slotCommand_update target (effect_of_exec ht)
  exact ⟨rfl, rfl, rfl, rfl, rfl, rfl, rfl, rfl, rfl, rfl, rfl, hresult, hF, hslots, fun _ => rfl⟩

/-! ### REGISTER, REMOVE and SET_ENABLE (R118, R119, R121) -/

/-- Type 0: a new Synth replaces what the slot held (R195). -/
theorem exec_register_synth {s : State} (ready : s.ready = true) (k : Fin Config.maxInstruments) (poly : Nat) :
    exec (.register k 0 poly) s = .next (install k (.synth (newSynth (polyOperand poly))) s) :=
  congrArg _ (withSlot_of_ready ready k _)

/-- Type 1: a new DrumMachine, of the next fresh draw (R157). -/
theorem exec_register_drum {s : State} (ready : s.ready = true) (k : Fin Config.maxInstruments) (poly : Nat) :
    exec (.register k 1 poly) s = .next (install k (.drum (newDrum s.draws)) { s with draws := s.draws + 1 }) :=
  congrArg _ (withSlot_of_ready ready k _)

/-- Type 2: a new FxProcessor (R226). -/
theorem exec_register_fx {s : State} (ready : s.ready = true) (k : Fin Config.maxInstruments) (poly : Nat) :
    exec (.register k 2 poly) s = .next (install k (.fx newFx) s) :=
  congrArg _ (withSlot_of_ready ready k _)

/-- Types from 3 on fail (R118). -/
theorem exec_register_unknown {s : State} (ready : s.ready = true) (k : Fin Config.maxInstruments) (kind poly : Nat) :
    exec (.register k (kind + 3) poly) s = .next (noOp s) :=
  congrArg _ (withSlot_of_ready ready k _)

theorem freshVoice_atReset : voiceAtReset freshVoice := ⟨rfl, rfl, rfl, rfl, rfl, rfl, rfl⟩

theorem freshChannel_atReset : channelAtReset freshChannel :=
  ⟨rfl, rfl, rfl, rfl, rfl, rfl, rfl, rfl, rfl, rfl, rfl, rfl⟩

theorem freshHistory_atReset : historyAtReset freshHistory :=
  ⟨freshChannel_atReset, freshChannel_atReset, rfl, rfl, rfl⟩

/-- Settles O28: each type has its own rule, and what it puts in the slot is at reset. -/
theorem registerReplacesSlot : Obligations.RegisterReplacesSlot := by
  intro s k kind poly ready
  refine ⟨?_, ?_, ?_, fun hkind => ?_⟩
  · rintro rfl
    refine ⟨List.replicate (polyOperand poly) freshVoice, exec_register_synth ready k poly, List.length_replicate,
      fun v hv => ?_⟩
    rw [List.eq_of_mem_replicate hv]
    exact freshVoice_atReset
  · rintro rfl
    exact ⟨newDrum s.draws, s.draws + 1, exec_register_drum ready k poly⟩
  · rintro rfl
    exact ⟨freshHistory, exec_register_fx ready k poly, freshHistory_atReset⟩
  · obtain ⟨j, rfl⟩ := Nat.exists_eq_add_of_le' hkind
    exact exec_register_unknown ready k j poly

/-- Settles O29: the common path finds the slot's instrument, and the slot is emptied. -/
theorem removeEmptiesSlot : Obligations.RemoveEmptiesSlot :=
  fun _ _ _ _ ready hs => congrArg _ (withInstrument_of_ready ready hs _)

/-- Settles O30: the common path finds the slot's instrument, which is stored again under the new flag. -/
theorem setEnableKeepsInstance : Obligations.SetEnableKeepsInstance :=
  fun _ _ _ _ _ ready hs => congrArg _ (withInstrument_of_ready ready hs _)

/-! ### INIT, TEARDOWN and SET_MASTER_VOL (R122, R124, R125) -/

theorem noSlots_get (k : Fin Config.maxInstruments) : noSlots[k] = .empty := by simp [noSlots]

/-- The bounds of SR and its value for a NaN are the binary32 values nearest to R5's decimals. -/
theorem rate_literals :
    literal 44100 1 = Config.srNanDefault ∧ literal 8000 1 = Config.srMin ∧ literal 192000 1 = Config.srMax := by decide

/-- Settles O31: INIT is one record update, whose rate is clamped to R5's bounds. -/
theorem initConstructsEngine : Obligations.InitConstructsEngine := by
  intro s rate
  obtain ⟨hnan, hmin, hmax⟩ := rate_literals
  rw [hnan, hmin, hmax]
  exact ⟨noSlots, rfl, noSlots_get⟩

/-- The engine that TEARDOWN leaves (R124). -/
def tornDown (s : State) : State := acted { s with ready := false, sr := zero, mv := zero, slots := noSlots }

theorem exec_teardown_of_ready {s : State} (ready : s.ready = true) : exec .teardown s = .next (tornDown s) :=
  congrArg _ (whenReady_of_ready ready _)

/-- Settles O32: the first TEARDOWN leaves an engine that is not ready, on which the second does nothing but write RESULT_I. -/
theorem teardownReleasesEngine : Obligations.TeardownReleasesEngine := fun s ready =>
  ⟨tornDown s, exec_teardown_of_ready ready, noSlots_get, rfl,
    uninitialisedOnlyWritesZero .teardown (tornDown s) rfl fun _ => Instr.noConfusion⟩

/-- Settles O33: a ready engine runs the command, whose operand is R14's clamp. -/
theorem masterVolumeIsClamped : Obligations.MasterVolumeIsClamped :=
  fun _ _ ready => congrArg _ (whenReady_of_ready ready _)

end Sys2Proof.Machine
end

section
/-! PROOFS. The frames of RENDER: the pass over the slots, the master stage, and whole RENDERs (40_engine_commands.md R123;
41_render_mix.md R150 to R156). -/

namespace Sys2Proof.Machine

open Sys2Proof.Machine.F32

/-! ### The slots of a frame in their order (R151 to R153) -/

/-- The frame that slot k finds: what the slots below k made of the cleared frame. -/
def frameSeen (sr : Word) (slots : Vector Slot Config.maxInstruments) (k : Nat) : Frame :=
  (renderSlots sr (slotOrder.take k) slots ⟨zero, zero⟩).2

/-- Slot k's part in a frame step: it leaves its slot, and the frame that the next slot finds. -/
theorem slotFrame_frameSeen (sr mv : Word) (slots : Vector Slot Config.maxInstruments) (k : Fin Config.maxInstruments) :
    slotFrame sr slots[k] (frameSeen sr slots k.val) = ((frameStep sr mv slots).1[k], frameSeen sr slots (k.val + 1)) :=
  have ⟨hframe, hslot⟩ := frameStep_at sr mv slots k
  Prod.ext hslot.symm hframe.symm

/-- The master stage takes the frame that all 16 slots made. -/
theorem sampleOf_frameStep (sr mv : Word) (slots : Vector Slot Config.maxInstruments) (c : Channel) :
    sampleOf (frameStep sr mv slots).2 c =
      sclamp (masterProduct mv (sampleOf (frameSeen sr slots 16) c)) Config.safetyCeiling :=
  sampleOf_masterFrame mv _ c

/-- A slot that holds no enabled instrument is not enabled. -/
theorem isEnabled_eq_false {sl : Slot} (h : ∀ inst, sl ≠ .occupied true inst) : isEnabled sl = false := by
  match sl with
  | .empty => rfl
  | .occupied false _ => rfl
  | .occupied true inst => exact absurd rfl (h inst)

/-- Settles O36: the frames seen are those the slots below leave; what a slot does to its own is the rule of what it holds. -/
theorem slotsRunInAscendingOrder : Obligations.SlotsRunInAscendingOrder := by
  intro sr mv slots
  refine ⟨frameSeen sr slots, rfl, fun k => ?_, fun c prod hprod => ?_⟩
  · have hk := slotFrame_frameSeen sr mv slots k
    refine ⟨fun hoff => ?_, fun x hx => ?_, fun x hx yl yr ds hy => ?_, fun x hx => ?_⟩
    · rw [slotFrame_skip (isEnabled_eq_false hoff)] at hk
      obtain ⟨hslot, hframe⟩ := Prod.mk.inj hk
      exact ⟨hslot.symm, hframe.symm⟩
    · rw [hx, slotFrame_synth] at hk
      obtain ⟨hslot, hframe⟩ := Prod.mk.inj hk
      exact ⟨hslot.symm, fun sum hsum => by rw [hsum]; exact hframe.symm⟩
    · rw [hx, slotFrame_drum, hy] at hk
      obtain ⟨hslot, hframe⟩ := Prod.mk.inj hk
      exact ⟨hslot.symm, hframe.symm⟩
    · rw [hx, slotFrame_on, instrumentFrame_fx] at hk
      obtain ⟨hslot, hframe⟩ := Prod.mk.inj hk
      exact ⟨hslot.symm, hframe.symm⟩
  · rw [sampleOf_frameStep, masterProduct_eq, ← hprod]
    rfl

/-! ### Slots that are not enabled (R151, R154) -/

/-- A pass over a slot that is not enabled does to the frame and to the other slots what it does with that slot empty. -/
theorem renderSlots_set_empty {sr : Word} {k : Fin Config.maxInstruments} (ks : List (Fin Config.maxInstruments))
    {slots : Vector Slot Config.maxInstruments} (h : isEnabled slots[k] = false) (fr : Frame) :
    renderSlots sr ks (slots.set k .empty) fr =
      ((renderSlots sr ks slots fr).1.set k .empty, (renderSlots sr ks slots fr).2) := by
  induction ks generalizing slots fr with
  | nil => rfl
  | cons j ks ih =>
    rw [renderSlots_cons, renderSlots_cons]
    by_cases hj : j = k
    · subst hj
      rw [slotFrame_skip h, slotFrame_skip (by simp [isEnabled])]
      simpa using ih h fr
    · have hne : (k : Nat) ≠ j := fun e => hj (Fin.ext e.symm)
      have hset : (slots.set k .empty)[j] = slots[j] := by simp [hne]
      rw [hset, Vector.set_comm _ _ hne]
      exact ih (by simpa [hne.symm] using h) _

/-- Settles O41: the slot is skipped, and the pass with it empty leaves the same frame and the same other slots. -/
theorem disabledSlotIsSkipped : Obligations.DisabledSlotIsSkipped := by
  intro sr mv slots k h
  have hempty := renderSlots_set_empty (sr := sr) slotOrder h ⟨zero, zero⟩
  refine ⟨?_, ?_, fun j hj => ?_⟩
  · rw [(frameStep_at sr mv slots k).2, slotFrame_skip h]
  · rw [frameStep_frame, frameStep_frame, hempty]
  · have hne : (k : Nat) ≠ j := fun e => hj (Fin.ext e.symm)
    rw [frameStep_slots, frameStep_slots, hempty]
    simp [hne]

/-- A pass over slots none of which is enabled changes nothing. -/
theorem renderSlots_skip {sr : Word} {slots : Vector Slot Config.maxInstruments}
    (h : ∀ k : Fin Config.maxInstruments, isEnabled slots[k] = false) (ks : List (Fin Config.maxInstruments)) (fr : Frame) :
    renderSlots sr ks slots fr = (slots, fr) := by
  induction ks with
  | nil => rfl
  | cons k ks ih =>
    rw [renderSlots_cons, slotFrame_skip (h k)]
    simpa using ih

/-- Settles O42: the pass leaves the cleared frame, of which the master stage makes silence. -/
theorem silentMixIsZero : Obligations.SilentMixIsZero := by
  intro sr mv slots h0 h2 hoff
  rw [frameStep, renderSlots_skip hoff, masterFrame_silent h0 h2]

/-! ### The samples' range (R156) -/

/-- A bound on the magnitude is a bound on both sides. -/
theorem range_of_le_abs {x c : Word} (h : le (abs x) c = true) : le (neg c) x = true ∧ le x c = true := by
  obtain ⟨hx, hc, hmag⟩ := le_iff.1 h
  rw [isNaN_abs] at hx
  rw [key_abs] at hmag
  have hkey : -(mag x : Int) ≤ key x ∧ key x ≤ mag x := by unfold key; split <;> omega
  exact ⟨le_iff.2 ⟨by rwa [isNaN_neg], hx, by rw [key_neg]; omega⟩, le_iff.2 ⟨hx, hc, by omega⟩⟩

/-- Settles O37: the two words are those of the frame just stored, which the master stage bounds. -/
theorem renderedSamplesAreBounded : Obligations.RenderedSamplesAreBounded := by
  intro s n rf ready hn hrf
  have hstep := exec_render_of_ready ready n
  rw [if_neg (Int.not_le.2 hn)] at hstep
  refine ⟨_, hstep, ?_⟩
  rw [renderStep_mem, ← hrf]
  obtain ⟨hl, hr⟩ := readWord_writeFrame s.mem rf (frameStep s.sr s.mv s.slots).2
  obtain ⟨⟨hnl, hbl⟩, hnr, hbr⟩ :=
    masterFrame_limited s.mv (renderSlots s.sr slotOrder s.slots ⟨zero, zero⟩).2
  refine ⟨fun j hj => ?_, fun a ha => readByte_writeFrame_of_ne s.mem ha _⟩
  rcases hj with rfl | rfl
  · rw [show 0x8000 + 4 * (2 * rf) = frameOffset rf by unfold frameOffset bufBase; omega, hl]
    exact ⟨hnl, range_of_le_abs hbl⟩
  · rw [show 0x8000 + 4 * (2 * rf + 1) = frameOffset rf + 4 by unfold frameOffset bufBase; omega, hr]
    exact ⟨hnr, range_of_le_abs hbr⟩

/-! ### A RENDER to its end (R123, R150, R155) -/

/-- BUF after n frames, stored from frame f on. -/
def framesStored (sr mv : Word) : Nat → Nat → Vector Slot Config.maxInstruments → Memory → Memory
  | 0, _, _, m => m
  | n + 1, f, slots, m =>
    framesStored sr mv n (f + 1) (frameStep sr mv slots).1 (writeFrame m f (frameStep sr mv slots).2)

/-- A frame below the first one stored is as it was. -/
theorem readFrame_framesStored_of_lt {sr mv : Word} (n : Nat) {f g : Nat} (h : g < f)
    (slots : Vector Slot Config.maxInstruments) (m : Memory) :
    readFrame (framesStored sr mv n f slots m) g = readFrame m g := by
  induction n generalizing f slots m with
  | zero => rfl
  | succ n ih => exact (ih (by omega) _ _).trans (readFrame_writeFrame_of_ne m (by omega) _)

/-- Each frame stored is the frame step after those before it. -/
theorem readFrame_framesStored {sr mv : Word} {n i : Nat} (h : i < n) (f : Nat)
    (slots : Vector Slot Config.maxInstruments) (m : Memory) :
    readFrame (framesStored sr mv n f slots m) (f + i) = frameAt sr mv i slots := by
  induction n generalizing i f slots m with
  | zero => exact absurd h (Nat.not_lt_zero i)
  | succ n ih =>
    cases i with
    | zero => exact (readFrame_framesStored_of_lt n (Nat.lt_succ_self f) _ _).trans (readFrame_writeFrame_self m f _)
    | succ i =>
      have hi := ih (Nat.lt_of_succ_lt_succ h) (f + 1) (frameStep sr mv slots).1
        (writeFrame m f (frameStep sr mv slots).2)
      rwa [Nat.succ_add_eq_add_succ] at hi

/-- Frame m + f from a slot table is frame f from the table that m frames leave. -/
theorem frameAt_add (sr mv : Word) (m f : Nat) (slots : Vector Slot Config.maxInstruments) :
    frameAt sr mv (m + f) slots = frameAt sr mv f (slotsAfter sr mv m slots) := by
  rw [frameAt, slotsAfter_add, frameAt]

/-- The state at the end of a RENDER whose `left` frames from frame f on were still to come, `total` in all. -/
def rendered (left f total : Nat) (s : State) : State :=
  { s with slots := slotsAfter s.sr s.mv left s.slots, mem := framesStored s.sr s.mv left f s.slots s.mem,
           rend := none, lcmd := none, resultI := BitVec.ofNat 32 total }

/-- A RENDER's samples are those that its slot table gives. -/
theorem readFrame_rendered {n f : Nat} (h : f < n) (total : Nat) (s : State) :
    readFrame (rendered n 0 total s).mem f = frameAt s.sr s.mv f s.slots := by
  have hf := readFrame_framesStored (sr := s.sr) (mv := s.mv) h 0 s.slots s.mem
  rwa [Nat.zero_add] at hf

/-- The core's step on a latched RENDER of a ready engine. -/
theorem step_render {s : State} {c : Command} {n : Int} (ready : s.ready = true) (ht : s.turns = [])
    (hc : s.lcmd = some c) (hd : decode c = .ok (.render n)) (hn : 0 < n) :
    step s = .next (renderStep (s.rend.getD ⟨0, framesOperand n⟩) s) := by
  rw [step_of_turns_nil ht, coreStep_of_decode hc hd, exec_render_of_ready ready, if_neg (Int.not_le.2 hn)]

/-- A RENDER with `k + 1` frames left runs as many steps and ends. -/
theorem run_render {s : State} {c : Command} {n : Int} {r : RenderCount} {k : Nat} (ready : s.ready = true)
    (ht : s.turns = []) (hc : s.lcmd = some c) (hd : decode c = .ok (.render n)) (hn : 0 < n)
    (hr : s.rend.getD ⟨0, framesOperand n⟩ = r) (hk : r.rf + (k + 1) = r.rn) :
    core.run (k + 1) s = .next (rendered (k + 1) r.rf r.rn s) := by
  induction k generalizing s r with
  | zero =>
    have hlast := step_render ready ht hc hd hn
    rw [hr, renderStep_eq, if_neg (by omega)] at hlast
    exact run_succ hlast 0
  | succ k ih =>
    have hmore := step_render ready ht hc hd hn
    rw [hr, renderStep_eq, if_pos (by omega)] at hmore
    exact (run_succ hmore _).trans (ih (r := ⟨r.rf + 1, r.rn⟩) ready ht hc rfl (by simp only; omega))

/-- A RENDER of n frames, latched on a ready engine, runs n steps and ends. -/
theorem run_render_latched {s : State} {c : Command} {n : Nat} (ready : s.ready = true) (ht : s.turns = [])
    (hd : decode c = .ok (.render n)) (hn : 0 < n) (hmax : n ≤ 4096) :
    core.run n { s with lcmd := some c, rend := none } = .next (rendered n 0 n s) := by
  obtain ⟨k, rfl⟩ : ∃ k, n = k + 1 := ⟨n - 1, by omega⟩
  have hframes : framesOperand (k + 1 : Nat) = k + 1 := Nat.min_eq_left hmax
  exact run_render (r := ⟨0, k + 1⟩) (n := (k + 1 : Nat)) ready ht rfl hd (by omega) (by rw [hframes]; rfl)
    (Nat.zero_add _)

/-- Settles O39: each RENDER stores the frames that its slot table gives, and the second starts from the table that n1 frames
leave. -/
theorem blockSizeInvariance : Obligations.BlockSizeInvariance := by
  intro s n1 n2 c c1 c2 h1 h2 hmax ready ht hd hd1 hd2
  refine ⟨rendered (n1 + n2) 0 (n1 + n2) s, rendered n1 0 n1 s, rendered n2 0 n2 (rendered n1 0 n1 s),
    run_render_latched ready ht hd (by omega) hmax, run_render_latched ready ht hd1 h1 (by omega),
    run_render_latched ready ht hd2 h2 (by omega), rfl, rfl, rfl, (slotsAfter_add _ _ _ _ _).symm, fun f hf => ?_,
    fun f hf => ?_⟩
  · rw [readFrame_rendered hf, readFrame_rendered (by omega)]
  · rw [readFrame_rendered hf, readFrame_rendered (by omega)]
    exact (frameAt_add _ _ _ _ _).symm

end Sys2Proof.Machine
end

section
/-! PROOFS. The slot commands on a DrumMachine, and notes to an FxProcessor (40_engine_commands.md R114 to R116, R120;
41_render_mix.md R158, R159). -/

namespace Sys2Proof.Machine

open Sys2Proof.Machine.F32

/-! ### The common path on the instrument that the slot holds (R114 to R116, R120) -/

section OnInstrument

variable {s : State} {k : Fin Config.maxInstruments} {en : Bool} {inst : Instrument} (ready : s.ready = true)
  (hs : s.slots[k] = .occupied en inst)
include ready hs

theorem exec_paramSet_of_ready (id : Int) (v : Word) :
    exec (.paramSet k id v) s = .next ((instParamSet id v inst).elim (noOp s) fun inst' =>
      acted (putSlot k (.occupied en inst') s)) :=
  congrArg _ ((withInstrument_of_ready ready hs _).trans (by cases instParamSet id v inst <;> rfl))

theorem exec_paramGet_of_ready (id : Int) :
    exec (.paramGet k id) s = .next ((instParamGet id inst).elim (noOp s) fun v => acted { s with resultF := v }) :=
  congrArg _ ((withInstrument_of_ready ready hs _).trans (by cases instParamGet id inst <;> rfl))

theorem exec_noteOn_of_ready (note : Int) (v : Word) :
    exec (.noteOn k note v) s = .next ((instNoteOn (noteOperand note) (velOperand v) inst).elim (noOp s) fun inst' =>
      acted (putSlot k (.occupied en inst') s)) :=
  congrArg _ ((withInstrument_of_ready ready hs _).trans
    (by cases instNoteOn (noteOperand note) (velOperand v) inst <;> rfl))

theorem exec_noteOff_of_ready (note : Int) :
    exec (.noteOff k note) s = .next ((instNoteOff (noteOperand note) inst).elim (noOp s) fun inst' =>
      acted (putSlot k (.occupied en inst') s)) :=
  congrArg _ ((withInstrument_of_ready ready hs _).trans (by cases instNoteOff (noteOperand note) inst <;> rfl))

end OnInstrument

/-! ### The DrumMachine's parameter ids (R158) -/

/-- DP's seven places are those of the ids 0 to 3 and 10 to 12. -/
theorem drumIndex_of_place : ∀ i : Fin 7, drumIndex (if i.val < 4 then (i.val : Int) else i.val + 6) = some i := by decide

theorem drumIndex_eq_none {id : Int} (h : id ∉ [0, 1, 2, 3, 10, 11, 12]) : drumIndex id = none := by
  simp only [List.mem_cons, List.not_mem_nil, or_false, not_or] at h
  unfold drumIndex
  rw [dif_neg (by omega), dif_neg (by omega)]

/-- Settles O20: the id has its place in DP, where the value is stored and found, or it has none. -/
theorem drumParamSetAndGet : Obligations.DrumParamSetAndGet := by
  intro s k en x ready hs
  refine ⟨fun i v id hid => ?_, fun id v hid => ?_⟩
  · have hi : drumIndex id = some i := by rw [hid]; exact drumIndex_of_place i
    rw [exec_paramSet_of_ready ready hs, exec_paramGet_of_ready ready hs, instParamSet, instParamGet, drumParamSet,
      drumParamGet, hi]
    exact ⟨rfl, rfl⟩
  · rw [exec_paramSet_of_ready ready hs, exec_paramGet_of_ready ready hs, instParamSet, instParamGet, drumParamSet,
      drumParamGet, drumIndex_eq_none hid]
    exact ⟨rfl, rfl⟩

/-! ### Notes to a DrumMachine and to an FxProcessor (R159, R227) -/

/-- The note operand as R94 writes it. -/
theorem noteOperand_eq (n : Int) : noteOperand n = (min 127 (max 0 n)).toNat := by unfold noteOperand; omega

/-- Settles O26: DRUM_MODEL takes the note with its operands clamped, and an FxProcessor has none to take. -/
theorem notesToDrumAndFx : Obligations.NotesToDrumAndFx := by
  intro s k en note velocity ready
  rw [← noteOperand_eq]
  exact ⟨fun x hs => ⟨exec_noteOn_of_ready ready hs _ _, exec_noteOff_of_ready ready hs _⟩,
    fun x hs => ⟨exec_noteOn_of_ready ready hs _ _, exec_noteOff_of_ready ready hs _⟩⟩

end Sys2Proof.Machine
end

section
/-! PROOFS. The slot commands on a Synth (40_engine_commands.md R114 to R117, R120; 42_voice_engine.md R170 to R172, R189 to R194),
and RESET of every type (41_render_mix.md R160, 43_mastering_fx.md R225). -/

namespace Sys2Proof.Machine

open Sys2Proof.Machine.F32

/-! ### Parameters (R170 to R172) -/

/-- Settles O22: `F32.literal` of each decimal evaluates to the row's pattern. -/
theorem synthTableRows : Obligations.SynthTableRows := by
  unfold Obligations.SynthTableRows
  decide

/-- WAVEFORM is the table's one integer, and the table holds no boolean. -/
theorem synthSpec_kind : ∀ i : Fin 8, (synthSpec i).kind = if i = 0 then .integer else .real := by decide

/-- R14's clamp, truncated for WAVEFORM (R171). -/
theorem paramStore_synthSpec (i : Fin 8) (v : Word) :
    paramStore (synthSpec i) v =
      let c := pclamp v (synthSpec i).lo (synthSpec i).hi (synthSpec i).dflt
      if i = 0 then trunc c else c := by
  unfold paramStore
  rw [synthSpec_kind]
  by_cases h : i = 0
  · rw [if_pos h, if_pos h]
  · rw [if_neg h, if_neg h]

/-- Settles O19: the id has its place in the parameter file, where the clamped value is stored and found, or it has none. -/
theorem synthParamSetAndGet : Obligations.SynthParamSetAndGet := by
  intro s k en x ready hs
  refine ⟨fun i v => ?_, fun id v hid => ?_⟩
  · have hi : paramIndex 8 i = some i := paramIndex_some.2 rfl
    rw [exec_paramSet_of_ready ready hs, exec_paramGet_of_ready ready hs, instParamSet, instParamGet, synthParamSet,
      synthParamGet, hi, Option.map_some, paramStore_synthSpec]
    exact ⟨rfl, rfl⟩
  · rw [exec_paramSet_of_ready ready hs, exec_paramGet_of_ready ready hs, instParamSet, instParamGet, synthParamSet,
      synthParamGet, paramIndex_none.2 hid]
    exact ⟨rfl, rfl⟩

/-! ### RESET (R117) -/

theorem exec_reset_of_ready {s : State} {k : Fin Config.maxInstruments} {en : Bool} {inst : Instrument}
    (ready : s.ready = true) (hs : s.slots[k] = .occupied en inst) :
    exec (.reset k) s = .next (acted (putSlot k (.occupied en (instReset inst)) s)) :=
  congrArg _ (withInstrument_of_ready ready hs _)

/-- Settles O27: each type's reset puts its history at the values of the RESET column and names no other field. -/
theorem resetZeroesHistory : Obligations.ResetZeroesHistory := by
  intro s k en ready
  refine ⟨fun x hs => ?_, fun x hs => exec_reset_of_ready ready hs, fun x hs => ?_⟩
  · refine ⟨(synthReset x).voices, exec_reset_of_ready ready hs, synthReset_length x, fun v hv => ?_⟩
    obtain ⟨-, -, rfl⟩ := List.mem_map.1 hv
    exact freshVoice_atReset
  · exact ⟨freshHistory, exec_reset_of_ready ready hs, freshHistory_atReset⟩

/-! ### Notes (R185, R189 to R192) -/

theorem exec_noteOn_synth {s : State} {k : Fin Config.maxInstruments} {en : Bool} {x : Synth}
    (ready : s.ready = true) (hs : s.slots[k] = .occupied en (.synth x)) (note : Int) (v : Word) :
    exec (.noteOn k note v) s =
      .next (acted (putSlot k (.occupied en (.synth (synthNoteOn (noteOperand note) (velOperand v) x))) s)) :=
  exec_noteOn_of_ready ready hs note v

/-- A note-on restarts the allocated voice and no other (R191). -/
theorem synthNoteOn_getElem? (note : Nat) (vel : Word) (x : Synth) (n : Nat) :
    (synthNoteOn note vel x).voices[n]? =
      if n = allocVoice x.voices then x.voices[n]?.map (voiceNoteOn note vel) else x.voices[n]? := by
  rw [synthNoteOn, List.getElem?_modify]
  by_cases h : allocVoice x.voices = n
  · simp [h]
  · simp [h, Ne.symm h]

/-- Settles O24: the voice that changes is the allocated one, and Alloc() finds the first inactive voice, or none and takes 0. -/
theorem noteOnTakesFirstInactiveVoice : Obligations.NoteOnTakesFirstInactiveVoice := by
  intro s k en x note velocity ready hs
  refine ⟨allocVoice x.voices, (synthNoteOn (noteOperand note) (velOperand velocity) x).voices,
    exec_noteOn_synth ready hs note velocity, synthNoteOn_length _ _ x, ?_, fun n => ?_⟩
  · rcases allocVoice_cases x.voices with ⟨hlt, hfree, hbefore⟩ | ⟨h0, hall⟩
    · refine .inl ⟨_, List.getElem?_eq_getElem hlt, isActive_eq_false_iff.1 hfree, fun n hn => ?_⟩
      exact ⟨_, List.getElem?_eq_getElem (hn.trans hlt), isActive_iff.1 (hbefore n hn)⟩
    · exact .inr ⟨h0, fun u hu => isActive_iff.1 (hall u hu)⟩
  · rw [synthNoteOn_getElem?, ← noteOperand_eq]
    rfl

/-- A voice that an envelope note-off finds sounding goes to Release, at its level (R185). -/
theorem voiceNoteOff_of_not_idle {v : Voice} (h : v.es ≠ .idle) : voiceNoteOff v = { v with es := .release } := if_neg h

/-- The condition of R192, on the note operand as R94 writes it. -/
theorem noteOff_matches_iff (v : Voice) (note : Int) :
    (isActive v && v.note == noteOperand note) = true ↔
      v.act = true ∧ v.es ≠ .idle ∧ (v.note : Int) = min 127 (max 0 note) := by
  rw [Bool.and_eq_true, isActive_iff, and_assoc, beq_iff_eq, noteOperand_eq]
  have h : v.note = (min 127 (max 0 note)).toNat ↔ (v.note : Int) = min 127 (max 0 note) := by omega
  rw [h]

/-- Settles O25: the pool is mapped voice by voice, under R192's condition. -/
theorem noteOffReleasesMatchingVoices : Obligations.NoteOffReleasesMatchingVoices := by
  intro s k en x note ready hs
  refine ⟨(synthNoteOff (noteOperand note) x).voices, exec_noteOff_of_ready ready hs note,
    synthNoteOff_length _ x, fun n v hv => ?_⟩
  rw [synthNoteOff, List.getElem?_map, hv, Option.map_some]
  refine ⟨fun h => ?_, fun h => ?_⟩
  · rw [if_pos ((noteOff_matches_iff v note).2 h)]
    obtain ⟨-, hes, -⟩ := h
    rw [voiceNoteOff_of_not_idle hes]
  · rw [if_neg (mt (noteOff_matches_iff v note).1 h)]

/-! ### A run of note-ons (R199) -/

/-- A Synth after note-ons with no frame between them. -/
def afterNoteOns (notes : List (Int × Word)) (x : Synth) : Synth :=
  notes.foldl (fun y n => synthNoteOn (noteOperand n.1) (velOperand n.2) y) x

theorem afterNoteOns_cons (n : Int × Word) (notes : List (Int × Word)) (x : Synth) :
    afterNoteOns (n :: notes) x = afterNoteOns notes (synthNoteOn (noteOperand n.1) (velOperand n.2) x) := rfl

theorem afterNoteOns_concat (notes : List (Int × Word)) (last : Int) (vel : Word) (x : Synth) :
    afterNoteOns (notes ++ [(last, vel)]) x = synthNoteOn (noteOperand last) (velOperand vel) (afterNoteOns notes x) := by
  simp [afterNoteOns]

theorem afterNoteOns_length (notes : List (Int × Word)) (x : Synth) :
    (afterNoteOns notes x).voices.length = x.voices.length := by
  induction notes generalizing x with
  | nil => rfl
  | cons n notes ih => rw [afterNoteOns_cons, ih, synthNoteOn_length]

/-- Each note-on makes one more voice active, up to the whole pool. -/
theorem afterNoteOns_countP (notes : List (Int × Word)) (x : Synth) (h : 1 ≤ x.voices.length) :
    (afterNoteOns notes x).voices.countP isActive =
      min x.voices.length (x.voices.countP isActive + notes.length) := by
  induction notes generalizing x with
  | nil => exact (Nat.min_eq_right List.countP_le_length).symm
  | cons n notes ih =>
    rw [afterNoteOns_cons, ih _ (by rwa [synthNoteOn_length]), synthNoteOn_countP _ _ _ h, synthNoteOn_length,
      List.length_cons]
    omega

/-- The commands run one after another on the Synth that the slot holds, and the slot goes on holding one. -/
theorem runCommands_noteOns {s : State} {k : Fin Config.maxInstruments} {en : Bool} {x : Synth}
    (notes : List (Int × Word)) (ready : s.ready = true) (hs : s.slots[k] = .occupied en (.synth x)) :
    ∃ t, runCommands (notes.map fun n => .noteOn k n.1 n.2) s = .next t ∧
      t.slots[k] = .occupied en (.synth (afterNoteOns notes x)) := by
  induction notes generalizing s x with
  | nil => exact ⟨s, rfl, hs⟩
  | cons n notes ih =>
    rw [List.map_cons, runCommands, exec_noteOn_synth ready hs, afterNoteOns_cons]
    exact ih ready (putSlot_get_self k _ s)

/-- With every voice active a note-on takes voice 0 (R190). -/
theorem allocVoice_of_full {vs : List Voice} (h : vs.countP isActive = vs.length) : allocVoice vs = 0 := by
  rcases allocVoice_cases vs with ⟨hlt, hfree, -⟩ | ⟨h0, -⟩
  · rw [List.countP_eq_length.1 h _ (List.getElem_mem hlt)] at hfree
    cases hfree
  · exact h0

/-- Settles O43: POLY note-ons fill the pool, so the last one keeps it full and takes voice 0. -/
theorem polyphonyLimit : Obligations.PolyphonyLimit := by
  intro s k en x notes last vel ready hs hpos hlen
  obtain ⟨t, hrun, hslot⟩ := runCommands_noteOns (notes ++ [(last, vel)]) ready hs
  refine ⟨t, _, hrun, hslot, afterNoteOns_length _ x, ?_, ?_⟩
  · refine (afterNoteOns_countP _ x hpos).trans ?_
    rw [List.length_append]
    omega
  · have hfull : (afterNoteOns notes x).voices.countP isActive = (afterNoteOns notes x).voices.length := by
      rw [afterNoteOns_countP _ _ hpos, afterNoteOns_length]
      omega
    have h0 : 0 < (afterNoteOns notes x).voices.length := by rw [afterNoteOns_length]; omega
    rw [afterNoteOns_concat, synthNoteOn_getElem?, allocVoice_of_full hfull, if_pos rfl, List.getElem?_eq_getElem h0,
      Option.map_some, Option.map_some, voiceNoteOn, noteOperand_eq]
    exact congrArg some (Int.toNat_of_nonneg (by omega))

end Sys2Proof.Machine
end

section
/-! PROOFS. A frame of a voice: the envelope's arms, an inactive voice and an active one (42_voice_engine.md R173 to R188, R193). -/

namespace Sys2Proof.Machine

open Sys2Proof.Machine.F32

/-! ### The envelope (R178 to R183) -/

theorem attackStep_of_le {coeff a level : Word} (h : le one (add level (div coeff a)) = true) :
    attackStep coeff a level = (.decay, one) := if_pos h

theorem attackStep_of_not_le {coeff a level : Word} (h : le one (add level (div coeff a)) = false) :
    attackStep coeff a level = (.attack, add level (div coeff a)) := by simp [attackStep, h]

theorem decayStep_eq (coeff d s level : Word) :
    decayStep coeff d s level =
      (if le (sub level (div (mul (sub one s) coeff) d)) s then .sustain else .decay,
        sub level (div (mul (sub one s) coeff) d)) := by
  simp only [decayStep]
  split <;> rfl

theorem releaseStep_of_le {coeff s r level : Word} (h : le (sub level (div (mul s coeff) r)) zero = true) :
    releaseStep coeff s r level = (.idle, zero) := if_pos h

theorem releaseStep_of_not_le {coeff s r level : Word} (h : le (sub level (div (mul s coeff) r)) zero = false) :
    releaseStep coeff s r level = (.release, sub level (div (mul s coeff) r)) := by simp [releaseStep, h]

/-- Settles O45: one lemma per arm, and per side of its comparison where the arm has one. -/
theorem envelopeArms : Obligations.EnvelopeArms := by
  intro sr p level
  refine ⟨?_, ?_, rfl, ?_, rfl⟩
  · rintro _ rfl
    exact ⟨attackStep_of_le, attackStep_of_not_le⟩
  · rintro _ rfl
    exact decayStep_eq _ _ _ _
  · rintro _ rfl
    exact ⟨releaseStep_of_le, releaseStep_of_not_le⟩

/-- RELEASE is a finite time above 0 (R170). -/
theorem release_finite_pos {v : Word} (h : paramOk (synthSpec 7) v) : isFinite v = true ∧ mag v ≠ 0 := by
  obtain ⟨hlo, hhi, -⟩ := h
  obtain ⟨-, -, h1⟩ := le_iff.1 hlo
  obtain ⟨-, -, h2⟩ := le_iff.1 hhi
  have e1 : key (synthSpec 7).lo = 953267991 := by decide
  have e2 : key (synthSpec 7).hi = 1106247680 := by decide
  rw [e1] at h1
  rw [e2] at h2
  unfold key at h1 h2
  unfold isFinite infMag
  rw [decide_eq_true_eq]
  split_ifs at h1 h2 <;> omega

theorem not_le_zero_of_pos {x : Word} (h : lt zero x = true) : le x zero = false := by
  obtain ⟨-, -, hk⟩ := lt_iff.1 h
  refine Bool.eq_false_iff.2 fun hle => ?_
  obtain ⟨-, -, hk'⟩ := le_iff.1 hle
  exact hk'.not_gt hk

theorem mag_ne_zero_of_pos {x : Word} (h : lt zero x = true) : mag x ≠ 0 := by
  obtain ⟨-, -, hk⟩ := lt_iff.1 h
  rw [show key zero = 0 by decide] at hk
  unfold key at hk
  split at hk <;> omega

/-- Settles O47: the decrement is a zero times a finite 1/SR over a finite nonzero RELEASE, so a zero, which takes nothing from
the level. -/
theorem releaseNeverEndsAtZeroSustain : Obligations.ReleaseNeverEndsAtZeroSustain := by
  intro sr p level hmin hmax hp hsustain hlevel hpos
  obtain ⟨hfinite, hnonzero⟩ := release_finite_pos (hp 7)
  have hdec : mag (div (mul p[6] (div one sr)) p[7]) = 0 :=
    mag_div_zero (mag_mul_zero hsustain (rateStep_finite hmin hmax)) hfinite hnonzero
  have hsame : sub level (div (mul p[6] (div one sr)) p[7]) = level :=
    sub_zero_of_ne hlevel (mag_ne_zero_of_pos hpos) hdec
  calc envStep sr p .release level
      = (.release, sub level (div (mul p[6] (div one sr)) p[7])) :=
        releaseStep_of_not_le (by rw [hsame]; exact not_le_zero_of_pos hpos)
    _ = (.release, level) := by rw [hsame]

/-! ### Inactive voices (R188, R193) -/

theorem mixVoices_of_inactive {sr : Word} {p : Vector Word 8} {vs : List Voice} (h : ∀ v ∈ vs, isActive v = false) :
    mixVoices sr p vs zero = (vs, zero) := by
  induction vs with
  | nil => rfl
  | cons v vs ih =>
    obtain ⟨hv, hvs⟩ := List.forall_mem_cons.1 h
    have h00 : add zero zero = zero := by decide
    rw [mixVoices, voiceStep_inactive hv, h00, ih hvs]

/-- Settles O44: each voice stands still with output +0.0, and +0.0 and +0.0 sum to +0.0 over the pool. -/
theorem inactiveVoicesAreSilent : Obligations.InactiveVoicesAreSilent := by
  intro sr x fr h
  have hinactive : ∀ v ∈ x.voices, isActive v = false := fun v hv => isActive_eq_false_iff.2 (h v hv)
  refine ⟨fun v hv => voiceStep_inactive (hinactive v hv), ?_⟩
  rw [synthFrame, mixVoices_of_inactive hinactive]
  rfl

/-! ### An active voice (R173 to R178, R187) -/

theorem voiceStep_of_active {sr : Word} {p : Vector Word 8} {v : Voice} (h : isActive v = true) :
    voiceStep sr p v = activeVoiceStep sr p v := if_pos h

/-- The constants of R173 and R177 are the binary32 values nearest to the decimals. -/
theorem voice_literals : literal 440 1 = 0x43DC0000#32 ∧ literal 69 1 = 0x428A0000#32 ∧ literal 12 1 = 0x41400000#32 ∧
    literal 1200 1 = 0x44960000#32 ∧ literal 3 10 = 0x3E99999A#32 := by decide

/-- A number that is at least a zero has sign + or is a zero itself. -/
theorem sign_or_zero_of_nonneg {x : Word} (h : le zero x = true) : sign x = false ∨ mag x = 0 := by
  obtain ⟨-, -, hk⟩ := le_iff.1 h
  rw [show key zero = 0 by decide] at hk
  cases hs : sign x with
  | false => exact .inl rfl
  | true =>
    simp only [key, hs, if_true] at hk
    exact .inr (by omega)

/-- Settles O46: the witnesses are the model's own stages in R187's order; what is left is the four waveforms, each by its number,
and the closed form of the phase, by R21's facts of frac. -/
theorem activeVoiceFrame : Obligations.ActiveVoiceFrame := by
  intro sr p v w out hact hes hstep
  rw [voiceStep_of_active (isActive_iff.2 ⟨hact, hes⟩)] at hstep
  obtain ⟨rfl, rfl⟩ := Prod.mk.inj hstep
  obtain ⟨h440, h69, h12, h1200, h03⟩ := voice_literals
  rw [h440, h69, h12, h1200, h03]
  have hwave : ∀ n, wholePart p[0] = n → wave (wholePart p[0]) v.phase = wave n v.phase := fun _ h => by rw [h]
  refine ⟨wave (wholePart p[0]) v.phase, voiceFreq p v.note, voiceInc sr p v.note, div one sr, div one (mul twoPi p[2]),
    filterAlpha sr p, filterState (filterAlpha sr p) v.fy (wave (wholePart p[0]) v.phase),
    filterOut p (filterState (filterAlpha sr p) v.fy (wave (wholePart p[0]) v.phase)) (wave (wholePart p[0]) v.phase),
    hwave 0, hwave 1, hwave 2, hwave 3, rfl, rfl, rfl, rfl, rfl, rfl, rfl, ?_, ?_, rfl⟩
  · have hmark : (v.act && (envStep sr p v.es v.level).1 != .idle) = decide ((envStep sr p v.es v.level).1 ≠ .idle) := by
      rw [hact, Bool.true_and]
      cases (envStep sr p v.es v.level).1 <;> rfl
    rw [← hmark]
    rfl
  · rintro _ rfl
    exact ⟨fun hfin hpos => frac_facts hfin (sign_or_zero_of_nonneg hpos), isNaN_frac_of_not_finite⟩

end Sys2Proof.Machine
end

section
/-! PROOFS. The FxProcessor's parameters (40_engine_commands.md R114, R120; 43_mastering_fx.md R210, R211), the bound on its
output (R213), and its DC blocker after a non-finite sample (R214). -/

namespace Sys2Proof.Machine

open Sys2Proof.Machine.F32

/-! ### Parameters (R210, R211) -/

/-- Settles O23: `F32.literal` of each decimal evaluates to the row's pattern. -/
theorem fxTableRows : Obligations.FxTableRows := by
  unfold Obligations.FxTableRows
  decide

/-- Settles O21: the id has its place in the parameter file, where the value is stored by its row's kind and found, or it has
none. -/
theorem fxParamSetAndGet : Obligations.FxParamSetAndGet := by
  intro s k en x ready hs
  refine ⟨fun i v => ?_, fun id v hid => ?_⟩
  · have hi : paramIndex 29 i = some i := paramIndex_some.2 rfl
    rw [exec_paramSet_of_ready ready hs, exec_paramGet_of_ready ready hs, instParamSet, instParamGet, fxParamSet,
      fxParamGet, hi]
    exact ⟨rfl, rfl⟩
  · rw [exec_paramSet_of_ready ready hs, exec_paramGet_of_ready ready hs, instParamSet, instParamGet, fxParamSet,
      fxParamGet, paramIndex_none.2 hid]
    exact ⟨rfl, rfl⟩

/-! ### The output's range (R213) -/

/-- HL_CEIL's range is in [0.1, 1.0], so it is a number, not negative, and at most 1.0 (R210). -/
theorem ceiling_range {v : Word} (h : paramOk (fxSpec 20) v) : isNaN v = false ∧ 0 ≤ key v ∧ le v one = true := by
  obtain ⟨hlo, hhi, -⟩ := h
  obtain ⟨-, hn, hk⟩ := le_iff.1 hlo
  have h0 : 0 ≤ key (fxSpec 20).lo := by decide
  have h1 : (fxSpec 20).hi = one := by decide
  exact ⟨hn, h0.trans hk, h1 ▸ hhi⟩

/-- Settles O49: both samples come from the hard limiter, which clamps to HL_CEIL whatever reaches it. -/
theorem fxOutputIsLimited : Obligations.FxOutputIsLimited := by
  intro sr x fr hp
  obtain ⟨hn, h0, h1⟩ := ceiling_range (hp 20)
  obtain ⟨w, hw⟩ := fxPipeline_limited sr x.fp x.hist fr
  have hframe : (fxFrame sr x fr).2 = limit x.fp w := hw
  refine ⟨h1, fun y hy => ?_⟩
  rw [hframe, List.mem_pair] at hy
  rcases hy with rfl | rfl <;> exact sclamp_limited hn h0

/-! ### The DC blocker after a non-finite sample (R214, R215) -/

/-- What holds of every output from a state the stage keeps holds of a whole run. -/
theorem runStage_outputs {P : FxChannel → Prop} {Q : Word → Prop} {stage : FxChannel → Word → FxChannel × Word}
    (hs : ∀ ch x, P ch → P (stage ch x).1 ∧ Q (stage ch x).2) {ch : FxChannel} (h : P ch) (xs : List Word) :
    ∀ y ∈ (runStage stage ch xs).2, Q y := by
  induction xs generalizing ch with
  | nil => exact fun y hy => (by cases hy)
  | cons x xs ih =>
    obtain ⟨hkeep, hout⟩ := hs ch x h
    exact List.forall_mem_cons.2 ⟨hout, ih hkeep⟩

/-- The DC blocker's elements from which it gives NaNs only: the last output is a NaN, or it is the last input, an infinity. -/
def dcPoisoned (ch : FxChannel) : Prop := isNaN ch.dcY1 = true ∨ (isInf ch.dcY1 = true ∧ ch.dcX1 = ch.dcY1)

/-- A difference from an infinity is a NaN or the infinity with its sign changed. -/
theorem sub_inf_cases {i : Word} (hi : isInf i = true) (x : Word) : isNaN (sub x i) = true ∨ sub x i = neg i := by
  have hni : isInf (neg i) = true := by rwa [isInf_neg]
  have hsum : isNaN (add x (neg i)) = true ∨ add x (neg i) = neg i := by
    cases hf : isFinite x with
    | true => exact .inr (add_finite_inf hf hni)
    | false =>
      rcases not_finite_cases hf with hn | hx
      · exact .inl (isNaN_add_left hn)
      · by_cases hs : sign x = sign (neg i)
        · have he : x = neg i := ext_sign_mag hs ((of_decide_eq_true hx).trans (of_decide_eq_true hni).symm)
          exact .inr ((add_same_inf hx hni hs).trans he)
        · exact .inl (add_opposite_inf hx hni hs)
  rcases hsum with h | h
  · exact .inl ((isNaN_sub x i).trans h)
  · exact .inr ((sub_eq_add (by rw [h]; exact inf_not_nan hni)).trans h)

/-- A poisoned DC blocker gives a NaN for every input, and stays poisoned. -/
theorem dcStep_of_poisoned {sr : Word} {p : FxParams} {ch : FxChannel} (h : dcPoisoned ch) (x : Word) :
    dcPoisoned (dcStep sr p ch x).1 ∧ isNaN (dcStep sr p ch x).2 = true := by
  suffices hy : isNaN (add (sub x ch.dcX1) (mul (dcCoeff sr p) ch.dcY1)) = true from ⟨.inl hy, hy⟩
  rcases h with hn | ⟨hi, hx1⟩
  · exact isNaN_add_right (isNaN_mul_right hn)
  · obtain ⟨hcf, hcs, -, hc0⟩ := dcCoeff_range sr p
    obtain ⟨hmi, hms⟩ := mul_finite_inf hcf hc0 hi
    rw [hx1]
    rcases sub_inf_cases hi x with hd | hd
    · exact isNaN_add_left hd
    · rw [hd]
      exact add_opposite_inf (by rwa [isInf_neg]) hmi (by rw [sign_neg, hms, hcs]; cases sign ch.dcY1 <;> decide)

/-- A non-finite input poisons a DC blocker that holds finite values. -/
theorem dcPoisoned_of_not_finite {sr : Word} {p : FxParams} {ch : FxChannel} {x : Word} (hx1 : isFinite ch.dcX1 = true)
    (hy1 : isFinite ch.dcY1 = true) (hx : isFinite x = false) : dcPoisoned (dcStep sr p ch x).1 := by
  have hy : (dcStep sr p ch x).1.dcY1 = add (sub x ch.dcX1) (mul (dcCoeff sr p) ch.dcY1) := rfl
  rcases not_finite_cases hx with hn | hi
  · exact .inl (isNaN_add_left (isNaN_sub_left hn))
  · obtain ⟨hcf, -, hc1, -⟩ := dcCoeff_range sr p
    have hsum : add x (neg ch.dcX1) = x := add_inf_finite hi (by simpa [isFinite] using hx1)
    have hdiff : sub x ch.dcX1 = x := (sub_eq_add (by rw [hsum]; exact inf_not_nan hi)).trans hsum
    rw [hdiff, add_inf_finite hi (mul_le_one_finite hcf hc1 hy1)] at hy
    exact .inr ⟨by rw [hy]; exact hi, hy.symm⟩

/-- Settles O52: the non-finite input poisons the DC blocker, and a poisoned one stays so and gives NaNs. -/
theorem dcBlockerStaysPoisoned : Obligations.DcBlockerStaysPoisoned := fun _ _ _ _ xs hx1 hy1 hx =>
  runStage_outputs (P := dcPoisoned) (Q := fun y => isNaN y = true) (fun _ x h => dcStep_of_poisoned h x)
    (dcPoisoned_of_not_finite hx1 hy1 hx) xs

end Sys2Proof.Machine
end

section
/-! PROOFS. An FxProcessor's frame stage by stage: what each stage may change, and that a disabled stage stands still
(43_mastering_fx.md R212; 44_truepeak_lofi_dither.md R258, R266). -/

namespace Sys2Proof.Machine

open Sys2Proof.Machine.F32

/-! ### The pipeline as a sequence of stages (R212) -/

/-- Stage n of R212's order: 0 DC blocker, 1 lo-fi, 2 soft clipper, 3 tape, 4 compressor, 5 width, 6 gain, 7 simple limit, 8 true
peak, 9 dither, 10 hard limiter. -/
def fxStage (sr : Word) (p : FxParams) : Nat → FxHistory × Frame → FxHistory × Frame
  | 0 => channelStage (isOn p[0]) (dcStep sr p)
  | 1 => channelStage (isOn p[2]) (crush p)
  | 2 => plainStage (isOn p[7]) (softClip p)
  | 3 => plainStage (isOn p[9]) (tape p)
  | 4 => channelStage (isOn p[12]) (comp sr p)
  | 5 => frameStage (width p)
  | 6 => frameStage (fxGain p)
  | 7 => frameStage (limit p)
  | 8 => sharedStage (isOn p[21]) (tpStep sr p)
  | 9 => sharedStage (isOn p[25]) (dither p)
  | 10 => frameStage (limit p)
  | _ => id

/-- What the first n stages leave of a history and a frame. -/
def afterStages (sr : Word) (p : FxParams) (r : FxHistory × Frame) : Nat → FxHistory × Frame
  | 0 => r
  | n + 1 => fxStage sr p n (afterStages sr p r n)

theorem afterStages_succ (sr : Word) (p : FxParams) (r : FxHistory × Frame) (n : Nat) :
    afterStages sr p r (n + 1) = fxStage sr p n (afterStages sr p r n) := rfl

/-- The pipeline is its eleven stages. -/
theorem fxPipeline_eq_afterStages (sr : Word) (p : FxParams) (h : FxHistory) (fr : Frame) :
    fxPipeline sr p h fr = afterStages sr p (h, fr) 11 :=
  fxPipeline_chain rfl rfl rfl rfl rfl rfl rfl rfl rfl rfl

theorem isOn_iff {w : Word} : isOn w = true ↔ w = one := beq_iff_eq

theorem isOn_of_ne {w : Word} (h : w ≠ one) : isOn w = false := beq_false_of_ne h

/-! ### What each stage may change -/

/-- Stage k is the only one that changes F of the history. -/
def OnlyStage {α : Type} (sr : Word) (p : FxParams) (k : Nat) (F : FxHistory → α) : Prop :=
  ∀ n, n ≠ k → ∀ r, F (fxStage sr p n r).1 = F r.1

/-- Up to stage k what it alone changes is as before the frame. -/
theorem OnlyStage.before {α : Type} {sr : Word} {p : FxParams} {k n : Nat} {F : FxHistory → α} (h : OnlyStage sr p k F)
    (hn : n ≤ k) (r : FxHistory × Frame) : F (afterStages sr p r n).1 = F r.1 := by
  induction n with
  | zero => rfl
  | succ n ih => exact (h n (by omega) _).trans (ih (by omega))

/-- From stage k on what it alone changes is as it left it. -/
theorem OnlyStage.after {α : Type} {sr : Word} {p : FxParams} {k n : Nat} {F : FxHistory → α} (h : OnlyStage sr p k F)
    (hn : k < n) (r : FxHistory × Frame) : F (afterStages sr p r n).1 = F (afterStages sr p r (k + 1)).1 := by
  induction n, hn using Nat.le_induction with
  | base => rfl
  | succ n hn ih => exact (h n (by omega) _).trans ih

/-- If stage k does not change it either, it is as before the frame. -/
theorem OnlyStage.still {α : Type} {sr : Word} {p : FxParams} {k n : Nat} {F : FxHistory → α} (h : OnlyStage sr p k F)
    (hk : ∀ r, F (fxStage sr p k r).1 = F r.1) (r : FxHistory × Frame) : F (afterStages sr p r n).1 = F r.1 := by
  rcases Nat.lt_or_ge k n with hn | hn
  · rw [h.after hn, afterStages_succ, hk, h.before le_rfl]
  · exact h.before hn r

/-- In particular if stage k is off. -/
theorem OnlyStage.still_of_off {α : Type} {sr : Word} {p : FxParams} {k n : Nat} {F : FxHistory → α}
    (h : OnlyStage sr p k F) (hk : ∀ r, fxStage sr p k r = r) (r : FxHistory × Frame) :
    F (afterStages sr p r n).1 = F r.1 := h.still (fun r => congrArg (fun s => F s.1) (hk r)) r

/-- Storing a channel's elements leaves the other channel's alone. -/
theorem channelOf_putChannel_of_ne {c d : Channel} (hne : c ≠ d) (h : FxHistory) (ch : FxChannel) :
    channelOf (putChannel h d ch) c = channelOf h c := by
  match c, d with
  | .left, .right => rfl
  | .right, .left => rfl
  | .left, .left => exact absurd rfl hne
  | .right, .right => exact absurd rfl hne

/-- Storing elements that agree in f with those of their channel keeps f of every channel. -/
theorem putChannel_field {α : Type} (f : FxChannel → α) {h : FxHistory} {d : Channel} {ch : FxChannel}
    (hf : f ch = f (channelOf h d)) (c : Channel) : f (channelOf (putChannel h d ch) c) = f (channelOf h c) := by
  by_cases hcd : c = d
  · subst hcd
    rwa [channelOf_putChannel]
  · rw [channelOf_putChannel_of_ne hcd]

theorem channelOf_channelStage_field {α : Type} (f : FxChannel → α) {stage : FxChannel → Word → FxChannel × Word}
    (hs : ∀ ch x, f (stage ch x).1 = f ch) (en : Bool) (r : FxHistory × Frame) (c : Channel) :
    f (channelOf (channelStage en stage r).1 c) = f (channelOf r.1 c) := by
  obtain ⟨hl, hr⟩ := channelStage_field f hs en r
  cases c
  · exact hl
  · exact hr

/-- A stage keeps f of each channel if its per-channel rule does: three stages have one, the true-peak stage shifts its channel's
history and the ditherer may store its error. -/
theorem fxStage_channelField {α : Type} {sr : Word} {p : FxParams} {n : Nat} (f : FxChannel → α)
    (hdc : n = 0 → ∀ ch x, f (dcStep sr p ch x).1 = f ch) (hcrush : n = 1 → ∀ ch x, f (crush p ch x).1 = f ch)
    (hcomp : n = 4 → ∀ ch x, f (comp sr p ch x).1 = f ch) (htp : n = 8 → ∀ ch x, f (tpShift ch x) = f ch)
    (hdither : n = 9 → ∀ (ch : FxChannel) e, f { ch with nsErr := e } = f ch) (c : Channel) (r : FxHistory × Frame) :
    f (channelOf (fxStage sr p n r).1 c) = f (channelOf r.1 c) := by
  match n with
  | 0 => exact channelOf_channelStage_field f (hdc rfl) _ r c
  | 1 => exact channelOf_channelStage_field f (hcrush rfl) _ r c
  | 2 => exact congrArg (fun h => f (channelOf h c)) (plainStage_history _ _ r)
  | 3 => exact congrArg (fun h => f (channelOf h c)) (plainStage_history _ _ r)
  | 4 => exact channelOf_channelStage_field f (hcomp rfl) _ r c
  | 5 => rfl
  | 6 => rfl
  | 7 => rfl
  | 8 =>
    refine sharedStage_field (fun h => f (channelOf h c)) (fun d h x => ?_) _ r
    obtain ⟨e, g, he⟩ := tpStep_history sr p d h x
    rw [he]
    exact putChannel_field f (htp rfl _ _) c
  | 9 =>
    refine sharedStage_field (fun h => f (channelOf h c)) (fun d h x => ?_) _ r
    obtain ⟨e, he⟩ := dither_history p d h x
    rw [he]
    exact putChannel_field f (hdither rfl _ _) c
  | 10 => rfl
  | _ + 11 => rfl

/-- A stage keeps F of what the channels share if no per-channel stage can change it and the two shared stages, where n is theirs,
do not. -/
theorem fxStage_sharedField {α : Type} {sr : Word} {p : FxParams} {n : Nat} (F : FxHistory → α)
    (hchannel : ∀ en stage r, F (channelStage en stage r).1 = F r.1)
    (htp : n = 8 → ∀ c h x, F (tpStep sr p c h x).1 = F h) (hdither : n = 9 → ∀ c h x, F (dither p c h x).1 = F h)
    (r : FxHistory × Frame) : F (fxStage sr p n r).1 = F r.1 := by
  match n with
  | 0 => exact hchannel _ _ r
  | 1 => exact hchannel _ _ r
  | 2 => exact congrArg F (plainStage_history _ _ r)
  | 3 => exact congrArg F (plainStage_history _ _ r)
  | 4 => exact hchannel _ _ r
  | 5 => rfl
  | 6 => rfl
  | 7 => rfl
  | 8 => exact sharedStage_field F (htp rfl) _ r
  | 9 => exact sharedStage_field F (hdither rfl) _ r
  | 10 => rfl
  | _ + 11 => rfl

/-! ### The elements of R47 and the stage that each belongs to -/

def dcElements (ch : FxChannel) : Word × Word := (ch.dcX1, ch.dcY1)

def bitCrushElements (ch : FxChannel) : Word × Word := (ch.crPhase, ch.crHeld)

def decimatorElements (ch : FxChannel) : Nat × Word := (ch.dmCnt, ch.dmHeld)

def tpElements (ch : FxChannel) : Word × Word × Word × Word := (ch.tpH0, ch.tpH1, ch.tpH2, ch.tpH3)

def tpShared (h : FxHistory) : Word × Word := (h.tpEnv, h.tpG)

section Owners

variable (sr : Word) (p : FxParams) (c : Channel)

theorem dcElements_onlyStage : OnlyStage sr p 0 fun h => dcElements (channelOf h c) := fun _ hn =>
  fxStage_channelField dcElements (fun h => absurd h hn) (fun _ ch x => by rw [crush_others]; rfl) (fun _ _ _ => rfl)
    (fun _ _ _ => rfl) (fun _ _ _ => rfl) c

theorem bitCrushElements_onlyStage : OnlyStage sr p 1 fun h => bitCrushElements (channelOf h c) := fun _ hn =>
  fxStage_channelField bitCrushElements (fun _ _ _ => rfl) (fun h => absurd h hn) (fun _ _ _ => rfl)
    (fun _ _ _ => rfl) (fun _ _ _ => rfl) c

theorem decimatorElements_onlyStage : OnlyStage sr p 1 fun h => decimatorElements (channelOf h c) := fun _ hn =>
  fxStage_channelField decimatorElements (fun _ _ _ => rfl) (fun h => absurd h hn) (fun _ _ _ => rfl)
    (fun _ _ _ => rfl) (fun _ _ _ => rfl) c

theorem compEnv_onlyStage : OnlyStage sr p 4 fun h => (channelOf h c).compEnv := fun _ hn =>
  fxStage_channelField FxChannel.compEnv (fun _ _ _ => rfl) (fun _ ch x => by rw [crush_others]) (fun h => absurd h hn)
    (fun _ _ _ => rfl) (fun _ _ _ => rfl) c

theorem tpElements_onlyStage : OnlyStage sr p 8 fun h => tpElements (channelOf h c) := fun _ hn =>
  fxStage_channelField tpElements (fun _ _ _ => rfl) (fun _ ch x => by rw [crush_others]; rfl) (fun _ _ _ => rfl)
    (fun h => absurd h hn) (fun _ _ _ => rfl) c

theorem nsErr_onlyStage : OnlyStage sr p 9 fun h => (channelOf h c).nsErr := fun _ hn =>
  fxStage_channelField FxChannel.nsErr (fun _ _ _ => rfl) (fun _ ch x => by rw [crush_others]) (fun _ _ _ => rfl)
    (fun _ _ _ => rfl) (fun h => absurd h hn) c

theorem dither_tpShared (h : FxHistory) (x : Word) : tpShared (dither p c h x).1 = tpShared h := by
  obtain ⟨e, he⟩ := dither_history p c h x
  rw [he]
  cases c <;> rfl

theorem tpStep_prng (h : FxHistory) (x : Word) : (tpStep sr p c h x).1.prng = h.prng := by
  obtain ⟨e, g, he⟩ := tpStep_history sr p c h x
  rw [he]
  cases c <;> rfl

theorem dither_prng (h : FxHistory) (x : Word) :
    (dither p c h x).1.prng = prngAfter (drawsOf (wholePart p[26])) h.prng := by
  obtain ⟨e, he⟩ := dither_history p c h x
  rw [he]

theorem tpShared_onlyStage : OnlyStage sr p 8 tpShared := fun _ hn =>
  fxStage_sharedField tpShared
    (fun en stage r => have ⟨henv, hg, _⟩ := channelStage_shared en stage r; Prod.ext henv hg)
    (fun h => absurd h hn) fun _ => dither_tpShared p

theorem prng_onlyStage : OnlyStage sr p 9 FxHistory.prng := fun _ hn =>
  fxStage_sharedField FxHistory.prng (fun en stage r => have ⟨_, _, hprng⟩ := channelStage_shared en stage r; hprng)
    (fun _ => tpStep_prng sr p) fun h => absurd h hn

end Owners

/-! ### Disabled stages (R212, R258, R266) -/

theorem channelStage_of_ne {w : Word} (h : w ≠ one) (stage : FxChannel → Word → FxChannel × Word)
    (r : FxHistory × Frame) : channelStage (isOn w) stage r = r := by rw [isOn_of_ne h, channelStage_off]

theorem sharedStage_of_ne {w : Word} (h : w ≠ one) (stage : Channel → FxHistory → Word → FxHistory × Word)
    (r : FxHistory × Frame) : sharedStage (isOn w) stage r = r := by rw [isOn_of_ne h, sharedStage_off]

theorem crush_of_bitCrush {p : FxParams} (h : wholePart p[3] = 0) : crush p = bitCrush p :=
  funext fun _ => funext fun _ => if_pos h

theorem crush_of_decimator {p : FxParams} (h : wholePart p[3] ≠ 0) : crush p = decimate p :=
  funext fun _ => funext fun _ => if_neg h

/-- The lo-fi stage does not advance the bitcrusher if it is off or the decimator is selected. -/
theorem crushStage_bitCrushElements {p : FxParams} (h : p[2] ≠ one ∨ wholePart p[3] ≠ 0) (r : FxHistory × Frame)
    (c : Channel) :
    bitCrushElements (channelOf (channelStage (isOn p[2]) (crush p) r).1 c) = bitCrushElements (channelOf r.1 c) := by
  rcases h with hoff | hmode
  · rw [channelStage_of_ne hoff]
  · rw [crush_of_decimator hmode]
    exact channelOf_channelStage_field bitCrushElements (fun _ _ => rfl) _ r c

/-- Nor the decimator if it is off or the bitcrusher is selected. -/
theorem crushStage_decimatorElements {p : FxParams} (h : p[2] ≠ one ∨ wholePart p[3] = 0) (r : FxHistory × Frame)
    (c : Channel) :
    decimatorElements (channelOf (channelStage (isOn p[2]) (crush p) r).1 c) = decimatorElements (channelOf r.1 c) := by
  rcases h with hoff | hmode
  · rw [channelStage_of_ne hoff]
  · rw [crush_of_bitCrush hmode]
    exact channelOf_channelStage_field decimatorElements (fun ch x => by rw [bitCrush_others]; rfl) _ r c

/-- A ditherer that is on draws for the left sample and then for the right. -/
theorem ditherStage_prng {p : FxParams} (hon : p[25] = one) (r : FxHistory × Frame) :
    (sharedStage (isOn p[25]) (dither p) r).1.prng = prngAfter (if wholePart p[26] = 1 then 2 else 4) r.1.prng := by
  rw [isOn_iff.2 hon, ← draws_of_frame, ← dither_prng p .left r.1 r.2.l]
  exact dither_prng p .right _ r.2.r

/-- Settles O50: each element belongs to one stage, so it stands still in a frame if that stage keeps it. -/
theorem disabledStagesStandStill : Obligations.DisabledStagesStandStill := by
  intro sr x fr h hh
  have hlast : h = (afterStages sr x.fp (x.hist, fr) 11).1 :=
    hh.trans (congrArg Prod.fst (fxPipeline_eq_afterStages sr x.fp x.hist fr))
  clear hh
  refine ⟨rfl, fun a b hab => ?_⟩
  obtain ⟨c, rfl, rfl⟩ : ∃ c, a = channelOf x.hist c ∧ b = channelOf h c := by
    rw [List.mem_pair, Prod.mk.injEq, Prod.mk.injEq] at hab
    exact hab.elim (fun hl => ⟨.left, hl⟩) fun hr => ⟨.right, hr⟩
  subst hlast
  refine ⟨fun hoff => ?_, fun hoff => ?_, fun hoff => ?_, fun hoff => ?_, fun hoff => ?_, fun hoff => ⟨?_, ?_⟩,
    fun hon => ?_⟩
  · exact Prod.mk.inj ((dcElements_onlyStage sr x.fp c).still_of_off (channelStage_of_ne hoff _) _)
  · exact Prod.mk.inj ((bitCrushElements_onlyStage sr x.fp c).still
      (fun r => crushStage_bitCrushElements hoff r c) _)
  · exact Prod.mk.inj ((decimatorElements_onlyStage sr x.fp c).still
      (fun r => crushStage_decimatorElements hoff r c) _)
  · exact (compEnv_onlyStage sr x.fp c).still_of_off (channelStage_of_ne hoff _) _
  · have htp := (tpElements_onlyStage sr x.fp c).still_of_off (n := 11) (sharedStage_of_ne hoff _) (x.hist, fr)
    have hshared := (tpShared_onlyStage sr x.fp).still_of_off (n := 11) (sharedStage_of_ne hoff _) (x.hist, fr)
    simp only [tpElements, tpShared, Prod.mk.injEq] at htp hshared
    obtain ⟨h0, h1, h2, h3⟩ := htp
    exact ⟨h0, h1, h2, h3, hshared⟩
  · exact (nsErr_onlyStage sr x.fp c).still_of_off (sharedStage_of_ne hoff _) _
  · exact (prng_onlyStage sr x.fp).still_of_off (sharedStage_of_ne hoff _) _
  · calc (afterStages sr x.fp (x.hist, fr) 11).1.prng
        = (afterStages sr x.fp (x.hist, fr) 10).1.prng := (prng_onlyStage sr x.fp).after (by omega) _
      _ = prngAfter (if wholePart x.fp[26] = 1 then 2 else 4) (afterStages sr x.fp (x.hist, fr) 9).1.prng :=
        ditherStage_prng hon _
      _ = prngAfter (if wholePart x.fp[26] = 1 then 2 else 4) x.hist.prng :=
        congrArg _ ((prng_onlyStage sr x.fp).before le_rfl _)

end Sys2Proof.Machine
end

section
/-! PROOFS. What an FxProcessor's frame computes: each stage's output and the elements it stores, in R212's order
(43_mastering_fx.md R212 to R224, 44_truepeak_lofi_dither.md R250 to R266). -/

namespace Sys2Proof.Machine

open Sys2Proof.Machine.F32

/-- The sample of a channel after the first n stages. -/
def stageSample (sr : Word) (p : FxParams) (r : FxHistory × Frame) (n : Nat) (c : Channel) : Word :=
  sampleOf (afterStages sr p r n).2 c

/-! ### A stage on one channel -/

theorem channelStage_of_on {w : Word} (hon : w = one) (stage : FxChannel → Word → FxChannel × Word)
    (r : FxHistory × Frame) (c : Channel) :
    channelOf (channelStage (isOn w) stage r).1 c = (stage (channelOf r.1 c) (sampleOf r.2 c)).1 ∧
    sampleOf (channelStage (isOn w) stage r).2 c = (stage (channelOf r.1 c) (sampleOf r.2 c)).2 :=
  Prod.ext_iff.1 ((channelStage_at _ stage r c).trans (if_pos (isOn_iff.2 hon)))

theorem plainStage_of_on {w : Word} (hon : w = one) (stage : Word → Word) (r : FxHistory × Frame) (c : Channel) :
    sampleOf (plainStage (isOn w) stage r).2 c = stage (sampleOf r.2 c) :=
  (plainStage_at _ stage r c).trans (if_pos (isOn_iff.2 hon))

theorem plainStage_of_ne {w : Word} (h : w ≠ one) (stage : Word → Word) (r : FxHistory × Frame) :
    plainStage (isOn w) stage r = r := by rw [isOn_of_ne h]; rfl

theorem bitCrush_of_le {p : FxParams} {ch : FxChannel} (h : le one (add ch.crPhase p[5]) = true) (x : Word) :
    bitCrush p ch x =
      ({ ch with
          crPhase := sub (add ch.crPhase p[5]) one,
          crHeld := if wholePart p[4] = 16 then x else quant x (wholePart p[4]) },
        if wholePart p[4] = 16 then x else quant x (wholePart p[4])) := if_pos h

theorem bitCrush_of_not_le {p : FxParams} {ch : FxChannel} (h : le one (add ch.crPhase p[5]) = false) (x : Word) :
    bitCrush p ch x = ({ ch with crPhase := add ch.crPhase p[5] }, ch.crHeld) := by simp [bitCrush, h]

theorem follow_eq (ca cr env a : Word) :
    follow ca cr env a = add env (mul (if lt env a then ca else cr) (sub a env)) := by unfold follow; split <;> rfl

theorem tpSmooth_eq (tca tcr g target : Word) :
    tpSmooth tca tcr g target = add g (mul (if lt target g then tca else tcr) (sub target g)) := by
  unfold tpSmooth; split <;> rfl

theorem softClip_eq (p : FxParams) (x : Word) :
    softClip p x = if lt (sub p[8] one) 0x3A83126F#32 = false then div (Num.tanh (mul x p[8])) p[8] else x := by
  unfold softClip
  cases lt (sub p[8] one) 0x3A83126F#32 <;> rfl

theorem maybeQuant_eq (p : FxParams) (b : Nat) (v : Word) :
    maybeQuant p b v = if p[28] = one then quant v b else v := by simp only [maybeQuant, isOn_iff]

/-- The constants of the stages are the binary32 values nearest to the decimals (R11). -/
theorem fx_literals : literal 9 10 = 0x3F666666#32 ∧ literal 9999 10000 = 0x3F7FF972#32 ∧ literal 1 1000 = 0x3A83126F#32 ∧
    literal 20 1 = 0x41A00000#32 ∧ literal 1 10000000000 = 0x2EDBE6FF#32 ∧ literal 5 2 = twoAndHalf ∧
    literal 3 2 = oneAndHalf ∧ literal 1 4 = quarter := by decide

section Stages

variable {sr : Word} {p : FxParams} (r : FxHistory × Frame)

/-- A per-channel stage that is on finds the elements that belong to it as they are before the frame, and leaves them as they are
after it. -/
theorem channelStage_elements {α : Type} {f : FxChannel → α} {k : Nat} {w : Word} {c : Channel}
    {stage : FxChannel → Word → FxChannel × Word} (hstage : fxStage sr p k = channelStage (isOn w) stage)
    (honly : OnlyStage sr p k fun h => f (channelOf h c)) (hk : k < 11) (hon : w = one) :
    ∃ ch, f ch = f (channelOf r.1 c) ∧ stageSample sr p r (k + 1) c = (stage ch (stageSample sr p r k c)).2 ∧
      f (channelOf (afterStages sr p r 11).1 c) = f (stage ch (stageSample sr p r k c)).1 := by
  obtain ⟨hch, hout⟩ := channelStage_of_on hon stage (afterStages sr p r k) c
  rw [← hstage, ← afterStages_succ] at hch hout
  exact ⟨channelOf (afterStages sr p r k).1 c, honly.before le_rfl r, hout, (honly.after hk r).trans (congrArg f hch)⟩

/-- A stage that is off passes the sample on. -/
theorem stageSample_of_off {k : Nat} (hoff : ∀ s, fxStage sr p k s = s) (c : Channel) :
    stageSample sr p r (k + 1) c = stageSample sr p r k c :=
  congrArg (fun s : FxHistory × Frame => sampleOf s.2 c) (hoff _)

/-- The DC blocker (R214). -/
theorem dcStage_on (hon : p[0] = one) (c : Channel) :
    stageSample sr p r 1 c =
      add (sub (stageSample sr p r 0 c) (channelOf r.1 c).dcX1) (mul (dcCoeff sr p) (channelOf r.1 c).dcY1) ∧
    (channelOf (afterStages sr p r 11).1 c).dcX1 = stageSample sr p r 0 c ∧
    (channelOf (afterStages sr p r 11).1 c).dcY1 = stageSample sr p r 1 c := by
  obtain ⟨ch, hch, hy, hb⟩ := channelStage_elements r (k := 0) rfl (dcElements_onlyStage sr p c) (by decide) hon
  obtain ⟨hx1, hy1⟩ := Prod.mk.inj hch
  obtain ⟨hbx, hby⟩ := Prod.mk.inj hb
  rw [← hx1, ← hy1]
  exact ⟨hy, hbx, hby.trans hy.symm⟩

/-- The bitcrusher, on a crossing and otherwise (44 R257). -/
theorem bitCrushStage_on (hon : p[2] = one) (hmode : wholePart p[3] = 0) (c : Channel) :
    (le one (add (channelOf r.1 c).crPhase p[5]) = true →
      stageSample sr p r 2 c = (if wholePart p[4] = 16 then stageSample sr p r 1 c
        else quant (stageSample sr p r 1 c) (wholePart p[4])) ∧
      (channelOf (afterStages sr p r 11).1 c).crPhase = sub (add (channelOf r.1 c).crPhase p[5]) one ∧
      (channelOf (afterStages sr p r 11).1 c).crHeld = stageSample sr p r 2 c) ∧
    (le one (add (channelOf r.1 c).crPhase p[5]) = false →
      stageSample sr p r 2 c = (channelOf r.1 c).crHeld ∧
      (channelOf (afterStages sr p r 11).1 c).crPhase = add (channelOf r.1 c).crPhase p[5] ∧
      (channelOf (afterStages sr p r 11).1 c).crHeld = (channelOf r.1 c).crHeld) := by
  obtain ⟨ch, hch, hy, hb⟩ := channelStage_elements r (k := 1)
    (congrArg (channelStage (isOn p[2])) (crush_of_bitCrush hmode))
    (bitCrushElements_onlyStage sr p c) (by decide) hon
  obtain ⟨hphase, hheld⟩ := Prod.mk.inj hch
  rw [← hphase, ← hheld]
  refine ⟨fun hle => ?_, fun hle => ?_⟩
  · rw [bitCrush_of_le hle] at hy hb
    obtain ⟨hbphase, hbheld⟩ := Prod.mk.inj hb
    exact ⟨hy, hbphase, hbheld.trans hy.symm⟩
  · rw [bitCrush_of_not_le hle] at hy hb
    exact ⟨hy, Prod.mk.inj hb⟩

/-- The decimator (44 R259). -/
theorem decimatorStage_on (hon : p[2] = one) (hmode : wholePart p[3] ≠ 0) (c : Channel) :
    stageSample sr p r 2 c =
      (if (channelOf r.1 c).dmCnt = 0 then stageSample sr p r 1 c else (channelOf r.1 c).dmHeld) ∧
    (channelOf (afterStages sr p r 11).1 c).dmHeld = stageSample sr p r 2 c ∧
    (channelOf (afterStages sr p r 11).1 c).dmCnt = ((channelOf r.1 c).dmCnt + 1) % wholePart p[6] := by
  obtain ⟨ch, hch, hy, hb⟩ := channelStage_elements r (k := 1)
    (congrArg (channelStage (isOn p[2])) (crush_of_decimator hmode))
    (decimatorElements_onlyStage sr p c) (by decide) hon
  obtain ⟨hcnt, hheld⟩ := Prod.mk.inj hch
  obtain ⟨hbcnt, hbheld⟩ := Prod.mk.inj hb
  rw [← hcnt, ← hheld]
  exact ⟨hy, hbheld.trans hy.symm, hbcnt⟩

/-- The soft clipper, on or off (R216). -/
theorem softClipStage (c : Channel) :
    stageSample sr p r 3 c =
      if p[7] = one ∧ lt (sub p[8] one) 0x3A83126F#32 = false
      then div (Num.tanh (mul (stageSample sr p r 2 c) p[8])) p[8] else stageSample sr p r 2 c := by
  by_cases hon : p[7] = one
  · have hy : stageSample sr p r 3 c = softClip p (stageSample sr p r 2 c) := plainStage_of_on hon _ _ c
    rw [hy, softClip_eq]
    simp only [hon, true_and]
  · rw [if_neg fun h => hon h.1]
    exact stageSample_of_off r (k := 2) (plainStage_of_ne hon _) c

/-- The tape stage (R217). -/
theorem tapeStage_on (hon : p[9] = one) (c : Channel) : stageSample sr p r 4 c = tape p (stageSample sr p r 3 c) :=
  plainStage_of_on hon _ _ c

/-- The compressor (R218 to R220). -/
theorem compStage_on (hon : p[12] = one) (c : Channel) :
    stageSample sr p r 5 c = mul (stageSample sr p r 4 c)
      (compGain p (compEnvStep sr p (channelOf r.1 c).compEnv (stageSample sr p r 4 c))) ∧
    (channelOf (afterStages sr p r 11).1 c).compEnv =
      compEnvStep sr p (channelOf r.1 c).compEnv (stageSample sr p r 4 c) := by
  obtain ⟨ch, hch, hy, hb⟩ := channelStage_elements r (k := 4) rfl (compEnv_onlyStage sr p c) (by decide) hon
  rw [← hch]
  exact ⟨hy, hb⟩

/-- The width stage at 1.0 passes the frame on (R221). -/
theorem widthStage_of_one (h : eq p[18] one = true) (c : Channel) : stageSample sr p r 6 c = stageSample sr p r 5 c :=
  congrArg (fun fr => sampleOf fr c) (if_pos h)

/-- At any other width it takes mid and side apart (R221). -/
theorem widthStage_of_ne (h : eq p[18] one = false) {mid side : Word}
    (hmid : mid = mul (add (stageSample sr p r 5 .left) (stageSample sr p r 5 .right)) half)
    (hside : side = mul (mul (sub (stageSample sr p r 5 .left) (stageSample sr p r 5 .right)) half) p[18]) :
    stageSample sr p r 6 .left = add mid side ∧ stageSample sr p r 6 .right = sub mid side := by
  have hw : width p (afterStages sr p r 5).2 = ⟨add mid side, sub mid side⟩ := by
    rw [hmid, hside, width, if_neg (by rw [h]; exact Bool.false_ne_true)]
    rfl
  exact Frame.mk.inj hw

/-- The gain, the simple limit and the hard limiter (R222 to R224). -/
theorem gainAndLimits (c : Channel) :
    stageSample sr p r 7 c = mul (stageSample sr p r 6 c) p[19] ∧
    stageSample sr p r 8 c = sclamp (stageSample sr p r 7 c) p[20] ∧
    stageSample sr p r 11 c = sclamp (stageSample sr p r 10 c) p[20] :=
  ⟨sampleOf_fxGain p _ c, sampleOf_limit p _ c, sampleOf_limit p _ c⟩

end Stages

/-! ### The true-peak limiter (44 R250 to R256) -/

/-- A channel's place in the frame: the left one comes first (44 R256, R266). -/
def channelIndex : Channel → Nat
  | .left => 0
  | .right => 1

/-- Herm(t) over a channel's history (44 R251). -/
def hermOf (e : Word × Word × Word × Word) (t : Word) : Word := herm e.1 e.2.1 e.2.2.1 e.2.2.2 t

/-- Sub-sample j of a frame, 0 to 3 the left channel's and 4 to 7 the right's, of the histories that the shift left. -/
def tpSubSample (h : FxHistory) (j : Nat) : Word :=
  hermOf (tpElements (if j < 4 then h.left else h.right)) (literal (j % 4) 4)

/-- The shared envelope and gain after j of the sub-samples `sub`. -/
def tpFollow (sr : Word) (p : FxParams) (sub : Nat → Word) (start : Word × Word) : Nat → Word × Word
  | 0 => start
  | j + 1 =>
    let s := tpFollow sr p sub start j
    let q := tpSub sr p s.1 s.2 (sub j)
    (q.1, q.2.1)

/-- The sum of the four sub-samples from k on, each times the gain after it. -/
def tpSum (sub gain : Nat → Word) (k : Nat) : Word :=
  add (add (add (add zero (mul (sub k) (gain (k + 1)))) (mul (sub (k + 1)) (gain (k + 2))))
    (mul (sub (k + 2)) (gain (k + 3)))) (mul (sub (k + 3)) (gain (k + 4)))

theorem tpSubSample_channel (h : FxHistory) (c : Channel) {j : Nat} (hj : j < 4) :
    tpSubSample h (4 * channelIndex c + j) = hermOf (tpElements (channelOf h c)) (literal j 4) := by
  have hmod : (4 * channelIndex c + j) % 4 = j := by omega
  unfold tpSubSample
  rw [hmod]
  cases c
  · rw [if_pos (by simpa [channelIndex] using hj)]; rfl
  · rw [if_neg (by simp [channelIndex])]; rfl

/-- One sub-sample's step of the shared envelope and gain (44 R252 to R254). -/
theorem tpFollow_succ (sr : Word) (p : FxParams) (sub : Nat → Word) (start : Word × Word) (j : Nat) :
    (tpFollow sr p sub start (j + 1)).1 = add (tpFollow sr p sub start j).1
      (mul (if lt (tpFollow sr p sub start j).1 (abs (sub j)) then tpAttack sr p else tpRelease sr p)
        (F32.sub (abs (sub j)) (tpFollow sr p sub start j).1)) ∧
    (tpFollow sr p sub start (j + 1)).2 = add (tpFollow sr p sub start j).2
      (mul (if lt (tpTarget p (tpFollow sr p sub start (j + 1)).1) (tpFollow sr p sub start j).2
          then tpAttack sr p else tpRelease sr p)
        (F32.sub (tpTarget p (tpFollow sr p sub start (j + 1)).1) (tpFollow sr p sub start j).2)) :=
  ⟨follow_eq _ _ _ _, tpSmooth_eq _ _ _ _⟩

section TruePeak

variable {sr : Word} {p : FxParams} {sub : Nat → Word} {start : Word × Word}

/-- The four sub-samples of a sample, from number k of the frame on. -/
theorem tpSubs_eq {ch : FxChannel} {k : Nat} (hsub : ∀ j, j < 4 → sub (k + j) = hermOf (tpElements ch) (literal j 4)) :
    tpSubs sr p ch tpOffsets (tpFollow sr p sub start k).1 (tpFollow sr p sub start k).2 zero =
      ((tpFollow sr p sub start (k + 4)).1, (tpFollow sr p sub start (k + 4)).2,
        tpSum sub (fun j => (tpFollow sr p sub start j).2) k) := by
  have hoffsets : tpOffsets = [literal 0 4, literal 1 4, literal 2 4, literal 3 4] := by decide
  have hherm : ∀ t, herm ch.tpH0 ch.tpH1 ch.tpH2 ch.tpH3 t = hermOf (tpElements ch) t := fun _ => rfl
  rw [hoffsets]
  simp only [tpSubs, hherm, ← hsub 0 (by decide), ← hsub 1 (by decide), ← hsub 2 (by decide), ← hsub 3 (by decide)]
  rfl

/-- TpStep on a channel whose first sub-sample is number k of the frame. -/
theorem tpStep_eq {c : Channel} {h : FxHistory} {x : Word} {k : Nat} (hstart : tpShared h = tpFollow sr p sub start k)
    (hsub : ∀ j, j < 4 → sub (k + j) = hermOf (tpElements (tpShift (channelOf h c) x)) (literal j 4)) :
    tpStep sr p c h x =
      ({ putChannel h c (tpShift (channelOf h c) x) with
          tpEnv := (tpFollow sr p sub start (k + 4)).1, tpG := (tpFollow sr p sub start (k + 4)).2 },
        mul (tpSum sub (fun j => (tpFollow sr p sub start j).2) k) quarter) := by
  obtain ⟨he, hg⟩ := Prod.ext_iff.1 hstart
  have hsubs := tpSubs_eq (sr := sr) (p := p) (start := start) hsub
  rw [← he, ← hg] at hsubs
  exact tpStep_of_subs hsubs

end TruePeak

/-- A shared stage that is on, from what it gives on the left channel and then on the right. -/
theorem sharedStage_eq {stage : Channel → FxHistory → Word → FxHistory × Word} {r : FxHistory × Frame}
    {a b : FxHistory × Word} (hl : stage .left r.1 r.2.l = a) (hr : stage .right a.1 r.2.r = b) :
    sharedStage true stage r = (b.1, ⟨a.2, b.2⟩) := by
  subst hl hr; rfl

/-- The true-peak stage of a frame, over the sub-samples of the histories it leaves: the left channel's four, then the right's. -/
theorem tpStage_eq {sr : Word} {p : FxParams} {r : FxHistory × Frame} {h : FxHistory} {sub gain : Nat → Word}
    (hh : ∀ c, tpElements (channelOf h c) = tpElements (tpShift (channelOf r.1 c) (sampleOf r.2 c)))
    (hsub : sub = tpSubSample h) (hgain : gain = fun j => (tpFollow sr p sub (tpShared r.1) j).2) :
    tpShared (sharedStage true (tpStep sr p) r).1 = tpFollow sr p sub (tpShared r.1) 8 ∧
    ∀ c, sampleOf (sharedStage true (tpStep sr p) r).2 c = mul (tpSum sub gain (4 * channelIndex c)) quarter := by
  have hherm : ∀ c j, j < 4 → sub (4 * channelIndex c + j) =
      hermOf (tpElements (tpShift (channelOf r.1 c) (sampleOf r.2 c))) (literal j 4) := fun c j hj => by
    rw [hsub, tpSubSample_channel h c hj, hh]
  have hl := tpStep_eq (sr := sr) (p := p) (start := tpShared r.1) (c := .left) (h := r.1) (k := 0) rfl (hherm .left)
  have hr := tpStep_eq (sr := sr) (p := p) (start := tpShared r.1) (c := .right) (k := 4)
    (h := { putChannel r.1 .left (tpShift (channelOf r.1 .left) r.2.l) with
      tpEnv := (tpFollow sr p sub (tpShared r.1) 4).1, tpG := (tpFollow sr p sub (tpShared r.1) 4).2 }) rfl
    (hherm .right)
  rw [sharedStage_eq hl hr, hgain]
  exact ⟨Prod.eta _, fun c => by cases c <;> rfl⟩

/-- The shift on each channel (44 R250). -/
theorem tpStage_elements (sr : Word) (p : FxParams) (r : FxHistory × Frame) (c : Channel) :
    tpElements (channelOf (sharedStage true (tpStep sr p) r).1 c) =
      ((channelOf r.1 c).tpH1, (channelOf r.1 c).tpH2, (channelOf r.1 c).tpH3, sampleOf r.2 c) := by
  cases c <;> rfl

/-- The true-peak stage in the pipeline. -/
theorem tpStage_on {sr : Word} {p : FxParams} (r : FxHistory × Frame) {h : FxHistory} (hon : p[21] = one)
    (hlast : h = (afterStages sr p r 11).1) :
    (∀ c, tpElements (channelOf h c) =
      ((channelOf r.1 c).tpH1, (channelOf r.1 c).tpH2, (channelOf r.1 c).tpH3, stageSample sr p r 8 c)) ∧
    tpShared h = tpFollow sr p (tpSubSample h) (tpShared r.1) 8 ∧
    ∀ c, stageSample sr p r 9 c =
      mul (tpSum (tpSubSample h) (fun j => (tpFollow sr p (tpSubSample h) (tpShared r.1) j).2) (4 * channelIndex c))
        quarter := by
  have hstage : afterStages sr p r 9 = sharedStage true (tpStep sr p) (afterStages sr p r 8) :=
    congrArg (fun on => sharedStage on (tpStep sr p) (afterStages sr p r 8)) (isOn_iff.2 hon)
  have hshift : ∀ c, tpElements (channelOf h c) =
      tpElements (tpShift (channelOf (afterStages sr p r 8).1 c) (stageSample sr p r 8 c)) := fun c => by
    rw [hlast, (tpElements_onlyStage sr p c).after (by decide) r, hstage]
    exact tpStage_elements sr p _ c
  have hbefore := (tpShared_onlyStage sr p).before le_rfl r
  have hafter := (tpShared_onlyStage sr p).after (n := 11) (by decide) r
  obtain ⟨hshared, hout⟩ := tpStage_eq (sr := sr) (p := p) (r := afterStages sr p r 8) hshift rfl rfl
  rw [hbefore] at hshared hout
  refine ⟨fun c => ?_, ?_, fun c => ?_⟩
  · have hold := (tpElements_onlyStage sr p c).before le_rfl r
    simp only [tpElements, Prod.mk.injEq] at hold
    obtain ⟨-, h1, h2, h3⟩ := hold
    rw [hshift, ← h1, ← h2, ← h3]
    rfl
  · rw [← hshared, ← hstage, ← hafter, hlast]
  · rw [← hout, ← hstage, stageSample]

/-! ### The ditherer (44 R260 to R266) -/

/-- A channel's error is no other channel's. -/
theorem dither_nsErr_of_ne {c d : Channel} (hne : c ≠ d) (p : FxParams) (h : FxHistory) (x : Word) :
    (channelOf (dither p d h x).1 c).nsErr = (channelOf h c).nsErr := by
  obtain ⟨e, he⟩ := dither_history p d h x
  rw [he]
  exact congrArg FxChannel.nsErr (channelOf_putChannel_of_ne hne h _)

/-- The generator is no channel's. -/
theorem channelOf_withPrng (h : FxHistory) (s : BitVec 31) (c : Channel) :
    channelOf { h with prng := s } c = channelOf h c := by cases c <;> rfl

/-- Only the noise-shaped ditherer stores a channel's error. -/
theorem channelOf_tpdf (p : FxParams) (b : Nat) (h : FxHistory) (x : Word) (c : Channel) :
    channelOf (tpdf p b h x).1 c = channelOf h c := channelOf_withPrng h _ c

theorem channelOf_rectangular (p : FxParams) (b : Nat) (h : FxHistory) (x : Word) (c : Channel) :
    channelOf (rectangular p b h x).1 c = channelOf h c := channelOf_withPrng h _ c

/-- The error is what quantization adds (44 R265). -/
theorem noiseShaped_nsErr (b : Nat) (c : Channel) (h : FxHistory) (x : Word) :
    (channelOf (noiseShaped b c h x).1 c).nsErr = sub (noiseShaped b c h x).2
      (sub (add x (tpdfOffset (pow2 (-b)) (prngValue (prngNext h.prng)) (prngValue (prngNext (prngNext h.prng)))))
        (mul half (channelOf h c).nsErr)) := by cases c <;> rfl

/-- A ditherer that is on finds, on a channel, the generator after the draws for the channels before it, and the channel's own
error. -/
theorem ditherStage_at (p : FxParams) (r : FxHistory × Frame) (c : Channel) :
    ∃ h, h.prng = prngAfter (drawsOf (wholePart p[26]) * channelIndex c) r.1.prng ∧
      (channelOf h c).nsErr = (channelOf r.1 c).nsErr ∧
      sampleOf (sharedStage true (dither p) r).2 c = (dither p c h (sampleOf r.2 c)).2 ∧
      (channelOf (sharedStage true (dither p) r).1 c).nsErr = (channelOf (dither p c h (sampleOf r.2 c)).1 c).nsErr := by
  cases c with
  | left => exact ⟨r.1, rfl, rfl, rfl, dither_nsErr_of_ne (by decide) p _ r.2.r⟩
  | right =>
    refine ⟨(dither p .left r.1 r.2.l).1, ?_, dither_nsErr_of_ne (by decide) p r.1 r.2.l, rfl, rfl⟩
    rw [dither_prng, channelIndex, Nat.mul_one]

/-- The ditherer in the pipeline. -/
theorem ditherStage_on {sr : Word} {p : FxParams} (r : FxHistory × Frame) (hon : p[25] = one) (c : Channel) :
    ∃ h, h.prng = prngAfter (drawsOf (wholePart p[26]) * channelIndex c) r.1.prng ∧
      (channelOf h c).nsErr = (channelOf r.1 c).nsErr ∧
      stageSample sr p r 10 c = (dither p c h (stageSample sr p r 9 c)).2 ∧
      (channelOf (afterStages sr p r 11).1 c).nsErr = (channelOf (dither p c h (stageSample sr p r 9 c)).1 c).nsErr := by
  have hstage : afterStages sr p r 10 = sharedStage true (dither p) (afterStages sr p r 9) :=
    congrArg (fun on => sharedStage on (dither p) (afterStages sr p r 9)) (isOn_iff.2 hon)
  obtain ⟨h, hprng, herr, hout, hstored⟩ := ditherStage_at p (afterStages sr p r 9) c
  rw [← hstage] at hout hstored
  refine ⟨h, ?_, herr.trans ((nsErr_onlyStage sr p c).before le_rfl r), hout,
    ((nsErr_onlyStage sr p c).after (by decide) r).trans hstored⟩
  rw [hprng, (prng_onlyStage sr p).before le_rfl r]

/-- The draws of the TPDF and noise-shaped ditherers' offset on a channel (44 R263, R266). -/
def tpdfDraw (p : FxParams) (s : BitVec 31) (c : Channel) : Word :=
  tpdfOffset (pow2 (-(wholePart p[27] : Nat))) (prngValue (prngAfter (2 * channelIndex c + 1) s))
    (prngValue (prngAfter (2 * channelIndex c + 2) s))

/-- TPDF dither (44 R263). -/
theorem tpdfStage_on {sr : Word} {p : FxParams} (r : FxHistory × Frame) (hon : p[25] = one) (hkind : wholePart p[26] = 0)
    (c : Channel) :
    stageSample sr p r 10 c =
      maybeQuant p (wholePart p[27]) (add (stageSample sr p r 9 c) (tpdfDraw p r.1.prng c)) ∧
    (channelOf (afterStages sr p r 11).1 c).nsErr = (channelOf r.1 c).nsErr := by
  obtain ⟨h, hprng, herr, hout, hstored⟩ := ditherStage_on (sr := sr) r hon c
  rw [dither_tpdf hkind] at hout hstored
  rw [hkind] at hprng
  rw [channelOf_tpdf, herr] at hstored
  refine ⟨?_, hstored⟩
  rw [hout, tpdf, hprng]
  rfl

/-- Rectangular dither (44 R264). -/
theorem rectangularStage_on {sr : Word} {p : FxParams} (r : FxHistory × Frame) (hon : p[25] = one)
    (hkind : wholePart p[26] = 1) (c : Channel) :
    stageSample sr p r 10 c =
      maybeQuant p (wholePart p[27]) (add (stageSample sr p r 9 c)
        (mul (sub (prngValue (prngAfter (channelIndex c + 1) r.1.prng)) half) (pow2 (-(wholePart p[27] : Nat))))) ∧
    (channelOf (afterStages sr p r 11).1 c).nsErr = (channelOf r.1 c).nsErr := by
  obtain ⟨h, hprng, herr, hout, hstored⟩ := ditherStage_on (sr := sr) r hon c
  rw [dither_rectangular hkind] at hout hstored
  rw [hkind, show drawsOf 1 = 1 from rfl, Nat.one_mul] at hprng
  rw [channelOf_rectangular, herr] at hstored
  refine ⟨?_, hstored⟩
  rw [hout, rectangular, hprng]
  rfl

/-- Noise-shaped dither (44 R265). -/
theorem noiseShapedStage_on {sr : Word} {p : FxParams} (r : FxHistory × Frame) (hon : p[25] = one)
    (hkind : wholePart p[26] = 2) {c : Channel} {v : Word}
    (hv : v = sub (add (stageSample sr p r 9 c) (tpdfDraw p r.1.prng c)) (mul half (channelOf r.1 c).nsErr)) :
    stageSample sr p r 10 c = quant v (wholePart p[27]) ∧
    (channelOf (afterStages sr p r 11).1 c).nsErr = sub (stageSample sr p r 10 c) v := by
  obtain ⟨h, hprng, herr, hout, hstored⟩ := ditherStage_on (sr := sr) r hon c
  rw [dither_noiseShaped hkind] at hout hstored
  rw [hkind] at hprng
  rw [noiseShaped_nsErr, ← hout, hprng, herr] at hstored
  refine ⟨?_, hv ▸ hstored⟩
  rw [hout, noiseShaped, hprng, herr, hv]
  rfl

/-! ### The whole frame -/

/-- Multiplying by 1.0 before the signal clamp changes nothing: a NaN is +0.0 either way (R15). -/
theorem sclamp_mul_one (x c : Word) : sclamp (mul x one) c = sclamp x c := by
  cases hx : isNaN x with
  | true => rw [sclamp_nan hx, sclamp_nan (isNaN_mul_left hx)]
  | false => rw [mul_one_of_not_nan hx]

/-- With every enable off only the width, the gain and the limits are left (R212). -/
theorem fxPipeline_of_off {sr : Word} {p : FxParams} (h0 : p[0] ≠ one) (h2 : p[2] ≠ one) (h7 : p[7] ≠ one)
    (h9 : p[9] ≠ one) (h12 : p[12] ≠ one) (h21 : p[21] ≠ one) (h25 : p[25] ≠ one) (h : FxHistory) (fr : Frame) :
    fxPipeline sr p h fr = (h, limit p (limit p (fxGain p (width p fr)))) :=
  fxPipeline_chain (channelStage_of_ne h0 _ _).symm (channelStage_of_ne h2 _ _).symm (plainStage_of_ne h7 _ _).symm
    (plainStage_of_ne h9 _ _).symm (channelStage_of_ne h12 _ _).symm rfl rfl rfl (sharedStage_of_ne h21 _ _).symm
    (sharedStage_of_ne h25 _ _).symm

/-- The limits of a frame at unity gain are one clamp to HL_CEIL. -/
theorem limit_limit_fxGain {p : FxParams} (hceil : paramOk (fxSpec 20) p[20]) (hgain : p[19] = one) (fr : Frame) :
    limit p (limit p (fxGain p fr)) = ⟨sclamp fr.l p[20], sclamp fr.r p[20]⟩ := by
  obtain ⟨hn, h0, -⟩ := ceiling_range hceil
  simp only [limit, fxGain, hgain, sclamp_idem hn h0, sclamp_mul_one]

/-- With every enable off and width and gain at 1.0 a frame is clamped to HL_CEIL and no state changes (R212, R224). -/
theorem fxFrame_of_off {sr : Word} {x : Fx} (hceil : paramOk (fxSpec 20) x.fp[20]) (h0 : x.fp[0] = zero)
    (h2 : x.fp[2] = zero) (h7 : x.fp[7] = zero) (h9 : x.fp[9] = zero) (h12 : x.fp[12] = zero) (h21 : x.fp[21] = zero)
    (h25 : x.fp[25] = zero) (hwidth : x.fp[18] = one) (hgain : x.fp[19] = one) (fr : Frame) :
    fxFrame sr x fr = (x, ⟨sclamp fr.l x.fp[20], sclamp fr.r x.fp[20]⟩) := by
  have hoff : zero ≠ one := by decide
  have hbypass : width x.fp fr = fr := if_pos (eq_one_iff.2 hwidth)
  rw [fxFrame, fxPipeline_of_off (h0 ▸ hoff) (h2 ▸ hoff) (h7 ▸ hoff) (h9 ▸ hoff) (h12 ▸ hoff) (h21 ▸ hoff)
    (h25 ▸ hoff), hbypass, limit_limit_fxGain hceil hgain]

/-- Settles O51: one lemma per stage gives its output from the stage before and from the elements before the frame; with every
enable off the pipeline is two clamps, which are one. -/
theorem fxFrameRunsStagesInOrder : Obligations.FxFrameRunsStagesInOrder := by
  refine ⟨fun sr x fr p h hp hh => ?_, fun sr x fr hp h0 h2 h7 h9 h12 h21 h25 hwidth hgain =>
    fxFrame_of_off (hp 20) h0 h2 h7 h9 h12 h21 h25 hwidth hgain fr⟩
  have hpipe := fxPipeline_eq_afterStages sr x.fp x.hist fr
  have hlast : h = (afterStages sr x.fp (x.hist, fr) 11).1 := hh.trans (congrArg Prod.fst hpipe)
  clear hh
  subst hp
  obtain ⟨l09, l09999, l0001, l20, leps, l52, l32, l14⟩ := fx_literals
  rw [l09, l09999, l0001, l20, leps, l52, l32, l14]
  refine ⟨stageSample sr x.fp (x.hist, fr),
    fun c => ⟨rfl, congrArg (fun s : FxHistory × Frame => sampleOf s.2 c) hpipe.symm⟩, ?_, ?_, softClipStage _, ?_,
    ?_, ⟨widthStage_of_one _, fun h _ _ => widthStage_of_ne _ h⟩, gainAndLimits _, ?_,
    fun hoff => stageSample_of_off _ (k := 8) (sharedStage_of_ne hoff _), ?_,
    fun hoff => stageSample_of_off _ (k := 9) (sharedStage_of_ne hoff _)⟩
  · -- DC blocker
    rintro c _ _ rfl rfl
    refine ⟨?_, fun hoff => stageSample_of_off _ (k := 0) (channelStage_of_ne hoff _) c⟩
    rintro hon _ rfl
    rw [hlast]
    exact dcStage_on (x.hist, fr) hon c
  · -- lo-fi
    rintro c _ _ rfl rfl
    rw [hlast]
    refine ⟨?_, fun hon hmode => decimatorStage_on (x.hist, fr) hon hmode c,
      fun hoff => stageSample_of_off _ (k := 1) (channelStage_of_ne hoff _) c⟩
    rintro hon hmode _ rfl
    exact bitCrushStage_on (x.hist, fr) hon hmode c
  · -- tape
    refine fun c => ⟨?_, fun hoff => stageSample_of_off _ (k := 3) (plainStage_of_ne hoff _) c⟩
    rintro hon _ _ rfl rfl
    exact tapeStage_on (x.hist, fr) hon c
  · -- compressor
    rintro c _ _ rfl rfl
    rw [hlast]
    refine ⟨?_, fun hoff => stageSample_of_off _ (k := 4) (channelStage_of_ne hoff _) c⟩
    rintro hon _ _ _ _ _ rfl rfl rfl rfl rfl
    exact compStage_on (x.hist, fr) hon c
  · -- true-peak limiter
    intro hon
    obtain ⟨hshift, hshared, hout⟩ := tpStage_on (sr := sr) (x.hist, fr) hon hlast
    obtain ⟨henv, hg⟩ := Prod.mk.inj hshared
    refine ⟨tpSubSample h, fun j => (tpFollow sr x.fp (tpSubSample h) (tpShared x.hist) j).1,
      fun j => (tpFollow sr x.fp (tpSubSample h) (tpShared x.hist) j).2, rfl, rfl, henv.symm, hg.symm, ?_, ?_⟩
    · rintro j _ _ _ - rfl rfl rfl
      exact tpFollow_succ sr x.fp (tpSubSample h) (tpShared x.hist) j
    · rintro c _ _ k rfl rfl hk
      have hk4 : k = 4 * channelIndex c := by rw [hk]; cases c <;> rfl
      obtain ⟨h0, h1, h2, h3⟩ : _ ∧ _ ∧ _ ∧ _ := by simpa only [tpElements, Prod.mk.injEq] using hshift c
      refine ⟨h0, h1, h2, h3, ?_, ?_⟩
      · rintro j _ _ _ _ hj rfl rfl rfl rfl
        rw [hk4]
        exact tpSubSample_channel h c hj
      · rw [hk4]
        exact hout c
  · -- ditherer
    rintro hon c _ _ k _ r _ _ rfl rfl hk rfl rfl hr rfl
    have hk1 : k = channelIndex c := by rw [hk]; cases c <;> rfl
    rw [hlast, hk1]
    simp only [hr, ← maybeQuant_eq]
    refine ⟨?_, ?_, ?_⟩
    · rintro hkind _ rfl
      exact tpdfStage_on (x.hist, fr) hon hkind c
    · rintro hkind _ rfl
      exact rectangularStage_on (x.hist, fr) hon hkind c
    · rintro hkind _ rfl
      exact noiseShapedStage_on (x.hist, fr) hon hkind rfl

end Sys2Proof.Machine
end

section
/-! PROOFS. The decimator (44_truepeak_lofi_dither.md R259), the dither generator's draws and the offsets taken from them
(R260, R261, R263, R268), and quantizing twice (R267). -/

namespace Sys2Proof.Machine.F32

/-- Two finite values that are not negative are in the order of their units (R13). -/
theorem le_of_absUnits_le {x y : Word} (hx : isFinite x = true) (hy : isFinite y = true) (hsx : sign x = false)
    (hsy : sign y = false) (h : absUnits x ≤ absUnits y) : le x y = true := by
  have hm : mag x ≤ mag y := (mag_units_le hx hy).1 h
  refine le_iff.2 ⟨finite_not_nan hx, finite_not_nan hy, ?_⟩
  simpa [key, hsx, hsy] using hm

/-- Two zeros are equal, of either sign each (R13). -/
theorem eq_of_mag_eq_zero {x y : Word} (hx : mag x = 0) (hy : mag y = 0) : eq x y = true :=
  eq_iff.2 ⟨by simp [isNaN, hx], by simp [isNaN, hy], by simp [key, hx, hy]⟩

/-! ### Differences and signed products that come out exactly (R12) -/

/-- A difference with at most 24 significant bits comes out exactly. -/
theorem sub_exact {a b : Word} (ha : isFinite a = true) (hb : isFinite b = true) {s k : Nat} (hs : s < 2 ^ 24)
    (hk : k ≤ 253) (h : (units a - units b).natAbs = s * 2 ^ k) :
    isFinite (sub a b) = true ∧ units (sub a b) = units a - units b := by
  have hnb : isFinite (neg b) = true := by simpa [isFinite] using hb
  have hu : units a + units (neg b) = units a - units b := by rw [units_neg, sub_eq_add_neg]
  obtain ⟨hf, hv⟩ := add_exact ha hnb hs hk (by rw [hu]; exact h)
  rw [sub_eq_add (finite_not_nan hf)]
  exact ⟨hf, hv.trans hu⟩

/-- The value of a pattern whose sign is the xor of two others' is the product of the values where the magnitudes multiply. -/
theorem units_of_sign_xor {a b c : Word} (hs : sign c = (sign a != sign b)) {d : Nat}
    (h : absUnits c * d = absUnits a * absUnits b) : units c * d = units a * units b := by
  have h' : (absUnits c : Int) * d = absUnits a * absUnits b := by exact_mod_cast h
  simp only [units_eq, hs]
  cases sign a <;> cases sign b <;> simp [h']

/-- The magnitude of a value that is a whole number at the place of 2^k units. -/
theorem absUnits_of_units {x : Word} {n : Int} {k : Nat} (h : units x = n * 2 ^ k) : absUnits x = n.natAbs * 2 ^ k := by
  rw [← natAbs_units, h, Int.natAbs_mul, Int.natAbs_pow]; rfl

/-- A product with at most 24 significant bits has exactly the product of the values, in units. -/
theorem units_mul_exact {a b : Word} (ha : isFinite a = true) (hb : isFinite b = true) {s k : Nat} (hs : s < 2 ^ 24)
    (hk : k ≤ 253) (h : absUnits a * absUnits b = s * 2 ^ k * unitsPerOne) :
    units (mul a b) * unitsPerOne = units a * units b := by
  obtain ⟨-, hsign, habs⟩ := mul_exact ha hb hs hk h
  exact units_of_sign_xor hsign (by rw [habs, h])

/-! ### Quantizing twice (R19, R20, R267) -/

/-- Scaling by a power of 2 gives a NaN for a NaN only. -/
theorem isNaN_mul_pow2 {x : Word} (hx : isNaN x = false) {k : Int} (h1 : -126 ≤ k) (h2 : k ≤ 127) :
    isNaN (mul x (pow2 k)) = false := by
  cases hf : isFinite x with
  | true => rw [mul_finite hf (pow2_facts h1 h2).1]; exact isNaN_pack_roundMag _ _ _
  | false =>
    rcases not_finite_cases hf with hn | hi
    · rw [hx] at hn; cases hn
    · rw [inf_mul_pow2 hi h1 h2]; exact hx

theorem isNaN_rnd {x : Word} (hx : isNaN x = true) : isNaN (rnd x) = true := by simp [rnd, hx]

/-- What rounding to a whole number gives of a number: an infinity, a zero, or a nonzero whole number (R19). -/
theorem rnd_cases {y : Word} (hy : isNaN y = false) :
    isInf (rnd y) = true ∨ mag (rnd y) = 0 ∨
    (isFinite (rnd y) = true ∧ mag (rnd y) ≠ 0 ∧ unitsPerOne ∣ absUnits (rnd y)) := by
  cases hf : isFinite y with
  | true =>
    by_cases h0 : mag y = 0
    · rw [rnd_zero h0]; exact .inr (.inl rfl)
    · obtain ⟨hr, -, hu⟩ := rnd_facts hf h0
      by_cases hz : mag (rnd y) = 0
      · exact .inr (.inl hz)
      · exact .inr (.inr ⟨hr, hz, hu ▸ dvd_mul_left _ _⟩)
  | false =>
    rcases not_finite_cases hf with hn | hi
    · rw [hy] at hn; cases hn
    · rw [rnd_inf hi]; exact .inl hi

/-- A rounded value scaled down by 2^b is quantized already (R267). -/
theorem quant_scaled_rnd {y : Word} (hy : isNaN y = false) {b : Nat} (hb : b ≤ 24) :
    eq (quant (mul (rnd y) (pow2 (-b))) b) (mul (rnd y) (pow2 (-b))) = true := by
  have hup : isFinite (pow2 b) = true := (pow2_facts (by omega) (by omega)).1
  have hdown : isFinite (pow2 (-b)) = true := (pow2_facts (by omega) (by omega)).1
  unfold quant
  rcases rnd_cases hy with hi | hz | ⟨hf, h0, hw⟩
  · rw [inf_mul_pow2 hi (by omega) (by omega), inf_mul_pow2 hi (by omega) (by omega), rnd_inf hi,
      inf_mul_pow2 hi (by omega) (by omega)]
    exact eq_refl (inf_not_nan hi)
  · have hq : mag (mul (rnd y) (pow2 (-b))) = 0 := mag_mul_zero hz hdown
    rw [rnd_zero (mag_mul_zero hq hup)]
    exact eq_of_mag_eq_zero (mag_mul_zero rfl hdown) hq
  · obtain ⟨hqf, -, hback⟩ := whole_scale hf h0 hw hb
    rw [hback, rnd_of_whole hf h0 hw]
    exact eq_refl (finite_not_nan hqf)

end Sys2Proof.Machine.F32

namespace Sys2Proof.Machine

open Sys2Proof.Machine.F32

/-- Settles O54: the first quantization leaves a rounded value scaled down by 2^b. -/
theorem quantizationIsProjection : Obligations.QuantizationIsProjection := fun _ _ _ hb =>
  ⟨fun hx => quant_scaled_rnd (isNaN_mul_pow2 hx (by omega) (by omega)) hb,
    fun hx => isNaN_mul_left (isNaN_rnd (isNaN_mul_left hx))⟩

/-! ### The decimator (R259) -/

/-- A channel's decimator after the inputs `past`, counted from a counter of 0: the counter is their number modulo N, and
inside a group of N the held sample is the group's first. -/
def DecimatorAfter (n : Nat) (past : List Word) (ch : FxChannel) : Prop :=
  ch.dmCnt = past.length % n ∧ (ch.dmCnt ≠ 0 → past[past.length / n * n]? = some ch.dmHeld)

/-- The decimator gives the first sample of the group its input is in, and counts the input. -/
theorem decimate_after {p : FxParams} {past : List Word} {ch : FxChannel} (h : DecimatorAfter (wholePart p[6]) past ch)
    (x : Word) :
    (past ++ [x])[past.length / wholePart p[6] * wholePart p[6]]? = some (decimate p ch x).2 ∧
    DecimatorAfter (wholePart p[6]) (past ++ [x]) (decimate p ch x).1 := by
  obtain ⟨hcnt, hheld⟩ := h
  have hcount : (decimate p ch x).1.dmCnt = (ch.dmCnt + 1) % wholePart p[6] := rfl
  have hkept : (decimate p ch x).1.dmHeld = (decimate p ch x).2 := rfl
  have hout : (decimate p ch x).2 = if ch.dmCnt = 0 then x else ch.dmHeld := rfl
  generalize wholePart p[6] = n at *
  have hdiv := Nat.div_add_mod' past.length n
  have hget : (past ++ [x])[past.length / n * n]? = some (decimate p ch x).2 := by
    rw [hout]
    split
    next h0 => rw [show past.length / n * n = past.length by omega, List.getElem?_concat_length]
    next h0 => rw [List.getElem?_append_left (by omega), hheld h0]
  refine ⟨hget, by rw [hcount, hcnt, Nat.mod_add_mod, List.length_append, List.length_singleton], fun hne => ?_⟩
  have hsame : (past.length + 1) / n = past.length / n := by
    rw [hcount, hcnt, Nat.mod_add_mod] at hne
    rw [Nat.succ_div, if_neg fun hd => hne (Nat.mod_eq_zero_of_dvd hd), Nat.add_zero]
  rw [List.length_append, List.length_singleton, hsame, hkept, hget]

/-- Output j of the decimator after the inputs `past` is the first sample of the group that input j is in. -/
theorem runStage_decimate {p : FxParams} {past : List Word} {ch : FxChannel}
    (h : DecimatorAfter (wholePart p[6]) past ch) (xs : List Word) :
    (runStage (decimate p) ch xs).2.length = xs.length ∧
    ∀ j < xs.length, (runStage (decimate p) ch xs).2[j]? =
      (past ++ xs)[(past.length + j) / wholePart p[6] * wholePart p[6]]? := by
  induction xs generalizing past ch with
  | nil => exact ⟨rfl, fun j hj => absurd hj (Nat.not_lt_zero j)⟩
  | cons x xs ih =>
    obtain ⟨hout, hafter⟩ := decimate_after h x
    obtain ⟨hlen, hrest⟩ := ih hafter
    refine ⟨congrArg (· + 1) hlen, fun j hj => ?_⟩
    rw [List.append_cons]
    cases j with
    | zero =>
      have hlt := (List.getElem?_eq_some_iff.1 hout).1
      rw [Nat.add_zero, List.getElem?_append_left hlt, hout]
      rfl
    | succ j =>
      have hidx : (past ++ [x]).length + j = past.length + (j + 1) := by simp; omega
      rw [← hidx]
      exact hrest j (Nat.lt_of_succ_lt_succ hj)

/-- Settles O53: a counter of 0 is the decimator after no input. -/
theorem decimatorHoldsEveryNth : Obligations.DecimatorHoldsEveryNth := by
  intro p ch xs _ h0
  have hstart : DecimatorAfter (wholePart p[6]) [] ch := ⟨h0.trans (Nat.zero_mod _).symm, fun hne => absurd h0 hne⟩
  simpa using runStage_decimate hstart xs

/-! ### The generator's draws (R260, R261) -/

/-- The top 24 of a generator state's 31 bits. -/
theorem prngTop_lt (s : BitVec 31) : s.toNat / 2 ^ 7 < 2 ^ 24 := by have := s.isLt; omega

/-- The largest draw: 1 - 2^-24 is exact, in units 2^24 - 1 at the place of a draw's last bit. -/
theorem largestDraw_facts : isFinite (sub one (pow2 (-24))) = true ∧ sign (sub one (pow2 (-24))) = false ∧
    absUnits (sub one (pow2 (-24))) = (2 ^ 24 - 1) * 2 ^ 125 := by
  rw [show sub one (pow2 (-24)) = 0x3F7FFFFF#32 by decide]
  decide

/-- Settles O55: a draw's value is its 24 bits at the place 2^-24, so it is bounded by 2^24 - 1 there; the six draws are
evaluated. -/
theorem generatorDrawsAreExact : Obligations.GeneratorDrawsAreExact := by
  refine ⟨prngNext_toNat, fun s => ?_, by decide, by decide⟩
  obtain ⟨hf, hsign, hunits⟩ := prngValue_facts s
  obtain ⟨hlf, hlsign, hlunits⟩ := largestDraw_facts
  have hbound : absUnits (prngValue s) ≤ absUnits (sub one (pow2 (-24))) := by
    rw [hunits, hlunits]; exact Nat.mul_le_mul_right _ (Nat.le_sub_one_of_lt (prngTop_lt s))
  exact ⟨hf, hsign, by rw [hunits, unitsPerOne_eq]; ring, le_of_absUnits_le hf hlf hsign hlsign hbound⟩

/-! ### TPDF offsets (R263, R268) -/

/-- The difference of the 24-bit numbers of two draws. -/
def drawDifference (s1 s2 : BitVec 31) : Int := (s1.toNat / 2 ^ 7 : Nat) - (s2.toNat / 2 ^ 7 : Nat)

theorem natAbs_drawDifference_lt (s1 s2 : BitVec 31) : (drawDifference s1 s2).natAbs < 2 ^ 24 := by
  have h1 := prngTop_lt s1
  have h2 := prngTop_lt s2
  unfold drawDifference
  omega

/-- The difference of two draws is exact, at the place 2^-24 (R263). -/
theorem sub_prngValue_facts (s1 s2 : BitVec 31) :
    isFinite (sub (prngValue s1) (prngValue s2)) = true ∧
    units (sub (prngValue s1) (prngValue s2)) = drawDifference s1 s2 * 2 ^ 125 := by
  obtain ⟨hf1, hs1, hu1⟩ := prngValue_facts s1
  obtain ⟨hf2, hs2, hu2⟩ := prngValue_facts s2
  have hd : units (prngValue s1) - units (prngValue s2) = drawDifference s1 s2 * 2 ^ 125 := by
    rw [units_of_sign hs1, units_of_sign hs2, hu1, hu2, drawDifference]; push_cast; ring
  obtain ⟨hf, hu⟩ := sub_exact hf1 hf2 (natAbs_drawDifference_lt s1 s2) (show 125 ≤ 253 by norm_num)
    (by rw [hd, Int.natAbs_mul]; rfl)
  exact ⟨hf, hu.trans hd⟩

/-- Half a step is exact: 2^-(b + 1). -/
theorem halfStep_facts {b : Nat} (hb : b ≤ 24) :
    isFinite (mul (pow2 (-b)) half) = true ∧ sign (mul (pow2 (-b)) half) = false ∧
    absUnits (mul (pow2 (-b)) half) = 2 ^ (148 - b) := by
  obtain ⟨hf, hs, hu⟩ := pow2_facts (k := -(b : Int)) (by omega) (by omega)
  have hhalf : absUnits half = 2 ^ 148 := by decide
  have hplace : (149 + -(b : Int)).toNat + 148 = 148 - b + 149 := by omega
  obtain ⟨mf, ms, mu⟩ := mul_exact hf (b := half) (by decide) (s := 1) (k := 148 - b) (by norm_num) (by omega)
    (by rw [hu, hhalf, unitsPerOne_eq, one_mul, ← pow_add, ← pow_add, hplace])
  exact ⟨mf, by rw [ms, hs]; decide, mu.trans (one_mul _)⟩

/-- A TPDF offset is exact: the difference of the two 24-bit numbers at the place 2^-(25 + b) (R263). -/
theorem tpdfOffset_facts (s1 s2 : BitVec 31) {b : Nat} (hb : b ≤ 24) :
    isFinite (tpdfOffset (pow2 (-b)) (prngValue s1) (prngValue s2)) = true ∧
    units (tpdfOffset (pow2 (-b)) (prngValue s1) (prngValue s2)) = drawDifference s1 s2 * 2 ^ (124 - b) := by
  obtain ⟨df, du⟩ := sub_prngValue_facts s1 s2
  obtain ⟨hf, hs, hu⟩ := halfStep_facts hb
  have hplace : 125 + (148 - b) = 124 - b + 149 := by omega
  have hprod : absUnits (sub (prngValue s1) (prngValue s2)) * absUnits (mul (pow2 (-b)) half) =
      (drawDifference s1 s2).natAbs * 2 ^ (124 - b) * unitsPerOne := by
    rw [absUnits_of_units du, hu, unitsPerOne_eq, mul_assoc, mul_assoc, ← pow_add, ← pow_add, hplace]
  have hlt := natAbs_drawDifference_lt s1 s2
  refine ⟨(mul_exact df hf hlt (by omega) hprod).1, ?_⟩
  have hunits := units_mul_exact df hf hlt (by omega) hprod
  have hone : (unitsPerOne : Int) = 2 ^ 149 := by rw [unitsPerOne_eq]; norm_cast
  rw [du, units_of_sign hs, hu, hone, Nat.cast_pow, Nat.cast_ofNat, mul_assoc, ← pow_add, hplace, pow_add, ← mul_assoc]
    at hunits
  exact mul_right_cancel₀ (by positivity) hunits

/-- Settles O56: the offset's value is exact, and the 24-bit numbers differ by less than 2^24. -/
theorem tpdfOffsetBelowHalfStep : Obligations.TpdfOffsetBelowHalfStep := by
  rintro s1 s2 b _ hb _ rfl
  obtain ⟨hf, hu⟩ := tpdfOffset_facts s1 s2 hb
  refine ⟨hf, ?_, ?_⟩
  · have hplace : 124 - b + (25 + b) = 149 := by omega
    rw [hu, mul_assoc, ← pow_add, hplace, unitsPerOne_eq, drawDifference]
    norm_cast
  · obtain ⟨-, -, hstep⟩ := pow2_facts (k := -(b : Int)) (by omega) (by omega)
    have hplace : (149 + -(b : Int)).toNat = 24 + (124 - b + 1) := by omega
    rw [absUnits_of_units hu, hstep, hplace, pow_add, mul_assoc, ← pow_succ]
    exact Nat.mul_lt_mul_of_pos_right (natAbs_drawDifference_lt s1 s2) (by positivity)

end Sys2Proof.Machine
end

section
/-! PROOFS. A step never refuses and faults on an overlap only, and a RENDER stores all its frames and no other byte of BUF
(60_exceptions.md R286 to R288; 20_memory.md R84). -/

namespace Sys2Proof.Machine

/-! ### What can stop a step (R84, R287, R288) -/

/-- What the host may do while BUSY = 1 is a full 32-bit read of ID or of STATUS. -/
theorem allowedWhileBusy_iff (a : Access) :
    allowedWhileBusy a = true ↔
      a.kind = .read ∧ a.width = 32 ∧ a.lanes = 0xF#4 ∧ (a.offset = 0x000#16 ∨ a.offset = 0x004#16) := by
  simp only [allowedWhileBusy, isFullWord, Bool.and_eq_true, Bool.or_eq_true, beq_iff_eq, decide_eq_true_eq, and_assoc]

/-- An access that overlaps no command takes its turn, refused by the port or accepted. -/
theorem step_access_of_not_overlaps {s : State} {a : Access} {rest : List Turn} (ht : s.turns = .access a :: rest)
    (ho : overlaps s a = false) : ∃ t, step s = .next t := by
  have ho' : overlaps { s with turns := rest } a = false := ho
  cases hp : portError a with
  | none => exact ⟨acceptAccess a { s with turns := rest }, by simp [step, turnStep, ht, hostAccess, ho', hp]⟩
  | some e => exact ⟨refuseAccess e a { s with turns := rest }, by simp [step, turnStep, ht, hostAccess, ho', hp]⟩

/-- A step that does not go on is an access that overlaps a running command. -/
theorem step_next_or_overlap (s : State) :
    (∃ t, step s = .next t) ∨
    (step s = .fault .hostOverlap ∧
      ∃ a rest, s.turns = .access a :: rest ∧ isBusy s = true ∧ allowedWhileBusy a = false) := by
  cases ht : s.turns with
  | nil => exact .inl (step_of_turns_nil ht ▸ coreStep_next s)
  | cons turn rest =>
    cases turn with
    | core => exact .inl (step_of_core_turn ht ▸ coreStep_next _)
    | waitIdle =>
      cases hb : isBusy s with
      | true => exact .inl (step_of_waitIdle_turn hb ht ▸ coreStep_next s)
      | false => exact .inl ⟨_, step_waitIdle_ends hb ht⟩
    | access a =>
      cases ho : overlaps s a with
      | false => exact .inl (step_access_of_not_overlaps ht ho)
      | true =>
        simp only [overlaps, Bool.and_eq_true, Bool.not_eq_true'] at ho
        obtain ⟨hb, ha⟩ := ho
        exact .inr ⟨step_overlap hb ha ht, a, rest, rfl, hb, ha⟩

/-- Settles O7: a step goes on or is an overlap, and each overlap faults. -/
theorem stepStopsOnOverlapOnly : Obligations.StepStopsOnOverlapOnly := by
  refine fun s => ⟨fun r hr => ?_, fun hf => ?_, fun ⟨a, rest, ht, hb, hn⟩ => ?_⟩
  · obtain ⟨t, h⟩ | ⟨h, -⟩ := step_next_or_overlap s <;> cases hr.symm.trans h
  · obtain ⟨t, h⟩ | ⟨-, a, rest, ht, hb, ha⟩ := step_next_or_overlap s
    · cases hf.symm.trans h
    · exact ⟨a, rest, ht, hb, fun h => Bool.eq_false_iff.1 ha ((allowedWhileBusy_iff a).2 h)⟩
  · exact step_overlap hb (Bool.eq_false_iff.2 fun h => hn ((allowedWhileBusy_iff a).1 h)) ht

/-! ### A RENDER that decodes (R286) -/

/-- Every byte outside the frames stored is as it was. -/
theorem readByte_framesStored_of_ne {sr mv : Word} {n f a : Nat} (h : a < frameOffset f ∨ frameOffset (f + n) ≤ a)
    (slots : Vector Slot Config.maxInstruments) (m : Memory) :
    readByte (framesStored sr mv n f slots m) a = readByte m a := by
  induction n generalizing f slots m with
  | zero => rfl
  | succ n ih =>
    unfold frameOffset at h ih
    have hrest := ih (f := f + 1) (by omega) (frameStep sr mv slots).1 (writeFrame m f (frameStep sr mv slots).2)
    exact hrest.trans (readByte_writeFrame_of_ne m (by unfold frameOffset; omega) _)

/-- Settles O38: the RENDER runs the frames of its clamped operand, and the state it ends in is `rendered`. -/
theorem renderNeverFails : Obligations.RenderNeverFails := by
  intro s c n ready ht hc hd hn hr
  obtain ⟨k, hk⟩ : ∃ k, min n.toNat 4096 = k + 1 := Nat.exists_eq_succ_of_ne_zero (by omega)
  have hcount : s.rend.getD ⟨0, framesOperand n⟩ = ⟨0, k + 1⟩ := by
    rw [hr, Option.getD_none]; exact congrArg (RenderCount.mk 0) hk
  rw [hk]
  refine ⟨framesStored s.sr s.mv (k + 1) 0 s.slots s.mem, run_render ready ht hc hd hn hcount (Nat.zero_add _),
    fun f hf => readFrame_rendered hf (k + 1) s, fun a ha => readByte_framesStored_of_ne ?_ s.slots s.mem⟩
  unfold frameOffset bufBase
  omega

end Sys2Proof.Machine
end

section
/-! PROOFS. What power-on reset leaves, and what can change the sample rate (70_reset_and_hazards.md R300, R304; 10_state.md R34). -/

namespace Sys2Proof.Machine

/-- Settles O57: the registers are `State.reset`'s fields, and its slots are the empty table. -/
theorem resetValues : Obligations.ResetValues :=
  ⟨rfl, rfl, rfl, rfl, rfl, rfl, rfl, rfl, rfl, rfl, noSlots_get, rfl⟩

/-! ### No host access changes SR (R34) -/

@[simp] theorem clearErr_sr (v : Word) (s : State) : (clearErr v s).sr = s.sr := by
  unfold clearErr
  split <;> rfl

@[simp] theorem writeCmd_sr (w : Word) (s : State) : (writeCmd w s).sr = s.sr := by
  unfold writeCmd
  split <;> rfl

@[simp] theorem portWrite_sr (off : Nat) (v : Word) (s : State) : (portWrite off v s).sr = s.sr := by
  rcases portWrite_cases off v s with ⟨-, he⟩ | ⟨-, he⟩ | ⟨-, he⟩ | ⟨-, he⟩ | ⟨-, he⟩ | ⟨-, -, he⟩ <;> rw [he]
  · exact clearErr_sr v s
  · exact writeCmd_sr v s

@[simp] theorem refuseAccess_sr (e : ErrCode) (a : Access) (s : State) : (refuseAccess e a s).sr = s.sr := by
  unfold refuseAccess
  split <;> rfl

@[simp] theorem acceptAccess_sr (a : Access) (s : State) : (acceptAccess a s).sr = s.sr := by
  unfold acceptAccess
  split
  · rfl
  · exact portWrite_sr _ _ s

/-! ### Of the commands, INIT and TEARDOWN alone change SR (R122, R124, R304) -/

/-- The commands that set SR: INIT and TEARDOWN. -/
def setsRate (i : Instr) : Prop := i = .teardown ∨ ∃ rate, i = .init rate

/-- A command that changes SR is one that sets it. -/
theorem setsRate_of_effect {s t : State} {i : Instr} (he : CommandEffect s i t) (hne : t.sr ≠ s.sr) : setsRate i := by
  cases he with
  | init rate => exact .inr ⟨rate, rfl⟩
  | teardown => exact .inl rfl
  | render n =>
    obtain ⟨-, -, -, hsr, -⟩ := renderStep_keeps (s.rend.getD ⟨0, framesOperand n⟩) s
    exact absurd hsr hne
  | idle | stored | drum | found | volume => exact absurd rfl hne

/-- A core step that changes SR runs a latched command that sets it. -/
theorem coreStep_rate {s t : State} (h : coreStep s = .next t) (hne : t.sr ≠ s.sr) :
    ∃ c i, s.lcmd = some c ∧ decode c = .ok i ∧ setsRate i := by
  rcases coreStep_cases h with ⟨-, rfl⟩ | ⟨c, i, hc, hd, he⟩ | ⟨c, e, -, -, rfl⟩
  · exact absurd rfl hne
  · exact ⟨c, i, hc, hd, setsRate_of_effect (effect_of_exec he) hne⟩
  · exact absurd (raiseErr_sr e _) hne

/-- A step that changes SR is the core's: no end of a wait and no access does. -/
theorem step_rate {s t : State} (h : step s = .next t) (hne : t.sr ≠ s.sr) :
    ∃ c i, s.lcmd = some c ∧ decode c = .ok i ∧ setsRate i := by
  rcases step_cases h with ⟨-, hk⟩ | ⟨rest, -, hk⟩ | ⟨rest, -, -, hk⟩ | ⟨rest, -, -, rfl⟩ |
    ⟨a, rest, -, -, ⟨e, -, rfl⟩ | ⟨-, rfl⟩⟩
  · exact coreStep_rate hk hne
  · exact coreStep_rate (s := { s with turns := rest }) hk hne
  · exact coreStep_rate hk hne
  · exact absurd rfl hne
  · exact absurd (refuseAccess_sr e a _) hne
  · exact absurd (acceptAccess_sr a _) hne

/-- Settles O34: the command a rate-changing step runs is the latched one, and it is a TEARDOWN or an INIT. -/
theorem rateChangesByInitOrTeardown : Obligations.RateChangesByInitOrTeardown := by
  intro s t h hne
  obtain ⟨c, i, hc, hd, rfl | ⟨rate, rfl⟩⟩ := step_rate h hne
  · exact ⟨c, hc, .inl hd⟩
  · exact ⟨c, hc, .inr ⟨rate, hd⟩⟩

end Sys2Proof.Machine
end
